-- ==== Sys2Proof/Word.lean ====
section
/-! DEFINITION. The word types of the engine: the widths of rules R5, R6, R26, R27, R52 and R57. -/

namespace Sys2Proof

/-- One byte of the buffer memory (rule R5: a byte has 8 bits). -/
abbrev Byte := BitVec 8

/-- OFFSET, LEN, VALUE and RESULT (rule R6: 32 bits each). -/
abbrev Word := BitVec 32

/-- The COUNT field and the `rem` register (rules R6 and R26: 6 bits). -/
abbrev Count := BitVec 6

/-- The `pos` register (rule R26: 33 bits). -/
abbrev BitPos := BitVec 33

/-- A status code as the response word and STATUS.LAST_CODE carry it (rules R19 and R57: 4 bits). -/
abbrev CodeBits := BitVec 4

/-- One command word (rule R52: 128 bits). -/
abbrev CmdWord := BitVec 128

/-- One response word (rule R57: 64 bits). -/
abbrev RspWord := BitVec 64

end Sys2Proof
end

