-- ==== Sys2Proof/Config.lean ====
section
/-! DEFINITION. What is fixed for the machine: the legal COUNT range (R5), the largest memory (R7), the values this model
chooses where the spec leaves a parameter open (log entries 2 and 3), the free values (log entry 5) and the status codes (R90). -/

namespace Sys2Proof

/-- COUNT_MIN (rule R5). -/
def Config.countMin : Nat := 1

/-- COUNT_MAX (rule R5). -/
def Config.countMax : Nat := 32

/-- The largest MEM_BYTES the spec allows (rule R7: 1 to 2^32). -/
def Config.memBytesMax : Nat := 4294967296

/-- MEM_BYTES in `State.reset`. DESIGN CHOICE (log entry 2): rule R7 leaves the parameter open; every statement about
every state holds for every size. -/
def Config.resetMemBytes : Nat := 4294967296

/-- What a byte that no cell lists reads as. DESIGN CHOICE (log entry 3): rule R7 leaves INIT_MEM open; a state's list of
cells can give every content, so only `State.reset` rests on this value. -/
def Config.unlistedByte : Byte := 0

/-- The values the spec leaves unspecified (rules R26, R27, R30; U6 of 93_implementation_defined.md): the `n`-th draw, at
width `w`. It has no body, so nothing can be proved about any of them (log entry 5). -/
opaque Config.freeValue : (n : Nat) → (w : Nat) → BitVec w

/-- The status codes of rule R90. -/
inductive Code where
  /-- Code 0: the command completed. -/
  | ok
  /-- Code 1: CTRL.OP is 0b10 or 0b11 (rule R91). -/
  | illegalOp
  /-- Code 2: a reserved bit of CTRL is set (rule R92). -/
  | rsvd
  /-- Code 3: COUNT is 0 or above 32 (rule R93). -/
  | badCount
  /-- Code 4: OFFSET + COUNT exceeds LEN * 8 (rule R94). -/
  | range
deriving DecidableEq, Repr

end Sys2Proof
end

