-- ==== Sys2Proof/Syntax.lean ====
section
/-! DEFINITION. The commands of the engine: one constructor for each row of spec/opcode_table.json (rule R55). -/

namespace Sys2Proof

/-- A command, with the fields of its command word that it uses (rules R52 to R55). The fields hold every value the word
can: a COUNT outside 1..32 and a field that leaves the buffer are commands too, which the engine answers with a fault code. -/
inductive Instr where
  /-- EXTRACT offset, count, len (rule R77). The VALUE field of the word is ignored (rule R60), so it is no operand. -/
  | extract (offset : Word) (count : Count) (len : Word)
  /-- INJECT offset, count, value, len (rule R82). -/
  | inject (offset : Word) (count : Count) (value : Word) (len : Word)
deriving DecidableEq, Repr

end Sys2Proof
end

