-- ==== Sys2Proof/WellFormed.lean ====
section
/-! DEFINITION. Which commands are legal (rule R59): COUNT in 1..32 (R93) and a field that ends inside the buffer (R94). -/

namespace Sys2Proof

/-- COUNT is legal (rules R5 and R93). -/
def countLegal (count : Count) : Bool :=
  decide (Config.countMin ≤ count.toNat) && decide (count.toNat ≤ Config.countMax)

/-- The field ends inside the buffer, computed without wrap (rules R54 and R94; C4 of 90_conflicts.md). -/
def rangeLegal (offset : Word) (count : Count) (len : Word) : Bool :=
  decide (offset.toNat + count.toNat ≤ len.toNat * 8)

/-- A legal command: one that passes every check of rule R58. -/
def Instr.wellFormed : Instr → Bool
  | .extract offset count len => countLegal count && rangeLegal offset count len
  | .inject offset count _ len => countLegal count && rangeLegal offset count len

end Sys2Proof
end

