-- ==== Sys2Proof/Decode.lean ====
section
/-! DEFINITION. From a command word to a command, and back: the fields of rules R52 to R54, the decode of rule R58, the
encoding of rule R63. The decoder is total on all 2^128 words and rejects by the code of rule R90. -/

namespace Sys2Proof

/-- CTRL.OP = cmd[1:0] (rule R53). -/
def cmdOp (cmd : CmdWord) : BitVec 2 := cmd.extractLsb' 0 2

/-- CTRL.RSVD_A = cmd[7:2] (rule R53). -/
def cmdRsvdA (cmd : CmdWord) : BitVec 6 := cmd.extractLsb' 2 6

/-- CTRL.COUNT = cmd[13:8] (rules R53 and R54). -/
def cmdCount (cmd : CmdWord) : Count := cmd.extractLsb' 8 6

/-- CTRL.RSVD_B = cmd[31:14] (rule R53). -/
def cmdRsvdB (cmd : CmdWord) : BitVec 18 := cmd.extractLsb' 14 18

/-- VALUE = cmd[63:32] (rules R52 and R54). -/
def cmdValue (cmd : CmdWord) : Word := cmd.extractLsb' 32 32

/-- OFFSET = cmd[95:64] (rules R52 and R54). -/
def cmdOffset (cmd : CmdWord) : Word := cmd.extractLsb' 64 32

/-- LEN = cmd[127:96] (rules R52 and R54). -/
def cmdLen (cmd : CmdWord) : Word := cmd.extractLsb' 96 32

/-- The row of the opcode table a word matches (rule R55 and the reserved bits of rule R56). The operands are not checked
here: rule R58 checks them after the match (log entry 16). -/
def decodeWord (cmd : CmdWord) : Except Code Instr :=
  if 2 ≤ (cmdOp cmd).toNat then .error .illegalOp
  else if cmdRsvdA cmd ≠ 0 ∨ cmdRsvdB cmd ≠ 0 then .error .rsvd
  else if cmdOp cmd = 0 then .ok (.extract (cmdOffset cmd) (cmdCount cmd) (cmdLen cmd))
  else .ok (.inject (cmdOffset cmd) (cmdCount cmd) (cmdValue cmd) (cmdLen cmd))

/-- The operand checks of rule R58, COUNT before RANGE (rule R96); `ok` where both pass. -/
def operandCode (offset : Word) (count : Count) (len : Word) : Code :=
  if countLegal count then
    if rangeLegal offset count len then .ok else .range
  else .badCount

/-- `operandCode` of a command's own operands. -/
def Instr.operandCode : Instr → Code
  | .extract offset count len => Sys2Proof.operandCode offset count len
  | .inject offset count _ len => Sys2Proof.operandCode offset count len

/-- The whole decode of rule R58: a legal command, or the code of the first check that fails. -/
def decode (cmd : CmdWord) : Except Code Instr :=
  match decodeWord cmd with
  | .error c => .error c
  | .ok i =>
    match i.operandCode with
    | .ok => .ok i
    | c => .error c

/-- A command word from its four 32-bit words (rule R52). -/
def cmdOfWords (w0 w1 w2 w3 : Word) : CmdWord := w3 ++ w2 ++ w1 ++ w0

/-- CTRL with the reserved bits zero (rule R53). -/
def ctrlWord (op : BitVec 2) (count : Count) : Word := (0 : BitVec 18) ++ count ++ (0 : BitVec 6) ++ op

/-- The command word of a command (rule R63: an assembler writes 0 in EXTRACT's VALUE). -/
def encode : Instr → CmdWord
  | .extract offset count len => cmdOfWords (ctrlWord 0 count) 0 offset len
  | .inject offset count value len => cmdOfWords (ctrlWord 1 count) value offset len

/-- The command the decoder reads from a word of the opcode table's numbering (bit 0 the least significant bit of the
first word, which is how rule R9 numbers a command word), the bits above `nbits` zero. -/
def decodeTableWord (nbits w : Nat) : Option Instr :=
  match decodeWord (BitVec.ofNat 128 (w % 2 ^ nbits)) with
  | .ok i => some i
  | .error _ => none

end Sys2Proof
end

