-- ==== Sys2Proof/Machine/State.lean ====
section
/-! DEFINITION. The state of the machine (rules R15, R19 to R31): the engines, the memory they share, and the model's own
fields for what rules R7 and R31 make arguments of the step: the events to come, and what left the ports. -/

namespace Sys2Proof.Machine

/-- The engine phase (rule R25). -/
inductive Phase where
  /-- No command held; the command port accepts one. -/
  | idle
  /-- A checked command is being executed chunk by chunk. -/
  | run
  /-- The response is held on the response port. -/
  | resp
deriving DecidableEq, Repr

/-- The `op` register (rule R26; 1 bit: 0 is EXTRACT, 1 is INJECT). -/
inductive Op where
  | extract
  | inject
deriving DecidableEq, Repr

/-- The `step` register (rule R26): whether INJECT's current chunk still has to be read, or to be written. -/
inductive ChunkStep where
  | read
  | write
deriving DecidableEq, Repr

/-- The working registers (rule R26). Outside phase RUN their values are unspecified. -/
structure Work where
  /-- Which command runs. -/
  op   : Op
  /-- Bit offset of the next chunk. -/
  pos  : BitPos
  /-- Bits still to process. -/
  rem  : Count
  /-- EXTRACT accumulator. -/
  acc  : Word
  /-- INJECT value, masked to COUNT bits. -/
  val  : Word
  /-- Buffer length in bytes, for the range check. -/
  len  : Word
  /-- For INJECT, whether the current chunk's byte has been read. -/
  step : ChunkStep
  /-- For INJECT, the byte read in the current chunk's READ step. -/
  byte : Byte
deriving DecidableEq, Repr

/-- The response registers (rule R27). Outside phase RESP their values are unspecified. -/
structure Rsp where
  /-- rsp_code. -/
  code   : CodeBits
  /-- rsp_result. -/
  result : Word
deriving DecidableEq, Repr

/-- One engine instance (rule R15), and the words its host has offered on its command port (rule R114: they wait there). -/
structure Engine where
  /-- STATUS.ERR, sticky (rule R21). STATUS.BUSY is `phase` seen from outside (rule R20), so it is not stored twice. -/
  err      : Bool
  /-- STATUS.LAST_CODE (rule R22). -/
  lastCode : CodeBits
  /-- The RESULT register (rule R23). -/
  result   : Word
  /-- The phase (rule R25). -/
  phase    : Phase
  /-- The working registers (rule R26). -/
  work     : Work
  /-- The response registers (rule R27). -/
  rsp      : Rsp
  /-- The host's side of the command port: the words offered and not yet taken, oldest first (rules R31 and R114;
  log entry 10). -/
  port     : List CmdWord
deriving DecidableEq, Repr

/-- Who reaches the memory (rule R46). -/
inductive Agent where
  /-- The engine at this position among the platform's engines. -/
  | engine (n : Nat)
  /-- The host, or any agent that is no engine. -/
  | other
deriving DecidableEq, Repr

/-- One transfer on an interface (D1 of 92_eei_decisions.md): what the world outside the engines can see happen. -/
inductive Act where
  /-- Engine `n` took this word from its command port (rule R67). -/
  | command (n : Nat) (cmd : CmdWord)
  /-- The host took this response word of engine `n` (rule R69). -/
  | response (n : Nat) (word : RspWord)
  /-- The host read STATUS of engine `n` (rule R24). -/
  | status (n : Nat) (value : Word)
  /-- The host read RESULT of engine `n` (rule R24). -/
  | result (n : Nat) (value : Word)
  /-- Engine `n` was reset (rule R109). -/
  | reset (n : Nat)
  /-- An agent read this byte at this index (rule R37). -/
  | load (who : Agent) (index : Nat) (value : Byte)
  /-- An agent wrote this byte at this index (rule R37). -/
  | store (who : Agent) (index : Nat) (value : Byte)
deriving DecidableEq, Repr

/-- What happens next (rules R31, R46 and R123): which agent moves, and what it does. -/
inductive Event where
  /-- The host of engine `n` offers one more word on its command port (rule R51). -/
  | offer (n : Nat) (cmd : CmdWord)
  /-- Engine `n` takes the command on its port and runs it to its response, no other agent moving meanwhile (rule R76). -/
  | command (n : Nat)
  /-- Engine `n` makes the one fine-grained step that is enabled (rules R67, R68, R81, R89). -/
  | move (n : Nat)
  /-- The host takes the response of engine `n` (rule R69). -/
  | take (n : Nat)
  /-- The host reads STATUS of engine `n` (rule R24). -/
  | status (n : Nat)
  /-- The host reads RESULT of engine `n` (rule R24). -/
  | result (n : Nat)
  /-- The reset event of engine `n` (rule R109). -/
  | reset (n : Nat)
  /-- The host, or another agent, reads the byte at this index (rule R46). -/
  | load (index : Nat)
  /-- The host, or another agent, writes the byte at this index (rule R46). -/
  | store (index : Nat) (value : Byte)
deriving DecidableEq, Repr

/-- MEM (rule R28): its size MEM_BYTES (rule R7) and the bytes that differ from `Config.unlistedByte`, by rising index. -/
structure Memory where
  /-- MEM_BYTES. -/
  size  : Nat
  /-- The listed bytes. -/
  cells : List Host.Cell
deriving DecidableEq, Repr

/-- Why a step can stop. -/
inductive Fault where
  /-- An engine's next access is at an index at or above MEM_BYTES. Raised by a chunk step and by a command's atomic run.
  Rule R43 gives that access no step: the engine is stuck in phase RUN. Safe: the machine stops there (log entry 7). A
  reset of that engine, and a move of any other agent, is an event of its own and still possible. -/
  | beyondMemory
  /-- The host, or another agent, accesses an index at or above MEM_BYTES, which rule R32 says does not exist. Safe (log
  entry 14). -/
  | noSuchByte
  /-- An event names an engine the platform does not have (rule R106). Safe (log entry 14). -/
  | noSuchEngine
deriving DecidableEq, Repr

/-- Why a step can be refused. -/
inductive Refusal where
  /-- An instruction that has no meaning yet. No arm of `exec` answers so: every row of the table is modelled. Safe. -/
  | notModelled (mnemonic : String)
deriving DecidableEq, Repr

/-- The machine. One engine stands in front (`eng`, the one whose turn it is); `before` and `after` are the rest, so that
`before ++ eng :: after` are the engines of the platform in order (rule R106: N_ENGINES, at least one; log entry 19). -/
structure State where
  /-- The engines at lower positions. -/
  before : List Engine
  /-- The engine that the current event is about. -/
  eng    : Engine
  /-- The engines at higher positions. -/
  after  : List Engine
  /-- The memory every agent shares (rule R28). -/
  mem    : Memory
  /-- The model's own: the events to come, the next one first (rule R31; log entry 6). -/
  inputs : List Event
  /-- The model's own: the transfers that have happened, the newest first (log entry 13). -/
  trace  : List Act
  /-- The model's own: how many free values have been drawn (log entry 5). -/
  free   : Nat
deriving DecidableEq, Repr

/-- The working registers after reset. The spec gives no values (rule R30): zero is the model's choice (log entry 4). -/
def Work.reset : Work :=
  { op := .extract, pos := 0, rem := 0, acc := 0, val := 0, len := 0, step := .read, byte := 0 }

/-- The response registers after reset. The spec gives no values (rule R30): zero is the model's choice (log entry 4). -/
def Rsp.reset : Rsp := { code := 0, result := 0 }

/-- An engine after reset, nothing offered on its port (rule R30). -/
def Engine.reset : Engine :=
  { err := false, lastCode := 0, result := 0, phase := .idle, work := Work.reset, rsp := Rsp.reset, port := [] }

/-- The machine right after reset (rules R30 and R109): one engine (log entry 2), memory with nothing listed. -/
def State.reset : State :=
  { before := [], eng := Engine.reset, after := [], mem := { size := Config.resetMemBytes, cells := [] },
    inputs := [], trace := [], free := 0 }

end Sys2Proof.Machine
end

