-- ==== Sys2Proof/Machine/Flags.lean ====
section
/-! DEFINITION. The status bits: the code of rule R90, the STATUS word of rule R19 and the response word of rule R57. The
engine has no arithmetic flags (rule R18). -/

namespace Sys2Proof.Machine

/-- The number of a status code (rule R90). -/
def codeBits : Code → CodeBits
  | .ok => 0
  | .illegalOp => 1
  | .rsvd => 2
  | .badCount => 3
  | .range => 4

/-- STATUS.BUSY: 1 exactly when the phase is not IDLE (rule R20). -/
def Engine.busy (e : Engine) : Bool := e.phase != .idle

/-- The STATUS word as the host reads it (rule R19): BUSY bit 0, ERR bit 1, LAST_CODE bits 7:4, the rest hardwired 0. -/
def Engine.status (e : Engine) : Word :=
  (0 : BitVec 24) ++ e.lastCode ++ (0 : BitVec 2) ++ BitVec.ofBool e.err ++ BitVec.ofBool e.busy

/-- The response word (rules R57 and R69): `rsp_result | (rsp_code << 32)`. -/
def Rsp.word (r : Rsp) : RspWord := (0 : BitVec 28) ++ r.code ++ r.result

/-- STATUS.ERR after a command ends with this code (rules R21 and R68): set by a non-zero code, else unchanged. -/
def errAfter (err : Bool) (code : Code) : Bool := err || code != .ok

end Sys2Proof.Machine
end

