-- ==== Sys2Proof/Machine/Operands.lean ====
section
/-! DEFINITION. Operand forms: the value mask (R83), the chunk geometry (R70) and the two ways a chunk is used (R77, R82).
All arithmetic is on natural numbers, as rule R10 says, and narrowed once at the end. -/

namespace Sys2Proof.Machine

/-- `mask(k)`: the k ones at the low end (rule R10). -/
def mask (k : Nat) : Nat := 2 ^ k - 1

/-- `VALUE & mask(COUNT)` (rules R67 and R83). -/
def maskedValue (value : Word) (count : Count) : Word := value &&& BitVec.ofNat 32 (mask count.toNat)

/-- `idx`: the byte index of the chunk at `pos` (rule R70). -/
def chunkIdx (pos : Nat) : Nat := pos / 8

/-- `left`: the bits left in that byte (rule R70). -/
def chunkLeft (pos : Nat) : Nat := 8 - pos % 8

/-- `k`: the chunk size (rule R70). -/
def chunkSize (pos rem : Nat) : Nat := min (chunkLeft pos) rem

/-- `sh`: the right shift that brings the chunk to bit 0 (rule R70). -/
def chunkShift (pos rem : Nat) : Nat := chunkLeft pos - chunkSize pos rem

/-- `m8`: the mask of the chunk's bits in the byte (rule R70). -/
def chunkMask (pos rem : Nat) : Byte := BitVec.ofNat 8 (mask (chunkSize pos rem) <<< chunkShift pos rem)

/-- The chunk of EXTRACT: `(b >> sh) & mask(k)` (rule R77). -/
def chunkOfByte (pos rem : Nat) (b : Byte) : Nat := (b.toNat >>> chunkShift pos rem) &&& mask (chunkSize pos rem)

/-- The chunk of INJECT: the most significant unconsumed k bits of `val` (rule R82). -/
def chunkOfValue (pos rem : Nat) (val : Word) : Nat := (val.toNat >>> (rem - chunkSize pos rem)) &&& mask (chunkSize pos rem)

/-- The byte INJECT writes back: `(b & ~m8) | (chunk << sh)` (rule R82). -/
def mergedByte (pos rem : Nat) (val : Word) (b : Byte) : Byte :=
  (b &&& ~~~ chunkMask pos rem) ||| BitVec.ofNat 8 (chunkOfValue pos rem val <<< chunkShift pos rem)

/-- `(acc << k) | chunk` (rule R77). -/
def accumulated (pos rem : Nat) (acc : Word) (b : Byte) : Word :=
  BitVec.ofNat 32 ((acc.toNat <<< chunkSize pos rem) ||| chunkOfByte pos rem b)

/-- The registers after a chunk: `pos <- pos + k; rem <- rem - k` (rule R71). -/
def Work.advance (w : Work) : Work :=
  let k := chunkSize w.pos.toNat w.rem.toNat
  { w with pos := BitVec.ofNat 33 (w.pos.toNat + k), rem := BitVec.ofNat 6 (w.rem.toNat - k) }

/-- The byte index of the next chunk (rule R70). -/
def Work.idx (w : Work) : Nat := chunkIdx w.pos.toNat

end Sys2Proof.Machine
end

