-- ==== Sys2Proof/Machine/Ops.lean ====
section
/-! DEFINITION. The shared operations: reading and writing one byte of memory, the transfers on the ports, entering RESP
(and so taking a fault) and leaving it, reset, and bringing an engine to the front. -/

namespace Sys2Proof.Machine

/-! ## Memory: one byte (rules R28, R32, R37) -/

/-- The byte at an index of a list of cells. -/
def readCells : List Host.Cell → Nat → Byte
  | [], _ => Config.unlistedByte
  | (j, b) :: rest, i => if j = i then b else readCells rest i

/-- The list of cells with one byte changed, kept in canonical form. -/
def writeCells : List Host.Cell → Nat → Byte → List Host.Cell
  | [], i, v => if v = Config.unlistedByte then [] else [(i, v)]
  | (j, b) :: rest, i, v =>
    if i < j then
      if v = Config.unlistedByte then (j, b) :: rest else (i, v) :: (j, b) :: rest
    else if i = j then
      if v = Config.unlistedByte then rest else (i, v) :: rest
    else (j, b) :: writeCells rest i v

/-- The byte at an index, whoever reads it. -/
def Memory.read (m : Memory) (i : Nat) : Byte := readCells m.cells i

/-- The memory with one byte changed. -/
def Memory.write (m : Memory) (i : Nat) (v : Byte) : Memory := { m with cells := writeCells m.cells i v }

/-- The canonical form of a list of cells: indices rising from `lo`, below `size`, and no byte that is the unlisted one. -/
def cellsWf (size : Nat) : Nat → List Host.Cell → Bool
  | _, [] => true
  | lo, (i, b) :: rest => decide (lo ≤ i) && decide (i < size) && b != Config.unlistedByte && cellsWf size (i + 1) rest

/-- The memory is in canonical form and its size is one rule R7 allows. -/
def Memory.wf (m : Memory) : Bool :=
  decide (1 ≤ m.size) && decide (m.size ≤ Config.memBytesMax) && cellsWf m.size 0 m.cells

/-! ## The state's parts -/

/-- The state with the engine in front replaced. -/
def State.setEng (s : State) (e : Engine) : State := { s with eng := e }

/-- The state with one more transfer recorded. -/
def State.record (s : State) (a : Act) : State := { s with trace := a :: s.trace }

/-- The position of the engine in front among the platform's engines. -/
def State.self (s : State) : Nat := s.before.length

/-- The engines of the platform in order (rule R106). -/
def State.engines (s : State) : List Engine := s.before ++ s.eng :: s.after

/-- The state with the engine at position `n` in front; none where the platform has no such engine. -/
def State.focus (n : Nat) (s : State) : Option State :=
  match s.engines.drop n with
  | [] => none
  | e :: rest => some { s with before := s.engines.take n, eng := e, after := rest }

/-! ## The memory port (rules R11, R37) -/

/-- `MemRead(i, 1)`: none where the memory has no such byte (rule R43). -/
def memRead (who : Agent) (i : Nat) (s : State) : Option (Byte × State) :=
  if i < s.mem.size then some (s.mem.read i, s.record (.load who i (s.mem.read i))) else none

/-- `MemWrite(i, 1, v)`: none where the memory has no such byte (rule R43). -/
def memWrite (who : Agent) (i : Nat) (v : Byte) (s : State) : Option State :=
  if i < s.mem.size then some { s with mem := s.mem.write i v, trace := .store who i v :: s.trace } else none

/-! ## Unspecified values (rules R26, R27; log entry 5) -/

/-- Working registers of unspecified value: the draws from number `n` on. -/
def Work.unspecified (n : Nat) : Work :=
  { op := if Config.freeValue n 1 = 0 then .extract else .inject
    pos := Config.freeValue (n + 1) 33
    rem := Config.freeValue (n + 2) 6
    acc := Config.freeValue (n + 3) 32
    val := Config.freeValue (n + 4) 32
    len := Config.freeValue (n + 5) 32
    step := if Config.freeValue (n + 6) 1 = 0 then .read else .write
    byte := Config.freeValue (n + 7) 8 }

/-- Response registers of unspecified value: the draws from number `n` on. -/
def Rsp.unspecified (n : Nat) : Rsp := { code := Config.freeValue n 4, result := Config.freeValue (n + 1) 32 }

/-- The engine in front leaves phase RUN: its working registers become unspecified (rule R26). -/
def State.forgetWork (s : State) : State :=
  { s with eng := { s.eng with work := Work.unspecified s.free }, free := s.free + 8 }

/-- The engine in front leaves phase RESP: its response registers become unspecified (rule R27). -/
def State.forgetRsp (s : State) : State :=
  { s with eng := { s.eng with rsp := Rsp.unspecified s.free }, free := s.free + 2 }

/-! ## The command lifecycle (rules R67 to R69) -/

/-- The engine in front takes the word `cmd` from its command port, which then offers `rest` (rules R67 and R114). -/
def takeWord (cmd : CmdWord) (rest : List CmdWord) (s : State) : State :=
  (s.setEng { s.eng with port := rest }).record (.command s.self cmd)

/-- ACCEPT of a legal command (rule R67): every working register set but `byte`, which is unspecified (rule R26). -/
def startRun (op : Op) (offset : Word) (count : Count) (val : Word) (len : Word) (s : State) : State :=
  { s with
    eng := { s.eng with
      phase := .run
      work := { op := op, pos := offset.setWidth 33, rem := count, acc := 0, val := val, len := len, step := .read,
                byte := Config.freeValue s.free 8 } }
    free := s.free + 1 }

/-- `enter_resp(code, result)` (rule R68): the only writer of STATUS.LAST_CODE, STATUS.ERR and RESULT. -/
def enterResp (code : Code) (result : Word) (s : State) : State :=
  s.setEng { s.eng with
    rsp := { code := codeBits code, result := result }
    lastCode := codeBits code
    result := result
    err := errAfter s.eng.err code
    phase := .resp }

/-- TAKING A FAULT (rules R11 and R95): `enter_resp(code, 0)`, with no memory access. -/
def raiseFault (code : Code) (s : State) : State := enterResp code 0 s

/-- FINISH (rule R68): the response of the command that has run, and the working registers are unspecified after it. -/
def finish (s : State) : State :=
  (enterResp .ok (match s.eng.work.op with | .extract => s.eng.work.acc | .inject => 0) s).forgetWork

/-- DELIVER (rule R69), the return from a command or a fault: the host takes the response word and the engine is IDLE. -/
def deliver (s : State) : State :=
  ((s.setEng { s.eng with phase := .idle }).record (.response s.self s.eng.rsp.word)).forgetRsp

/-- The reset event of the engine in front (rules R30 and R109): STATUS, RESULT and phase as after reset, a held response
discarded, the other registers unspecified. The words the host still offers stay offered (log entry 9). -/
def resetEngine (s : State) : State :=
  ((s.setEng { s.eng with err := false, lastCode := 0, result := 0, phase := .idle }).record
    (.reset s.self)).forgetWork.forgetRsp

end Sys2Proof.Machine
end

