-- ==== Sys2Proof/Machine/Extract.lean ====
section
/-! DEFINITION. EXTRACT (41_extract.md): its chunk step, its chunk loop, and its meaning. -/

namespace Sys2Proof.Machine

/-- ACCEPT of a legal EXTRACT (rule R67). -/
def startExtract (offset : Word) (count : Count) (len : Word) (s : State) : State :=
  startRun .extract offset count 0 len s

/-- One EXTRACT chunk (rules R77 and R81): one MemRead, then `acc`, `pos` and `rem`. None where the index is not below
MEM_BYTES: the step is not enabled (rule R43). -/
def extractChunk (s : State) : Option State :=
  let w := s.eng.work
  match memRead (.engine s.self) w.idx s with
  | none => none
  | some (b, t) =>
    some (t.setEng { t.eng with work := { w.advance with acc := accumulated w.pos.toNat w.rem.toNat w.acc b } })

/-- The chunk loop of EXTRACT (rule R77: while rem > 0). `rem` falls with every chunk (rule R71), so a `fuel` of the
first `rem` runs the loop to its end. -/
def extractLoop : Nat → State → Option State
  | 0, s => some s
  | fuel + 1, s =>
    if s.eng.work.rem = 0 then some s
    else
      match extractChunk s with
      | none => none
      | some t => extractLoop fuel t

/-- EXTRACT (rule R77), from ACCEPT to FINISH with no other agent moving meanwhile (rule R76). An engine that is not IDLE
does not take the command (rule R114; log entry 8). -/
def execExtract (offset : Word) (count : Count) (len : Word) (s : State) : Host.Outcome State Fault Refusal :=
  if s.eng.phase ≠ .idle then .next s
  else
    match operandCode offset count len with
    | .ok =>
      match extractLoop count.toNat (startExtract offset count len s) with
      | none => .fault .beyondMemory
      | some t => .next (finish t)
    | c => .next (raiseFault c s)

end Sys2Proof.Machine
end

