-- ==== Sys2Proof/Machine/Inject.lean ====
section
/-! DEFINITION. INJECT (42_inject.md): its READ and WRITE steps, its chunk loop, and its meaning. -/

namespace Sys2Proof.Machine

/-- ACCEPT of a legal INJECT (rule R67): `val <- VALUE & mask(COUNT)`. -/
def startInject (offset : Word) (count : Count) (value : Word) (len : Word) (s : State) : State :=
  startRun .inject offset count (maskedValue value count) len s

/-- The READ step of an INJECT chunk (rule R89). None where the index is not below MEM_BYTES (rule R43). -/
def injectRead (s : State) : Option State :=
  match memRead (.engine s.self) s.eng.work.idx s with
  | none => none
  | some (b, t) => some (t.setEng { t.eng with work := { t.eng.work with byte := b, step := .write } })

/-- The WRITE step of an INJECT chunk (rule R89). None where the index is not below MEM_BYTES (rule R37). -/
def injectWrite (s : State) : Option State :=
  let w := s.eng.work
  match memWrite (.engine s.self) w.idx (mergedByte w.pos.toNat w.rem.toNat w.val w.byte) s with
  | none => none
  | some t => some (t.setEng { t.eng with work := { w.advance with step := .read } })

/-- One whole INJECT chunk: READ, then WRITE (rules R44 and R82). -/
def injectChunk (s : State) : Option State :=
  match injectRead s with
  | none => none
  | some t => injectWrite t

/-- The chunk loop of INJECT (rule R82: while rem > 0), with `fuel` as for `extractLoop`. -/
def injectLoop : Nat → State → Option State
  | 0, s => some s
  | fuel + 1, s =>
    if s.eng.work.rem = 0 then some s
    else
      match injectChunk s with
      | none => none
      | some t => injectLoop fuel t

/-- INJECT (rule R82), from ACCEPT to FINISH with no other agent moving meanwhile (rule R76). An engine that is not IDLE
does not take the command (rule R114; log entry 8). -/
def execInject (offset : Word) (count : Count) (value : Word) (len : Word) (s : State) :
    Host.Outcome State Fault Refusal :=
  if s.eng.phase ≠ .idle then .next s
  else
    match operandCode offset count len with
    | .ok =>
      match injectLoop count.toNat (startInject offset count value len s) with
      | none => .fault .beyondMemory
      | some t => .next (finish t)
    | c => .next (raiseFault c s)

end Sys2Proof.Machine
end

