-- ==== Sys2Proof/Machine/Dispatch.lean ====
section
/-! DEFINITION. The meaning of every command: one arm per constructor of Instr. -/

namespace Sys2Proof.Machine

/-- The whole command, run by the engine in front from ACCEPT to FINISH (rule R76). -/
def exec (i : Instr) (s : State) : Host.Outcome State Fault Refusal :=
  match i with
  | .extract offset count len => Sys2Proof.Machine.execExtract offset count len s
  | .inject offset count value len => Sys2Proof.Machine.execInject offset count value len s

end Sys2Proof.Machine
end

