-- ==== Sys2Proof/Machine/Events.lean ====
section
/-! DEFINITION. What each event does: a move of an engine (fine-grained or a whole command), of its host, or of another
agent. All agents' moves form one order, the order of the events (rule R46). -/

namespace Sys2Proof.Machine

/-- ACCEPT (rule R67) of the word `cmd`: into RUN for a legal command, into RESP with the code of rule R58 else. -/
def accept (cmd : CmdWord) (s : State) : State :=
  match decode cmd with
  | .error c => raiseFault c s
  | .ok (.extract offset count len) => startExtract offset count len s
  | .ok (.inject offset count value len) => startInject offset count value len s

/-- The outcome of a chunk step: the next state, or the engine is stuck (rule R43). -/
def orStuck : Option State → Host.Outcome State Fault Refusal
  | none => .fault .beyondMemory
  | some t => .next t

/-- The chunk step that is enabled in phase RUN with rem > 0 (rules R81 and R89). -/
def chunkMove (s : State) : Host.Outcome State Fault Refusal :=
  match s.eng.work.op, s.eng.work.step with
  | .extract, _ => orStuck (extractChunk s)
  | .inject, .read => orStuck (injectRead s)
  | .inject, .write => orStuck (injectWrite s)

/-- The fine-grained step of the engine in front: ACCEPT, a chunk step or FINISH. With no command offered it waits
(rule R108), and in RESP it holds the response until the host takes it (rule R69). -/
def moveEngine (s : State) : Host.Outcome State Fault Refusal :=
  match s.eng.phase with
  | .idle =>
    match s.eng.port with
    | [] => .next s
    | cmd :: rest => .next (accept cmd (takeWord cmd rest s))
  | .run => if s.eng.work.rem = 0 then .next (finish s) else chunkMove s
  | .resp => .next s

/-- A whole command as one step (rule R76): the engine in front takes the word on its port, and runs it with `exec` where it
is a row of the opcode table. In any other case this is the engine's fine-grained step (log entry 8). -/
def runCommand (s : State) : Host.Outcome State Fault Refusal :=
  match s.eng.phase, s.eng.port with
  | .idle, cmd :: rest =>
    match decodeWord cmd with
    | .error c => .next (raiseFault c (takeWord cmd rest s))
    | .ok i => exec i (takeWord cmd rest s)
  | _, _ => moveEngine s

/-- The host takes the response, where there is one (rule R69). -/
def takeResponse (s : State) : State :=
  match s.eng.phase with
  | .resp => deliver s
  | _ => s

/-- What `f` does with the engine at position `n` in front. -/
def atEngine (n : Nat) (s : State) (f : State → Host.Outcome State Fault Refusal) : Host.Outcome State Fault Refusal :=
  match s.focus n with
  | none => .fault .noSuchEngine
  | some t => f t

/-- What an event does (rules R46 and R123). -/
def perform (ev : Event) (s : State) : Host.Outcome State Fault Refusal :=
  match ev with
  | .offer n cmd => atEngine n s fun t => .next (t.setEng { t.eng with port := t.eng.port ++ [cmd] })
  | .command n => atEngine n s runCommand
  | .move n => atEngine n s moveEngine
  | .take n => atEngine n s fun t => .next (takeResponse t)
  | .status n => atEngine n s fun t => .next (t.record (.status n t.eng.status))
  | .result n => atEngine n s fun t => .next (t.record (.result n t.eng.result))
  | .reset n => atEngine n s fun t => .next (resetEngine t)
  | .load i =>
    match memRead .other i s with
    | none => .fault .noSuchByte
    | some (_, t) => .next t
  | .store i v =>
    match memWrite .other i v s with
    | none => .fault .noSuchByte
    | some t => .next t

/-- The next event, if there is one; with none nobody moves, and waiting changes nothing (rule R108). -/
def nextEvent (s : State) : Host.Outcome State Fault Refusal :=
  match s.inputs with
  | [] => .next s
  | ev :: rest => perform ev { s with inputs := rest }

/-- The engine in front IDLE with this word at the head of its command port, and told to run it next. -/
def offerNext (cmd : CmdWord) (s : State) : State :=
  { s with eng := { s.eng with phase := .idle, port := cmd :: s.eng.port }, inputs := .command s.self :: s.inputs }

end Sys2Proof.Machine
end

