-- ==== Sys2Proof/Machine/Step.lean ====
section
/-! DEFINITION. One step of the machine: the next event. -/

namespace Sys2Proof.Machine

/-- One step: the next of the events to come (rules R31 and R46). -/
def step (s : State) : Host.Outcome State Fault Refusal := nextEvent s

/-- The state whose very next step takes this word from the command port and runs it (rules R50 and R51: the engine
fetches nothing from memory; log entry 1). -/
def State.withFetchWord (s : State) (nbits w : Nat) : State := offerNext (BitVec.ofNat 128 (w % 2 ^ nbits)) s

end Sys2Proof.Machine
end

