-- ==== Sys2Proof/Machine/Assembler.lean ====
section
/-! DEFINITION. The assembler of rules R62 to R64: from a line of text to a command word. It is the host's tool, and no step of
the machine uses it (D21 of 92_eei_decisions.md). -/

namespace Sys2Proof.Machine

/-- A line that holds a command, its operands as the numbers written (rule R62). -/
inductive AsmLine where
  | extract (offset count len : Nat)
  | inject (offset count value len : Nat)
deriving DecidableEq, Repr

/-- Why the assembler rejects a line (rule R62). -/
inductive AsmError where
  /-- Not EXTRACT or INJECT (rule R64: no pseudo-instruction, no alias). -/
  | unknownMnemonic
  /-- The number of operands is not the mnemonic's. -/
  | operandCount
  /-- An operand is no unsigned decimal or hexadecimal integer. -/
  | notANumber
  /-- An operand does not fit its field. -/
  | doesNotFit
deriving DecidableEq, Repr

/-- The command word of a line (rule R63), or none where an operand does not fit its field (rule R62). A count outside
1..32 and a range the engine will refuse are encoded. -/
def encodeLine : AsmLine → Option CmdWord
  | .extract o c l =>
    if o < 2 ^ 32 ∧ c < 2 ^ 6 ∧ l < 2 ^ 32 then
      some (cmdOfWords (BitVec.ofNat 32 (c <<< 8)) 0 (BitVec.ofNat 32 o) (BitVec.ofNat 32 l))
    else none
  | .inject o c v l =>
    if o < 2 ^ 32 ∧ c < 2 ^ 6 ∧ v < 2 ^ 32 ∧ l < 2 ^ 32 then
      some (cmdOfWords (BitVec.ofNat 32 (c <<< 8 ||| 1)) (BitVec.ofNat 32 v) (BitVec.ofNat 32 o) (BitVec.ofNat 32 l))
    else none

/-- Space between the parts of a line (log entry 12). -/
def isBlank (c : Char) : Bool := c == ' ' || c == '\t'

/-- A list of characters without the blanks at its two ends. -/
def trim (l : List Char) : List Char := ((l.dropWhile isBlank).reverse.dropWhile isBlank).reverse

/-- A list of characters cut at its commas. -/
def cutAtCommas : List Char → List (List Char)
  | [] => [[]]
  | c :: rest =>
    if c = ',' then [] :: cutAtCommas rest
    else
      match cutAtCommas rest with
      | [] => [[c]]
      | part :: parts => (c :: part) :: parts

/-- The value of a digit in base 10 or 16, either case of a letter (log entry 12). -/
def digitValue (base : Nat) (c : Char) : Option Nat :=
  let n := c.toNat
  let v := if 48 ≤ n ∧ n ≤ 57 then n - 48
    else if 97 ≤ n ∧ n ≤ 102 then n - 87
    else if 65 ≤ n ∧ n ≤ 70 then n - 55
    else 16
  if v < base then some v else none

/-- The number some digits write, most significant first, after `acc`. -/
def digitsValue (base : Nat) : Nat → List Char → Option Nat
  | acc, [] => some acc
  | acc, c :: rest =>
    match digitValue base c with
    | none => none
    | some d => digitsValue base (acc * base + d) rest

/-- An unsigned integer, in decimal or with a `0x` prefix in hexadecimal (rule R62). -/
def parseNumber : List Char → Option Nat
  | '0' :: 'x' :: c :: rest => digitsValue 16 0 (c :: rest)
  | c :: rest => digitsValue 10 0 (c :: rest)
  | [] => none

/-- Every operand of a list, or none. -/
def parseOperands : List (List Char) → Option (List Nat)
  | [] => some []
  | p :: rest =>
    match parseNumber (trim p), parseOperands rest with
    | some n, some ns => some (n :: ns)
    | _, _ => none

/-- One line of assembly (rule R62): no command on a blank or comment line. Mnemonics are case-insensitive. -/
def parseLine (line : List Char) : Except AsmError (Option AsmLine) :=
  let text := trim (line.takeWhile (· != ';'))
  let name := (text.takeWhile fun c => !isBlank c).map Char.toUpper
  let tail := text.dropWhile fun c => !isBlank c
  if text = [] then .ok none
  else if name = ['E', 'X', 'T', 'R', 'A', 'C', 'T'] then
    match parseOperands (cutAtCommas tail) with
    | none => .error .notANumber
    | some [o, c, l] => .ok (some (.extract o c l))
    | some _ => .error .operandCount
  else if name = ['I', 'N', 'J', 'E', 'C', 'T'] then
    match parseOperands (cutAtCommas tail) with
    | none => .error .notANumber
    | some [o, c, v, l] => .ok (some (.inject o c v l))
    | some _ => .error .operandCount
  else .error .unknownMnemonic

/-- A line of text to its command word (rules R62 and R63). -/
def assemble (line : List Char) : Except AsmError (Option CmdWord) :=
  match parseLine line with
  | .error e => .error e
  | .ok none => .ok none
  | .ok (some l) =>
    match encodeLine l with
    | none => .error .doesNotFit
    | some cmd => .ok (some cmd)

end Sys2Proof.Machine
end

