-- ==== Sys2Proof/Safety.lean ====
section
/-! DEFINITION. The terms claims use: runs of several steps, the bit string of the buffer and the closed forms of rules R76
and R78, the byte span (R74), the invariant of the state, what is specified of its registers, and what the record of transfers has to satisfy (R46, R57). -/

namespace Sys2Proof.Machine

/-! ## Runs -/

/-- `k` steps, stopping at the first that does not answer a next state. -/
def steps : Nat → State → Host.Outcome State Fault Refusal
  | 0, s => .next s
  | k + 1, s =>
    match step s with
    | .next t => steps k t
    | .fault r => .fault r
    | .refused r => .refused r

/-- Commands run one after another by the engine in front, the host taking each response (rule R45). -/
def serve : List Instr → State → Host.Outcome State Fault Refusal
  | [], s => .next s
  | i :: rest, s =>
    match exec i s with
    | .next t => serve rest (deliver t)
    | .fault r => .fault r
    | .refused r => .refused r

/-- What has been recorded since the state `s`, the newest first. -/
def since (s t : State) : List Act := t.trace.take (t.trace.length - s.trace.length)

/-- The responses of engine `n` in a record. -/
def responses (n : Nat) (acts : List Act) : List Act :=
  acts.filter fun a =>
    match a with
    | .response m _ => m == n
    | _ => false

/-- Whether the last command that engine `n` took has had its response delivered, so that it has ended (rule R113). A
command that a reset abandoned, or whose response a reset discarded, never has. True where the record shows no command of the engine (log entry 20). -/
def lastAnswered (n : Nat) : List Act → Bool
  | [] => true
  | a :: earlier =>
    match a with
    | .command m _ => if m = n then false else lastAnswered n earlier
    | .response m _ => if m = n then true else lastAnswered n earlier
    | _ => lastAnswered n earlier

/-- Whether the host of engine `n` offers no more words among these events to come. -/
def noOffer (n : Nat) (events : List Event) : Bool :=
  events.all fun ev =>
    match ev with
    | .offer m _ => m != n
    | _ => true

/-- The end of a run of engine `n` (rule R113): its host has no command left to offer or to be taken, the response to the
last one taken has been delivered, and the engine is IDLE. -/
def ended (n : Nat) (s : State) : Bool :=
  match s.engines[n]? with
  | none => false
  | some e => e.phase == .idle && e.port.isEmpty && noOffer n s.inputs && lastAnswered n s.trace

/-- The engine an event is about. -/
def Event.engine? : Event → Option Nat
  | .offer n _ => some n
  | .command n => some n
  | .move n => some n
  | .take n => some n
  | .status n => some n
  | .result n => some n
  | .reset n => some n
  | .load _ => none
  | .store _ _ => none

/-! ## The buffer as a bit string (rules R8, R76, R78) -/

/-- `bitAt(M, p)` (rule R76): the buffer bit at offset `p`. -/
def bitAt (m : Memory) (p : Nat) : Nat := ((m.read (p / 8)).toNat >>> (7 - p % 8)) &&& 1

/-- `Extract(M, o, n)` (rule R78): the field of `n` bits at offset `o`, its first bit the most significant. -/
def fieldValue (m : Memory) (o n : Nat) : Nat := ((List.range n).map fun i => bitAt m (o + i) <<< (n - 1 - i)).sum

/-- The first byte index of the span (rule R74). -/
def spanFirst (o : Nat) : Nat := o / 8

/-- The last byte index of the span (rule R74). -/
def spanLast (o n : Nat) : Nat := (o + n - 1) / 8

/-- The number of chunks (rule R72). -/
def chunkCount (o n : Nat) : Nat := (o + n - 1) / 8 - o / 8 + 1

/-- The code of rule R90 for a command word read as one number, the first failing check of rule R58; `ok` where all pass. -/
def firstFailing (x : Nat) : Code :=
  if 2 ≤ x % 4 then .illegalOp
  else if x / 4 % 64 ≠ 0 ∨ x / 2 ^ 14 % 2 ^ 18 ≠ 0 then .rsvd
  else if x / 2 ^ 8 % 64 = 0 ∨ 32 < x / 2 ^ 8 % 64 then .badCount
  else if x / 2 ^ 96 * 8 < x / 2 ^ 64 % 2 ^ 32 + x / 2 ^ 8 % 64 then .range
  else .ok

/-- The fine-grained engine steps of a command word up to its response (rule R121, without DELIVER). -/
def moveCount (cmd : CmdWord) : Nat :=
  match decode cmd with
  | .error _ => 1
  | .ok (.extract o n _) => chunkCount o.toNat n.toNat + 2
  | .ok (.inject o n _ _) => 2 * chunkCount o.toNat n.toNat + 2

/-- Every byte of a command's span is in memory (the host's duty of rule R119). -/
def spanInMemory (m : Memory) : Instr → Bool
  | .extract o n _ => decide (spanLast o.toNat n.toNat < m.size)
  | .inject o n _ _ => decide (spanLast o.toNat n.toNat < m.size)

/-! ## The invariant -/

/-- What holds of the working registers in phase RUN: the rest of the field lies in the buffer (R94), `acc` has no more bits
than have been read (R77), a register the command does not use is as ACCEPT set it (R67), and a byte waits to be written only
where it has been read (R89). -/
abbrev Work.Inv (size : Nat) (w : Work) : Prop :=
  w.rem.toNat ≤ 32 ∧
  w.pos.toNat + w.rem.toNat ≤ w.len.toNat * 8 ∧
  w.pos.toNat + w.rem.toNat ≤ 2 ^ 32 - 1 + 32 ∧
  w.acc.toNat < 2 ^ (32 - w.rem.toNat) ∧
  (w.op = .extract → w.val = 0 ∧ w.step = .read) ∧
  (w.op = .inject → w.acc = 0) ∧
  (w.step = .write → w.rem ≠ 0 ∧ w.idx < size)

/-- What holds of an engine: LAST_CODE is one of 0 to 4 (R22), a code other than 0 is there with ERR set and RESULT 0 (R95),
and the response held is the one STATUS and RESULT show (R68). -/
abbrev Engine.Inv (size : Nat) (e : Engine) : Prop :=
  e.lastCode.toNat ≤ 4 ∧
  (e.lastCode ≠ 0 → e.err = true ∧ e.result = 0) ∧
  (e.phase = .resp → e.rsp.code = e.lastCode ∧ e.rsp.result = e.result) ∧
  (e.phase = .run → e.work.Inv size)

/-- The invariant of the machine. -/
abbrev State.Inv (s : State) : Prop := s.mem.wf = true ∧ ∀ e ∈ s.engines, e.Inv s.mem.size

/-! ## What is specified of the registers (rules R26, R27; U6 of 93_implementation_defined.md) -/

/-- The engine with the registers whose value the spec leaves unspecified there all made the same. -/
def Engine.visible (e : Engine) : Engine :=
  { e with
    work :=
      match e.phase, e.work.step with
      | .run, .read => { e.work with byte := 0 }
      | .run, .write => e.work
      | _, _ => Work.reset
    rsp :=
      match e.phase with
      | .resp => e.rsp
      | _ => Rsp.reset }

/-- The machine with only what the spec specifies of each engine. -/
def State.visible (s : State) : State :=
  { s with before := s.before.map Engine.visible, eng := s.eng.visible, after := s.after.map Engine.visible }

/-! ## What the record of transfers says -/

/-- The memory after the stores of a record, from the memory `m` before them; none where a load did not return the byte
that was there (rule R46). -/
def replay (m : Memory) : List Act → Option Memory
  | [] => some m
  | a :: earlier =>
    match replay m earlier with
    | none => none
    | some now =>
      match a with
      | .load _ i b => if now.read i = b then some now else none
      | .store _ i v => some (now.write i v)
      | _ => some now

/-- Whether engine `n` has a command that no response has answered and no reset has ended (R109, R110); none where its transfers break the protocol: a command
taken before the last response (R45), a response without a command (R57), a memory access outside a command. -/
def outstanding (n : Nat) : List Act → Option Bool
  | [] => some false
  | a :: earlier =>
    let before := outstanding n earlier
    match a with
    | .command m _ => if m = n then (if before = some false then some true else none) else before
    | .response m _ => if m = n then (if before = some true then some false else none) else before
    | .reset m => if m = n then before.map fun _ => false else before
    | .load (.engine m) _ _ => if m = n ∧ before ≠ some true then none else before
    | .store (.engine m) _ _ => if m = n ∧ before ≠ some true then none else before
    | _ => before

/-- The loads of an EXTRACT over `n` bytes from index `b`, the newest first (rule R39). -/
def loadsFrom (who : Agent) (m : Memory) (b : Nat) : Nat → List Act
  | 0 => []
  | n + 1 => .load who (b + n) (m.read (b + n)) :: loadsFrom who m b n

/-- The loads and stores of an INJECT over `n` bytes from index `b`, from the memory before and after it, the newest
first: each store after its own load (rules R39 and R44). -/
def loadsAndStoresFrom (who : Agent) (m after : Memory) (b : Nat) : Nat → List Act
  | 0 => []
  | n + 1 =>
    .store who (b + n) (after.read (b + n)) :: .load who (b + n) (m.read (b + n)) ::
      loadsAndStoresFrom who m after b n

/-- No agent but engine `n` wrote a byte of the span `[lo, hi]`, and engine `n` was neither reset nor its response taken
(the host's duties of rules R116, R117 and R123). -/
def exclusive (n lo hi : Nat) (acts : List Act) : Bool :=
  acts.all fun a =>
    match a with
    | .store who i _ => decide (who = .engine n) || decide (i < lo) || decide (hi < i)
    | .reset m => decide (m ≠ n)
    | .response m _ => decide (m ≠ n)
    | _ => true

end Sys2Proof.Machine
end

