-- ==== Sys2Proof/Certificates/Slice0/Obligations.lean ====
section
/-! DEFINITION. The statements for the provers. -/

open Sys2Proof Sys2Proof.Machine

/-! ## Encoding -/

/-- Every command comes back from its own word; the whole decode of rule R58 gives it back where it is legal, and the
code of its failing operand check where it is not (rules R52, R53, R58, R63). -/
def Obligations.DecodeOfEncodeIsTheCommand : Prop :=
  ∀ i : Instr, decodeWord (encode i) = .ok i ∧
    (i.wellFormed = true → decode (encode i) = .ok i) ∧
    (i.wellFormed = false →
      decode (encode i) = .error i.operandCode ∧ (i.operandCode = .badCount ∨ i.operandCode = .range))

/-- A word that decodes is the encoding of what it decodes to, but for EXTRACT's VALUE field (rules R59, R60). -/
def Obligations.EncodeOfDecodeIsTheWord : Prop :=
  ∀ (cmd : CmdWord) (o : Word) (n : Count) (v l : Word),
    (decodeWord cmd = .ok (.inject o n v l) → encode (.inject o n v l) = cmd) ∧
    (decodeWord cmd = .ok (.extract o n l) →
      encode (.extract o n l) = cmd &&& ~~~ (0xFFFFFFFF#128 <<< 32))

/-- Rule R58: the decode of every word, written on the word read as one number. -/
def Obligations.DecodeFollowsTheCheckOrder : Prop :=
  ∀ cmd : CmdWord,
    let x := cmd.toNat
    let count := x / 2 ^ 8 % 64
    let value := x / 2 ^ 32 % 2 ^ 32
    let offset := x / 2 ^ 64 % 2 ^ 32
    let len := x / 2 ^ 96 % 2 ^ 32
    decode cmd =
      if 2 ≤ x % 4 then .error .illegalOp
      else if x / 4 % 64 ≠ 0 ∨ x / 2 ^ 14 % 2 ^ 18 ≠ 0 then .error .rsvd
      else if count = 0 ∨ 32 < count then .error .badCount
      else if len * 8 < offset + count then .error .range
      else if x % 4 = 0 then .ok (.extract (BitVec.ofNat 32 offset) (BitVec.ofNat 6 count) (BitVec.ofNat 32 len))
      else .ok (.inject (BitVec.ofNat 32 offset) (BitVec.ofNat 6 count) (BitVec.ofNat 32 value) (BitVec.ofNat 32 len))

/-- Words of the test vectors L2, L6, F1, F3, F4, F5, F9 decode as 95_test_vectors.md says. -/
def Obligations.SampleWordsDecode : Prop :=
  decode 0x00000004000000010000000000000B00#128 = .ok (.extract 1 11 4) ∧
  decode 0x000000040000000C00000BCD00000C01#128 = .ok (.inject 12 12 3021 4) ∧
  decode 0x00000004000000000000000000000802#128 = .error .illegalOp ∧
  decode 0x00000004000000000000000000000804#128 = .error .rsvd ∧
  decode 0x00000004000000000000000080000800#128 = .error .rsvd ∧
  decode 0x00000004000000000000000000000000#128 = .error .badCount ∧
  decode 0x000000040000001D0000000000000400#128 = .error .range

/-- Rule R60: two words with OP = 0b00 that differ in VALUE only decode to the same, and the assembler writes 0 there.
-/
def Obligations.ExtractIgnoresTheValueField : Prop :=
  (∀ w0 v v' o l : Word, w0.extractLsb' 0 2 = 0 →
    decodeWord (cmdOfWords w0 v o l) = decodeWord (cmdOfWords w0 v' o l) ∧
    decode (cmdOfWords w0 v o l) = decode (cmdOfWords w0 v' o l)) ∧
  (∀ (o c l : Nat) (cmd : CmdWord), encodeLine (.extract o c l) = some cmd → cmdValue cmd = 0)

/-- Rule R63, with rule R62's operand limits: the word of each line, and the command it decodes to. -/
def Obligations.AssemblerEncodesEachLine : Prop :=
  (∀ o c l : Nat, o < 2 ^ 32 → c < 64 → l < 2 ^ 32 →
    ∃ cmd, encodeLine (.extract o c l) = some cmd ∧
      cmd.toNat = c <<< 8 + o * 2 ^ 64 + l * 2 ^ 96 ∧
      decodeWord cmd = .ok (.extract (BitVec.ofNat 32 o) (BitVec.ofNat 6 c) (BitVec.ofNat 32 l))) ∧
  (∀ o c v l : Nat, o < 2 ^ 32 → c < 64 → v < 2 ^ 32 → l < 2 ^ 32 →
    ∃ cmd, encodeLine (.inject o c v l) = some cmd ∧
      cmd.toNat = (c <<< 8 ||| 1) + v * 2 ^ 32 + o * 2 ^ 64 + l * 2 ^ 96 ∧
      decodeWord cmd =
        .ok (.inject (BitVec.ofNat 32 o) (BitVec.ofNat 6 c) (BitVec.ofNat 32 v) (BitVec.ofNat 32 l))) ∧
  (∀ o c l : Nat, 2 ^ 32 ≤ o ∨ 64 ≤ c ∨ 2 ^ 32 ≤ l → encodeLine (.extract o c l) = none) ∧
  (∀ o c v l : Nat, 2 ^ 32 ≤ o ∨ 64 ≤ c ∨ 2 ^ 32 ≤ v ∨ 2 ^ 32 ≤ l → encodeLine (.inject o c v l) = none)

/-! ## Faults and the status registers -/

/-- Rules R91 to R94 and R96: ACCEPT of a word with a failing check, as a fine-grained step or as a whole command,
enters RESP with the code of the first failing check; a word with none is a legal command. -/
def Obligations.AcceptTakesTheFirstFailingCheck : Prop :=
  (∀ (s : State) (cmd : CmdWord) (ws : List CmdWord) (ev : Event) (rest : List Event),
    s.inputs = ev :: rest → (ev = .move s.self ∨ ev = .command s.self) →
    s.eng.phase = .idle → s.eng.port = cmd :: ws → firstFailing cmd.toNat ≠ .ok →
    step s = .next
      { s with
        inputs := rest
        trace := .command s.self cmd :: s.trace
        eng := { s.eng with
          port := ws
          phase := .resp
          rsp := { code := codeBits (firstFailing cmd.toNat), result := 0 }
          lastCode := codeBits (firstFailing cmd.toNat)
          result := 0
          err := true } }) ∧
  (∀ cmd : CmdWord, firstFailing cmd.toNat = .ok → ∃ i, decode cmd = .ok i)

/-- Rule R95: a faulting command reads and writes no byte, sets RESULT to 0, LAST_CODE to its code and ERR, and
changes nothing else; the response taken, the engine is IDLE with those registers kept, and takes the next word
offered as usual. -/
def Obligations.FaultIsPreciseAndEndsWithItsResponse : Prop :=
  ∀ (s : State) (cmd : CmdWord) (ws : List CmdWord) (ev : Event) (rest : List Event),
    s.inputs = ev :: .take s.self :: rest → (ev = .move s.self ∨ ev = .command s.self) →
    s.eng.phase = .idle → s.eng.port = cmd :: ws → firstFailing cmd.toNat ≠ .ok →
    ∃ t u, step s = .next t ∧ step t = .next u ∧
      t.trace = .command s.self cmd :: s.trace ∧ t.mem = s.mem ∧ t.before = s.before ∧ t.after = s.after ∧
      t.eng.result = 0 ∧ t.eng.lastCode = codeBits (firstFailing cmd.toNat) ∧ t.eng.err = true ∧
      t.eng.phase = .resp ∧ t.eng.work = s.eng.work ∧ t.eng.port = ws ∧
      (∃ word : RspWord, word.toNat = (codeBits (firstFailing cmd.toNat)).toNat * 2 ^ 32 ∧
        u.trace = .response s.self word :: t.trace) ∧
      u.mem = s.mem ∧ u.before = s.before ∧ u.after = s.after ∧ u.inputs = rest ∧
      u.eng.phase = .idle ∧ u.eng.port = ws ∧ u.eng.result = 0 ∧
      u.eng.lastCode = codeBits (firstFailing cmd.toNat) ∧ u.eng.err = true ∧
      (∀ cmd' ws', ws = cmd' :: ws' → step { u with inputs := [.move s.self] } =
        .next (accept cmd' (takeWord cmd' ws' { u with inputs := [] })))

/-- Rule R21: what a step does to STATUS.ERR of each engine. It is set where the engine enters RESP with a non-zero
code, nothing but a reset clears it, and it is unchanged else. -/
def Obligations.ErrIsStickyUntilReset : Prop :=
  ∀ (s t : State) (ev : Event) (rest : List Event) (n : Nat) (a b : Engine),
    s.inputs = ev :: rest → step s = .next t → s.engines[n]? = some a → t.engines[n]? = some b →
    (ev = .reset n → b.err = false) ∧
    (ev ≠ .reset n → a.phase ≠ .resp → b.phase = .resp → b.rsp.code ≠ 0 → b.err = true) ∧
    (ev ≠ .reset n → a.phase ≠ .resp → b.phase = .resp → b.rsp.code = 0 → b.err = a.err) ∧
    (ev ≠ .reset n → (a.phase = .resp ∨ b.phase ≠ .resp) → b.err = a.err)

/-- Rule R22, and the like for RESULT: a step that takes an engine into RESP writes LAST_CODE and RESULT from the
response registers, with a code of 0 to 4; any other step but a reset leaves them. -/
def Obligations.LastCodeAndResultFollowTheResponse : Prop :=
  ∀ (s t : State) (ev : Event) (rest : List Event) (n : Nat) (a b : Engine),
    s.inputs = ev :: rest → step s = .next t → s.engines[n]? = some a → t.engines[n]? = some b →
    (ev ≠ .reset n → a.phase ≠ .resp → b.phase = .resp →
      b.lastCode = b.rsp.code ∧ b.result = b.rsp.result ∧ b.lastCode.toNat ≤ 4) ∧
    (ev ≠ .reset n → (a.phase = .resp ∨ b.phase ≠ .resp) → b.lastCode = a.lastCode ∧ b.result = a.result)

/-- Rule R20, with the STATUS word of rule R19: BUSY is bit 0 and is 1 exactly when the phase is not IDLE, ERR is bit
1, LAST_CODE bits 7:4, and every other bit is 0. -/
def Obligations.StatusShowsBusyErrAndLastCode : Prop :=
  ∀ e : Engine, (e.status.getLsbD 0 = true ↔ e.phase ≠ .idle) ∧
    e.status.toNat = (if e.phase = .idle then 0 else 1) + (if e.err then 2 else 0) + 16 * e.lastCode.toNat

/-- The response word of rule R57: RESULT in bits 31:0, CODE in bits 35:32, the rest 0. -/
def Obligations.ResponseWordHoldsResultAndCode : Prop :=
  ∀ r : Rsp, r.word.toNat = r.result.toNat + r.code.toNat * 2 ^ 32

/-- Rule R24: the host's reading STATUS or RESULT, in any phase, gives the register's value and changes nothing. -/
def Obligations.StatusReadsHaveNoSideEffect : Prop :=
  ∀ (s : State) (n : Nat) (a : Engine) (rest : List Event), s.engines[n]? = some a →
    (s.inputs = .status n :: rest →
      ∃ t, step s = .next t ∧ t.trace = .status n a.status :: s.trace ∧
        t.engines = s.engines ∧ t.mem = s.mem ∧ t.inputs = rest ∧ t.free = s.free) ∧
    (s.inputs = .result n :: rest →
      ∃ t, step s = .next t ∧ t.trace = .result n a.result :: s.trace ∧
        t.engines = s.engines ∧ t.mem = s.mem ∧ t.inputs = rest ∧ t.free = s.free)

/-! ## EXTRACT -/

/-- Rule R78, with the registers rule R77 says are written: a legal EXTRACT of an IDLE engine, its span in memory,
completes with code 0 and the field as RESULT, and leaves ERR, the memory, the other engines and all offered words as
they were. -/
def Obligations.ExtractCompletesWithTheField : Prop :=
  ∀ (s : State) (o : Word) (n : Count) (l : Word), s.eng.phase = .idle → (Instr.extract o n l).wellFormed = true →
    spanLast o.toNat n.toNat < s.mem.size →
    ∃ t, exec (.extract o n l) s = .next t ∧
      t.eng.phase = .resp ∧
      t.eng.result.toNat = fieldValue s.mem o.toNat n.toNat ∧ t.eng.lastCode = 0 ∧ t.eng.err = s.eng.err ∧
      t.eng.rsp = { code := 0, result := t.eng.result } ∧ t.eng.port = s.eng.port ∧
      t.mem = s.mem ∧ t.before = s.before ∧ t.after = s.after ∧ t.inputs = s.inputs

/-- Rule R80: the RESULT after an EXTRACT, whether it succeeds or faults, is below 2^COUNT. -/
def Obligations.ExtractResultIsBelowTwoToTheCount : Prop :=
  ∀ (s t : State) (o : Word) (n : Count) (l : Word), s.eng.phase = .idle → exec (.extract o n l) s = .next t →
    t.eng.result.toNat < 2 ^ n.toNat

/-- Rule R79: an EXTRACT never writes memory, as a whole command and in each of its chunk steps. -/
def Obligations.ExtractNeverWritesMemory : Prop :=
  (∀ (s t : State) (o : Word) (n : Count) (l : Word), exec (.extract o n l) s = .next t → t.mem = s.mem) ∧
  (∀ (s t : State) (ev : Event) (rest : List Event), s.inputs = ev :: rest →
    (ev = .move s.self ∨ ev = .command s.self) → s.eng.phase = .run →
    s.eng.work.op = .extract → step s = .next t → t.mem = s.mem)

/-- Rule R35: a byte-aligned field of 8 to 32 bits is big-endian. -/
def Obligations.AlignedExtractIsBigEndian : Prop :=
  ∀ (s : State) (o : Word) (n : Count) (l : Word) (m : Nat), s.eng.phase = .idle →
    (Instr.extract o n l).wellFormed = true →
    o.toNat % 8 = 0 → n.toNat = 8 * m → spanLast o.toNat n.toNat < s.mem.size →
    ∃ t, exec (.extract o n l) s = .next t ∧
      t.eng.result.toNat =
        (List.range m).foldl (fun acc j => acc * 256 + (s.mem.read (o.toNat / 8 + j)).toNat) 0

/-! ## INJECT -/

/-- Rule R84, with the registers rule R82 says are written: a legal INJECT of an IDLE engine, its span in memory,
completes with code 0 and RESULT 0; the bits of the field are the low COUNT bits of VALUE, every other bit of the
buffer and every byte outside the span is as before, and so are ERR, the other engines and all offered words. -/
def Obligations.InjectCompletesWithTheField : Prop :=
  ∀ (s : State) (o : Word) (n : Count) (v l : Word), s.mem.wf = true → s.eng.phase = .idle →
    (Instr.inject o n v l).wellFormed = true →
    spanLast o.toNat n.toNat < s.mem.size →
    ∃ t, exec (.inject o n v l) s = .next t ∧
      t.eng.phase = .resp ∧ t.eng.result = 0 ∧ t.eng.lastCode = 0 ∧ t.eng.err = s.eng.err ∧
      t.eng.rsp = { code := 0, result := 0 } ∧ t.eng.port = s.eng.port ∧
      (∀ p, o.toNat ≤ p → p < o.toNat + n.toNat →
        bitAt t.mem p = (v.toNat >>> (n.toNat - 1 - (p - o.toNat))) &&& 1) ∧
      (∀ p, p < o.toNat ∨ o.toNat + n.toNat ≤ p → bitAt t.mem p = bitAt s.mem p) ∧
      (∀ i : Nat, i < spanFirst o.toNat ∨ spanLast o.toNat n.toNat < i → t.mem.read i = s.mem.read i) ∧
      t.mem.size = s.mem.size ∧ t.before = s.before ∧ t.after = s.after ∧ t.inputs = s.inputs

/-- Rule R83: two INJECTs whose VALUEs agree below COUNT do the same, faults included. -/
def Obligations.InjectUsesOnlyTheLowValueBits : Prop :=
  ∀ (s : State) (o : Word) (n : Count) (v v' l : Word), v.toNat % 2 ^ n.toNat = v'.toNat % 2 ^ n.toNat →
    exec (.inject o n v l) s = exec (.inject o n v' l) s

/-- Rule R86: what an EXTRACT returned, written back, leaves the memory as it was. -/
def Obligations.ReadThenWriteBackLeavesMemory : Prop :=
  ∀ (s : State) (o : Word) (n : Count) (l : Word), s.mem.wf = true → s.eng.phase = .idle →
    (Instr.extract o n l).wellFormed = true →
    spanLast o.toNat n.toNat < s.mem.size →
    ∃ t u, exec (.extract o n l) s = .next t ∧ exec (.inject o n t.eng.result l) (deliver t) = .next u ∧
      u.eng.phase = .resp ∧ u.eng.rsp.code = 0 ∧ u.mem = s.mem

/-- Rule R87: an EXTRACT of a field just written returns its value masked to its width. -/
def Obligations.WriteThenReadReturnsTheMaskedValue : Prop :=
  ∀ (s : State) (o : Word) (n : Count) (v l : Word), s.mem.wf = true → s.eng.phase = .idle →
    (Instr.inject o n v l).wellFormed = true →
    spanLast o.toNat n.toNat < s.mem.size →
    ∃ t u, exec (.inject o n v l) s = .next t ∧ exec (.extract o n l) (deliver t) = .next u ∧
      u.eng.rsp.code = 0 ∧ u.eng.result.toNat = v.toNat % 2 ^ n.toNat

/-- Rule R88: fields with pairwise disjoint spans, injected one after another, all read back, whichever is extracted
after whichever others, also where two share a byte. -/
def Obligations.PackedFieldsReadBack : Prop :=
  ∀ (s : State) (l : Word) (fields : List (Word × Count × Word)) (reads : List (Word × Count × Word)),
    s.mem.wf = true → s.eng.phase = .idle →
    (∀ f ∈ fields, (Instr.inject f.1 f.2.1 f.2.2 l).wellFormed = true ∧
      spanLast f.1.toNat f.2.1.toNat < s.mem.size) →
    fields.Pairwise (fun f g => f.1.toNat + f.2.1.toNat ≤ g.1.toNat ∨ g.1.toNat + g.2.1.toNat ≤ f.1.toNat) →
    (∀ f ∈ reads, f ∈ fields) →
    ∃ t u, serve (fields.map fun f => .inject f.1 f.2.1 f.2.2 l) s = .next t ∧
      serve (reads.map fun f => .extract f.1 f.2.1 l) t = .next u ∧
      ∀ f ∈ fields, ∃ x, exec (.extract f.1 f.2.1 l) u = .next x ∧ x.eng.rsp.code = 0 ∧
        x.eng.result.toNat = f.2.2.toNat % 2 ^ f.2.1.toNat

/-- Rule R41: the same EXTRACT twice gives the same RESULT, the same INJECT twice leaves the memory as once. -/
def Obligations.RepeatedCommandsAgree : Prop :=
  (∀ (s : State) (o : Word) (n : Count) (l : Word), s.eng.phase = .idle → (Instr.extract o n l).wellFormed = true →
    spanLast o.toNat n.toNat < s.mem.size →
    ∃ t u, exec (.extract o n l) s = .next t ∧ exec (.extract o n l) (deliver t) = .next u ∧
      u.eng.result = t.eng.result) ∧
  (∀ (s : State) (o : Word) (n : Count) (v l : Word), s.mem.wf = true → s.eng.phase = .idle →
    (Instr.inject o n v l).wellFormed = true →
    spanLast o.toNat n.toNat < s.mem.size →
    ∃ t u, exec (.inject o n v l) s = .next t ∧ exec (.inject o n v l) (deliver t) = .next u ∧ u.mem = t.mem)

/-- Rule R39 (and R72 and R74): the memory accesses of a command. A legal EXTRACT reads, and a legal INJECT reads then
writes, each byte of the span once, in ascending order; neither reaches any other byte; a command that faults reaches
none. -/
def Obligations.CommandsAccessTheirSpanOnceInOrder : Prop :=
  (∀ (s : State) (o : Word) (n : Count) (l : Word), s.eng.phase = .idle → (Instr.extract o n l).wellFormed = true →
    spanLast o.toNat n.toNat < s.mem.size →
    ∃ t, exec (.extract o n l) s = .next t ∧
      t.trace = loadsFrom (.engine s.self) s.mem (spanFirst o.toNat) (chunkCount o.toNat n.toNat) ++ s.trace) ∧
  (∀ (s : State) (o : Word) (n : Count) (v l : Word), s.mem.wf = true → s.eng.phase = .idle →
    (Instr.inject o n v l).wellFormed = true →
    spanLast o.toNat n.toNat < s.mem.size →
    ∃ t, exec (.inject o n v l) s = .next t ∧
      t.trace = loadsAndStoresFrom (.engine s.self) s.mem t.mem (spanFirst o.toNat)
        (chunkCount o.toNat n.toNat) ++ s.trace) ∧
  (∀ (s t : State) (i : Instr), s.eng.phase = .idle → Instr.wellFormed i = false → exec i s = .next t →
    t.trace = s.trace ∧ t.mem = s.mem) ∧
  (∀ (o n : Nat), 1 ≤ n → spanFirst o + chunkCount o n = spanLast o n + 1) ∧
  (∀ (o : Word) (n : Count) (v l : Word),
    (Instr.extract o n l).wellFormed = true ∨ (Instr.inject o n v l).wellFormed = true →
    spanLast o.toNat n.toNat < l.toNat)

/-! ## Where a command does not run -/

/-- A command with illegal operands takes its fault with the code of rule R93 or R94, as rule R95 says; and an engine
that is not IDLE does not take it (rule R114; that exec then answers the same state is the model's choice, log entry 8). -/
def Obligations.ExecFaultsOnIllegalOperandsAndWaitsWhenBusy : Prop :=
  (∀ (s : State) (i : Instr), s.eng.phase = .idle → Instr.wellFormed i = false →
    ∃ c, exec i s = .next
        { s with eng := { s.eng with
            phase := .resp, rsp := { code := codeBits c, result := 0 },
            lastCode := codeBits c, result := 0, err := true } } ∧
      (c = .badCount ∨ c = .range) ∧
      (c = .badCount ↔ match i with
        | .extract _ n _ => n.toNat = 0 ∨ 32 < n.toNat
        | .inject _ n _ _ => n.toNat = 0 ∨ 32 < n.toNat)) ∧
  (∀ (s : State) (i : Instr), s.eng.phase ≠ .idle → exec i s = .next s)

/-- Rule R43: an access at or above MEM_BYTES has no step. A legal command whose span is not in memory does not get
its response, and the chunk step that would make the access stops the machine. -/
def Obligations.EngineIsStuckBeyondMemory : Prop :=
  (∀ (s : State) (o : Word) (n : Count) (l : Word), s.eng.phase = .idle → (Instr.extract o n l).wellFormed = true →
    s.mem.size ≤ spanLast o.toNat n.toNat → exec (.extract o n l) s = .fault .beyondMemory) ∧
  (∀ (s : State) (o : Word) (n : Count) (v l : Word), s.eng.phase = .idle → (Instr.inject o n v l).wellFormed = true →
    s.mem.size ≤ spanLast o.toNat n.toNat → exec (.inject o n v l) s = .fault .beyondMemory) ∧
  (∀ (s : State) (ev : Event) (rest : List Event), s.inputs = ev :: rest →
    (ev = .move s.self ∨ ev = .command s.self) → s.eng.phase = .run →
    s.eng.work.rem ≠ 0 → s.mem.size ≤ s.eng.work.idx → step s = .fault .beyondMemory)

/-! ## The command lifecycle, step by step -/

/-- The next command on the port of an engine that is told to run it is `exec` of what its word decodes to, the word
taken from the port and recorded; this holds for every engine, and for the state the host makes for one word (the model's
choices of log entries 1 and 8). -/
def Obligations.StepRunsTheDecodedInstruction : Prop :=
  (∀ (s : State) (n : Nat) (rest : List Event) (u : State) (cmd : CmdWord) (ws : List CmdWord) (i : Instr),
    s.inputs = .command n :: rest → State.focus n { s with inputs := rest } = some u →
    u.eng.phase = .idle → u.eng.port = cmd :: ws → decodeWord cmd = .ok i →
    step s = exec i { u with eng := { u.eng with port := ws }, trace := .command n cmd :: u.trace }) ∧
  (∀ (s : State) (w : CmdWord) (i : Instr), decodeWord w = .ok i →
    step (s.withFetchWord 128 w.toNat) =
      exec i { s with eng := { s.eng with phase := .idle }, trace := .command s.self w :: s.trace })

/-- Rule R67: ACCEPT takes the word on the port of an IDLE engine; a word with a failing check goes to RESP, a legal
one to RUN with every working register but `byte` set, and rem is then in 1..32. -/
def Obligations.AcceptSetsTheWorkingRegisters : Prop :=
  ∀ (s : State) (cmd : CmdWord) (ws : List CmdWord) (rest : List Event),
    s.inputs = .move s.self :: rest → s.eng.phase = .idle → s.eng.port = cmd :: ws →
    ∃ t, step s = .next t ∧
      t.eng.port = ws ∧ t.trace = .command s.self cmd :: s.trace ∧ t.mem = s.mem ∧ t.before = s.before ∧
      t.after = s.after ∧ t.inputs = rest ∧
      match decode cmd with
      | .error c => t.eng = { s.eng with
          port := ws, phase := .resp, rsp := { code := codeBits c, result := 0 },
          lastCode := codeBits c, result := 0, err := true }
      | .ok (.extract o n l) =>
        t.eng.phase = .run ∧ t.eng.work.op = .extract ∧ t.eng.work.val = 0 ∧ t.eng.work.pos.toNat = o.toNat ∧
        t.eng.work.rem = n ∧ 1 ≤ n.toNat ∧ n.toNat ≤ 32 ∧ t.eng.work.acc = 0 ∧ t.eng.work.len = l ∧
        t.eng.work.step = .read ∧ t.eng.err = s.eng.err ∧ t.eng.lastCode = s.eng.lastCode ∧
        t.eng.result = s.eng.result
      | .ok (.inject o n v l) =>
        t.eng.phase = .run ∧ t.eng.work.op = .inject ∧ t.eng.work.val.toNat = v.toNat % 2 ^ n.toNat ∧
        t.eng.work.pos.toNat = o.toNat ∧ t.eng.work.rem = n ∧ 1 ≤ n.toNat ∧ n.toNat ≤ 32 ∧ t.eng.work.acc = 0 ∧
        t.eng.work.len = l ∧ t.eng.work.step = .read ∧ t.eng.err = s.eng.err ∧
        t.eng.lastCode = s.eng.lastCode ∧ t.eng.result = s.eng.result

/-- The FINISH step of rule R68: a running engine with no bits left enters RESP with code 0, and `acc` for EXTRACT or
0 for INJECT as the result. -/
def Obligations.FinishRespondsWithTheResult : Prop :=
  ∀ (s : State) (rest : List Event), s.inputs = .move s.self :: rest → s.eng.phase = .run → s.eng.work.rem = 0 →
    ∃ t, step s = .next t ∧ t.eng.phase = .resp ∧
      t.eng.result = (if s.eng.work.op = .extract then s.eng.work.acc else 0) ∧
      t.eng.rsp = { code := 0, result := t.eng.result } ∧ t.eng.lastCode = 0 ∧ t.eng.err = s.eng.err ∧
      t.eng.port = s.eng.port ∧ t.mem = s.mem ∧ t.trace = s.trace ∧ t.before = s.before ∧ t.after = s.after ∧
      t.inputs = rest

/-- Rule R69: the host takes the response word and the engine is IDLE; until then the engine holds the response and
takes no command. -/
def Obligations.ResponseIsHeldUntilTaken : Prop :=
  ∀ (s : State) (rest : List Event), s.eng.phase = .resp →
    (s.inputs = .take s.self :: rest →
      ∃ t word, step s = .next t ∧ t.trace = .response s.self word :: s.trace ∧
        word = (s.eng.rsp.result.setWidth 64) ||| (s.eng.rsp.code.setWidth 64 <<< 32) ∧
        t.eng.phase = .idle ∧ t.eng.err = s.eng.err ∧ t.eng.lastCode = s.eng.lastCode ∧
        t.eng.result = s.eng.result ∧ t.eng.port = s.eng.port ∧ t.mem = s.mem ∧ t.before = s.before ∧
        t.after = s.after ∧ t.inputs = rest) ∧
    (∀ (ev : Event), s.inputs = ev :: rest → (ev = .move s.self ∨ ev = .command s.self) →
      step s = .next { s with inputs := rest })

/-- Rule R81: the EXTRACT chunk step, with rule R77's new values of acc, pos and rem. -/
def Obligations.ExtractChunkStepReadsOneByte : Prop :=
  ∀ (s : State) (rest : List Event), s.inputs = .move s.self :: rest → s.eng.phase = .run →
    s.eng.work.op = .extract → s.eng.work.rem ≠ 0 →
    let pos := s.eng.work.pos.toNat
    let rem := s.eng.work.rem.toNat
    let left := 8 - pos % 8
    let k := min left rem
    let b := (s.mem.read (pos / 8)).toNat
    (pos / 8 < s.mem.size →
      step s = .next { s with
        inputs := rest
        trace := .load (.engine s.self) (pos / 8) (s.mem.read (pos / 8)) :: s.trace
        eng := { s.eng with work := { s.eng.work with
          pos := BitVec.ofNat 33 (pos + k)
          rem := BitVec.ofNat 6 (rem - k)
          acc := BitVec.ofNat 32 (s.eng.work.acc.toNat * 2 ^ k + (b / 2 ^ (left - k)) % 2 ^ k) } } }) ∧
    (s.mem.size ≤ pos / 8 → step s = .fault .beyondMemory)

/-- Rule R89: the READ and the WRITE step of an INJECT chunk, with rule R82's byte. -/
def Obligations.InjectChunkIsAReadAndAWrite : Prop :=
  ∀ (s : State) (rest : List Event), s.inputs = .move s.self :: rest → s.eng.phase = .run →
    s.eng.work.op = .inject → s.eng.work.rem ≠ 0 →
    let pos := s.eng.work.pos.toNat
    let rem := s.eng.work.rem.toNat
    let left := 8 - pos % 8
    let k := min left rem
    let sh := left - k
    let m8 : Byte := BitVec.ofNat 8 ((2 ^ k - 1) * 2 ^ sh)
    let chunk := s.eng.work.val.toNat / 2 ^ (rem - k) % 2 ^ k
    let new := (s.eng.work.byte &&& ~~~ m8) ||| BitVec.ofNat 8 (chunk * 2 ^ sh)
    (s.eng.work.step = .read → pos / 8 < s.mem.size →
      step s = .next { s with
        inputs := rest
        trace := .load (.engine s.self) (pos / 8) (s.mem.read (pos / 8)) :: s.trace
        eng := { s.eng with work := { s.eng.work with byte := s.mem.read (pos / 8), step := .write } } }) ∧
    (s.eng.work.step = .read → s.mem.size ≤ pos / 8 → step s = .fault .beyondMemory) ∧
    (s.eng.work.step = .write → pos / 8 < s.mem.size →
      step s = .next { s with
        inputs := rest
        mem := s.mem.write (pos / 8) new
        trace := .store (.engine s.self) (pos / 8) new :: s.trace
        eng := { s.eng with work := { s.eng.work with
          pos := BitVec.ofNat 33 (pos + k), rem := BitVec.ofNat 6 (rem - k), step := .read } } })

/-- The geometry of a chunk (the checks of rule R70 and the shapes of rule R75). -/
def Obligations.ChunkLiesInItsByte : Prop :=
  ∀ pos rem : Nat, 1 ≤ rem →
    1 ≤ chunkSize pos rem ∧ chunkShift pos rem + chunkSize pos rem = chunkLeft pos ∧ chunkLeft pos ≤ 8 ∧
    (chunkMask pos rem).toNat = (2 ^ chunkSize pos rem - 1) * 2 ^ chunkShift pos rem ∧
    (pos % 8 = 0 → 8 ≤ rem → chunkSize pos rem = 8 ∧ chunkShift pos rem = 0 ∧ chunkMask pos rem = 0xFF) ∧
    (chunkSize pos rem < rem → (pos + chunkSize pos rem) % 8 = 0)

/-- How a step may change the phase of an engine (rules R25 and R67 to R69), and by which event. -/
def Obligations.PhasesFollowTheLifecycle : Prop :=
  ∀ (s t : State) (ev : Event) (rest : List Event) (n : Nat) (a b : Engine),
    s.inputs = ev :: rest → step s = .next t → s.engines[n]? = some a → t.engines[n]? = some b →
    a.phase = b.phase ∨
    match a.phase, b.phase with
    | .idle, .run => ev = .move n
    | .idle, .resp => ev = .move n ∨ ev = .command n
    | .run, .resp => ev = .move n ∨ ev = .command n
    | .run, .idle => ev = .reset n
    | .resp, .idle => ev = .take n ∨ ev = .reset n
    | _, _ => False

/-- Rule R114: a busy engine takes no word from its port, an offered word waits there behind those offered before it
(that several can wait is the model's, log entry 10, and so is that they still wait after a reset of the engine, log
entry 9), and an engine in RESP keeps its response until the host takes it or resets the engine. -/
def Obligations.BusyEngineLeavesTheCommandOnItsPort : Prop :=
  ∀ (s t : State) (ev : Event) (rest : List Event) (n : Nat) (a b : Engine),
    s.inputs = ev :: rest → step s = .next t → s.engines[n]? = some a → t.engines[n]? = some b →
    (a.phase ≠ .idle → (∀ (cmd : CmdWord), ev ≠ .offer n cmd) → b.port = a.port) ∧
    (∀ (cmd : CmdWord), ev = .offer n cmd → b = { a with port := a.port ++ [cmd] }) ∧
    (a.phase = .resp → ev ≠ .take n → ev ≠ .reset n → b = { a with port := b.port })

/-- Rule R108: an IDLE engine with no word offered waits and keeps its state, a word offered is all it needs to start,
and with no event to come nothing changes (this last is the model's, log entry 6). -/
def Obligations.WaitingLosesNoState : Prop :=
  (∀ (s : State) (ev : Event) (rest : List Event), s.inputs = ev :: rest →
    (ev = .move s.self ∨ ev = .command s.self) → s.eng.phase = .idle →
    s.eng.port = [] → step s = .next { s with inputs := rest }) ∧
  (∀ (s : State) (cmd : CmdWord) (rest : List Event), s.inputs = .offer s.self cmd :: .move s.self :: rest →
    s.eng.phase = .idle → s.eng.port = [] →
    ∃ t, steps 2 s = .next t ∧ t.eng.phase ≠ .idle) ∧
  (∀ (s : State), s.inputs = [] → step s = .next s)

/-- Rules R76 and R121: the fine-grained steps ACCEPT, the chunk steps and FINISH of one engine, with no other agent
between them, have the one outcome of the whole command, a stop at the end of memory included; an EXTRACT of N chunks
makes N + 2 of them, an INJECT 2 N + 2, a fault 1, and N is at most ceil(COUNT / 8) + 1. -/
def Obligations.FineGrainedRunEqualsTheCommand : Prop :=
  (∀ (s : State) (cmd : CmdWord) (ws : List CmdWord) (rest : List Event), s.eng.phase = .idle → s.eng.port = cmd :: ws →
    steps (moveCount cmd) { s with inputs := List.replicate (moveCount cmd) (.move s.self) ++ rest } =
      step { s with inputs := .command s.self :: rest }) ∧
  (∀ (cmd : CmdWord), moveCount cmd ≤
    match decode cmd with
    | .error _ => 1
    | .ok (.extract _ n _) => ((n.toNat + 7) / 8 + 1) + 2
    | .ok (.inject _ n _ _) => 2 * ((n.toNat + 7) / 8 + 1) + 2)

/-- Rule R122: a running engine whose remaining bytes are in memory reaches RESP, in at most 11 moves of its own. -/
def Obligations.RunningCommandReachesItsResponse : Prop :=
  ∀ s : State, s.Inv → s.eng.phase = .run →
    (s.eng.work.rem = 0 ∨ spanLast s.eng.work.pos.toNat s.eng.work.rem.toNat < s.mem.size) →
    ∃ k t, k ≤ 11 ∧ steps k { s with inputs := List.replicate k (.move s.self) } = .next t ∧ t.eng.phase = .resp

/-- Rules R57, R113 and R119: whatever words a host has offered to an IDLE engine, legal or not, as long as the spans
of the legal ones are in memory, running them one after another and taking each response ends the run, with one
response for each word. Where no word is offered, the command before, if there was one, is to have been answered. What
counts as an ended run, one without any command among them, is the model's choice (log entry 20), and so are that
several words wait on the port (log entry 10) and that a whole command is one step (log entry 8). -/
def Obligations.RunEndsWithOneResponsePerCommand : Prop :=
  ∀ s : State, s.mem.wf = true → s.eng.phase = .idle →
    (∀ cmd ∈ s.eng.port, ∀ i, decode cmd = .ok i → spanInMemory s.mem i = true) →
    (s.eng.port = [] → lastAnswered s.self s.trace = true) →
    ∃ t, steps (2 * s.eng.port.length)
        { s with inputs := (s.eng.port.map fun _ => [Event.command s.self, .take s.self]).flatten } = .next t ∧
      ended s.self t = true ∧ (responses s.self (since s t)).length = s.eng.port.length

/-- Rule R113: when a run has ended. An engine stuck or held in RUN or RESP has not ended its run; nor has one that a
reset takes out of a command, whether it abandons the command or discards its response; the delivery of a response
ends the command, and the run where no word waits and none is to come; and a later reset does not undo that. (What the host still offers, and a
record without a command, are log entry 20.) -/
def Obligations.RunEndsOnlyWithItsLastResponse : Prop :=
  (∀ (s : State) (n : Nat) (a : Engine), s.engines[n]? = some a → a.phase ≠ .idle → ended n s = false) ∧
  (∀ (s : State) (n : Nat) (a : Engine) (rest : List Event), s.inputs = .reset n :: rest → s.engines[n]? = some a →
    outstanding n s.trace = some true → ∃ t, step s = .next t ∧ ended n t = false) ∧
  (∀ (s : State) (n : Nat) (a : Engine) (rest : List Event), s.inputs = .take n :: rest → s.engines[n]? = some a →
    a.phase = .resp →
    ∃ t, step s = .next t ∧ lastAnswered n t.trace = true ∧
      (ended n t = true ↔ a.port = [] ∧ noOffer n rest = true)) ∧
  (∀ (s t : State) (n : Nat) (rest : List Event), s.inputs = .reset n :: rest → ended n s = true →
    step s = .next t → ended n t = true)

/-- Rules R26, R27 and R30: no rule reads the working registers outside phase RUN, `byte` before a READ step, or the
response registers outside phase RESP. (The values they get are log entry 5.) Two machines that differ in those alone make steps that differ in those alone. -/
def Obligations.UnspecifiedRegistersAreNeverRead : Prop :=
  ∀ s s' : State, s.visible = s'.visible →
    match step s, step s' with
    | .next t, .next t' => t.visible = t'.visible
    | .fault r, .fault r' => r = r'
    | _, _ => False

/-! ## Reset -/

/-- State.reset is as rules R30 and R109 say: STATUS 0, RESULT 0, IDLE. -/
def Obligations.ResetStateIsIdleAndClear : Prop :=
  ∀ e ∈ State.reset.engines, e.status = 0 ∧ e.result = 0 ∧ e.phase = .idle

/-- Rule R109: the reset event of an engine, in any phase, gives STATUS 0, RESULT 0 and IDLE; no response is
delivered, the memory and the other engines are as before; and no other event clears ERR. (What is still offered on the
port is log entry 9, and the unspecified registers log entry 5: the statement says nothing of them.) -/
def Obligations.ResetEventClearsTheEngine : Prop :=
  (∀ (s : State) (n : Nat) (a : Engine) (rest : List Event), s.inputs = .reset n :: rest → s.engines[n]? = some a →
    ∃ t b, step s = .next t ∧ t.engines[n]? = some b ∧ b.status = 0 ∧ b.result = 0 ∧ b.phase = .idle ∧
      t.trace = .reset n :: s.trace ∧ t.mem = s.mem ∧
      (∀ (m : Nat), m ≠ n → t.engines[m]? = s.engines[m]?)) ∧
  (∀ (s t : State) (n : Nat) (a b : Engine), step s = .next t → s.engines[n]? = some a → t.engines[n]? = some b →
    a.err = true → b.err = false →
    s.inputs.head? = some (.reset n))

/-- Rule R110: a reset after any number of moves of a command leaves no response; of an INJECT the first j chunk
writes for some j have happened and no others, each byte written or untouched; an EXTRACT leaves the memory as it was.
-/
def Obligations.ResetDuringACommandKeepsAPrefix : Prop :=
  (∀ (s : State) (cmd : CmdWord) (ws : List CmdWord) (o : Word) (n : Count) (v l : Word) (k : Nat),
    s.mem.wf = true → s.eng.phase = .idle → s.eng.port = cmd :: ws →
    decode cmd = .ok (.inject o n v l) → spanLast o.toNat n.toNat < s.mem.size →
    ∃ t full j, exec (.inject o n v l) s = .next full ∧
      steps (k + 1) { s with inputs := List.replicate k (.move s.self) ++ [.reset s.self] } = .next t ∧
      t.eng.phase = .idle ∧ t.eng.status = 0 ∧ t.eng.result = 0 ∧
      (∀ w, Act.response s.self w ∉ since s t) ∧ j ≤ chunkCount o.toNat n.toNat ∧
      ∀ i : Nat, t.mem.read i =
        if spanFirst o.toNat ≤ i ∧ i < spanFirst o.toNat + j then full.mem.read i else s.mem.read i) ∧
  (∀ (s : State) (cmd : CmdWord) (ws : List CmdWord) (o : Word) (n : Count) (l : Word) (k : Nat),
    s.eng.phase = .idle → s.eng.port = cmd :: ws → decode cmd = .ok (.extract o n l) →
    spanLast o.toNat n.toNat < s.mem.size →
    ∃ t, steps (k + 1) { s with inputs := List.replicate k (.move s.self) ++ [.reset s.self] } = .next t ∧
      t.eng.phase = .idle ∧ t.eng.status = 0 ∧ t.eng.result = 0 ∧
      (∀ w, Act.response s.self w ∉ since s t) ∧ t.mem = s.mem)

/-! ## Several agents -/

/-- Rule R106: a step changes no engine but the one its event names, and neither the number of engines nor MEM_BYTES.
-/
def Obligations.StepTouchesOnlyTheNamedEngine : Prop :=
  ∀ (s t : State) (ev : Event) (rest : List Event), s.inputs = ev :: rest → step s = .next t →
    t.engines.length = s.engines.length ∧ t.mem.size = s.mem.size ∧ t.inputs = rest ∧
    (∀ (m : Nat), ev.engine? ≠ some m → t.engines[m]? = s.engines[m]?)

/-- A byte of memory changes in a step only where the step wrote it, and only the host or another agent, an engine in
the WRITE step of an INJECT, or an engine that runs a whole INJECT writes (rule R28). -/
def Obligations.MemoryChangesOnlyByStores : Prop :=
  ∀ (s t : State) (ev : Event) (rest : List Event) (i : Nat),
    s.inputs = ev :: rest → step s = .next t → t.mem.read i ≠ s.mem.read i →
    (∃ v, ev = .store i v ∧ Act.store .other i v ∈ since s t) ∨
    (∃ n a v, s.engines[n]? = some a ∧ Act.store (.engine n) i v ∈ since s t ∧
      ((a.phase = .run ∧ a.work.op = .inject ∧ a.work.step = .write ∧ a.work.idx = i ∧
          (ev = .move n ∨ ev = .command n)) ∨
       (a.phase = .idle ∧ ev = .command n ∧
          ∃ cmd ws o c x l, a.port = cmd :: ws ∧ decode cmd = .ok (.inject o c x l) ∧
            spanFirst o.toNat ≤ i ∧ i ≤ spanLast o.toNat c.toNat)))

/-- Rule R78 with other agents: if an engine takes an EXTRACT and gets to its response in a run in which no other
agent writes a byte of the span, RESULT is the field, whatever else the others do and in whatever order. -/
def Obligations.InterleavedExtractReturnsTheField : Prop :=
  ∀ (k : Nat) (s t : State) (n : Nat) (a b : Engine) (cmd : CmdWord) (ws : List CmdWord)
    (o : Word) (c : Count) (l : Word),
    s.engines[n]? = some a → a.phase = .idle → a.port = cmd :: ws →
    decode cmd = .ok (.extract o c l) → steps k s = .next t →
    exclusive n (spanFirst o.toNat) (spanLast o.toNat c.toNat) (since s t) = true →
    t.engines[n]? = some b → b.phase = .resp →
    b.rsp.code = 0 ∧ b.rsp.result.toNat = fieldValue s.mem o.toNat c.toNat ∧ b.result = b.rsp.result

/-- Rules R84, R85 and R116 with other agents: if an engine takes an INJECT and gets to its response in a run in which
no other agent writes a byte of the span, the bits of the field are the low COUNT bits of VALUE and the other bits of
the span are as they were, whatever else the others do and in whatever order. -/
def Obligations.InterleavedInjectWritesTheField : Prop :=
  ∀ (k : Nat) (s t : State) (n : Nat) (a b : Engine) (cmd : CmdWord) (ws : List CmdWord)
    (o : Word) (c : Count) (v l : Word),
    s.mem.wf = true → s.engines[n]? = some a → a.phase = .idle → a.port = cmd :: ws →
    decode cmd = .ok (.inject o c v l) → steps k s = .next t →
    exclusive n (spanFirst o.toNat) (spanLast o.toNat c.toNat) (since s t) = true →
    t.engines[n]? = some b → b.phase = .resp →
    b.rsp = { code := 0, result := 0 } ∧
    (∀ p, o.toNat ≤ p → p < o.toNat + c.toNat →
      bitAt t.mem p = (v.toNat >>> (c.toNat - 1 - (p - o.toNat))) &&& 1) ∧
    (∀ p, p / 8 = spanFirst o.toNat ∨ p / 8 = spanLast o.toNat c.toNat → p < o.toNat ∨ o.toNat + c.toNat ≤ p →
      bitAt t.mem p = bitAt s.mem p)

/-- Rule R47: a byte another agent writes between the READ and the WRITE of an INJECT chunk is lost in all 8 bits. -/
def Obligations.UpdateBetweenReadAndWriteIsLost : Prop :=
  ∀ (s : State) (x : Byte) (rest : List Event), s.mem.wf = true → s.eng.phase = .run → s.eng.work.op = .inject →
    s.eng.work.rem ≠ 0 →
    s.eng.work.step = .read → s.eng.work.idx < s.mem.size →
    s.inputs = .move s.self :: .store s.eng.work.idx x :: .move s.self :: rest →
    ∃ t, steps 3 s = .next t ∧
      t.mem.read s.eng.work.idx =
        mergedByte s.eng.work.pos.toNat s.eng.work.rem.toNat s.eng.work.val (s.mem.read s.eng.work.idx)

/-- Litmus R1 of 95_test_vectors.md: two engines inject disjoint nibbles of one byte; every order of their reads and
writes ends in 0x0f, 0xaf or 0x05, and each of the three happens. -/
def Obligations.TwoInjectsOfOneByteRace : Prop :=
  let engine : CmdWord → Engine := fun cmd => { Engine.reset with port := [cmd] }
  let final : List Nat → Option Byte := fun order =>
    let s : State := { State.reset with
      eng := engine (encode (.inject 0 4 0 1)), after := [engine (encode (.inject 4 4 0xf 1))],
      mem := { size := 1, cells := [(0, 0xa5)] }, inputs := (0 :: 1 :: order).map .move }
    match steps 6 s with
    | .next t => some (t.mem.read 0)
    | _ => none
  final [0, 0, 1, 1] = some 0x0f ∧ final [1, 1, 0, 0] = some 0x0f ∧
  final [0, 1, 0, 1] = some 0xaf ∧ final [1, 0, 0, 1] = some 0xaf ∧
  final [0, 1, 1, 0] = some 0x05 ∧ final [1, 0, 1, 0] = some 0x05

/-- Rule R118: chunk steps of two engines at different bytes need no coordination: either order is possible where both
steps are, and gives the same engines and the same memory. -/
def Obligations.ChunkStepsAtDifferentBytesCommute : Prop :=
  ∀ (s sa sb : State) (m n : Nat) (a b : Engine), s.mem.wf = true → m ≠ n → s.engines[m]? = some a →
    s.engines[n]? = some b →
    a.phase = .run → b.phase = .run → a.work.rem ≠ 0 → b.work.rem ≠ 0 → a.work.idx ≠ b.work.idx →
    perform (.move m) s = .next sa → perform (.move n) s = .next sb →
    ∃ t u, perform (.move n) sa = .next t ∧ perform (.move m) sb = .next u ∧
      t.engines = u.engines ∧ t.mem = u.mem

/-- Rule R46: every step keeps the record of transfers consistent with one order of single-byte accesses: each load
returned the last byte stored there before it, or what was there at first. The record is the model's own (log entry 13). -/
def Obligations.RecordIsSequentiallyConsistent : Prop :=
  ∀ (m : Memory) (s t : State), replay m s.trace = some s.mem → step s = .next t → replay m t.trace = some t.mem

/-- Rules R45, R57, R109 and R110: every step keeps this, for each engine: a command is outstanding exactly when the
engine is not IDLE, each response answers the one command before it, a command is taken only when the one before has
been answered or a reset has ended it unanswered, and no memory access of the engine lies outside a command. The record
is the model's own (log entry 13). -/
def Obligations.EachCommandGetsOneResponseInOrder : Prop :=
  ∀ (s t : State), (∀ (n : Nat) (e : Engine), s.engines[n]? = some e →
    outstanding n s.trace = some (decide (e.phase ≠ .idle))) →
    step s = .next t →
    ∀ (n : Nat) (e : Engine), t.engines[n]? = some e → outstanding n t.trace = some (decide (e.phase ≠ .idle))

/-! ## The invariant -/

/-- Every step keeps the invariant: memory in canonical form, LAST_CODE at most 4, a fault code with ERR set and
RESULT 0, the response held the one STATUS and RESULT show, and in RUN the rest of the field inside the buffer. -/
def Obligations.StepKeepsTheInvariant : Prop :=
  ∀ s t : State, s.Inv → step s = .next t → t.Inv

/-- The invariants hold of State.reset: the one of StepKeepsTheInvariant, and those of the record of transfers. The memory
of State.reset is the model's choice (log entries 2 and 3). -/
def Obligations.ResetMeetsTheInvariants : Prop :=
  State.reset.Inv ∧ replay State.reset.mem State.reset.trace = some State.reset.mem ∧
  ∀ (n : Nat) (e : Engine), State.reset.engines[n]? = some e →
    outstanding n State.reset.trace = some (decide (e.phase ≠ .idle))
end

