-- ==== Sys2Proof/Laws/Encoding.lean ====
section
/-! SUPPORT. The bits of a command word put together from its parts (rules R52 and R53). -/

namespace Sys2Proof

/-- A bit of a command word made of four words. -/
theorem cmdOfWords_getLsbD (w0 w1 w2 w3 : Word) (p : Nat) : (cmdOfWords w0 w1 w2 w3).getLsbD p =
    if p < 32 then w0.getLsbD p else if p < 64 then w1.getLsbD (p - 32) else if p < 96 then w2.getLsbD (p - 64)
    else w3.getLsbD (p - 96) := by
  show ((w3 ++ w2 ++ w1 ++ w0 : BitVec (32 + 32 + 32 + 32))).getLsbD p = _
  simp only [BitVec.getLsbD_append, Nat.sub_sub]
  split <;> [skip; split <;> [skip; split]] <;> (repeat' split) <;> first | rfl | omega

/-- A bit of CTRL. -/
theorem ctrlWord_getLsbD (op : BitVec 2) (count : Count) (p : Nat) : (ctrlWord op count).getLsbD p =
    if p < 2 then op.getLsbD p else if p < 8 then false else if p < 14 then count.getLsbD (p - 8) else false := by
  show ((0 : BitVec 18) ++ count ++ (0 : BitVec 6) ++ op : BitVec (18 + 6 + 6 + 2)).getLsbD p = _
  simp only [BitVec.getLsbD_append, Nat.sub_sub]
  repeat' split
  all_goals first | rfl | omega | simp

end Sys2Proof
end

