-- ==== Sys2Proof/Laws/Memory.lean ====
section
/-! SUPPORT. The laws of memory: a read after a write, the canonical form is kept, and memories in canonical form that
read the same are the same. -/

namespace Sys2Proof.Machine

theorem cellsWf_mono {size lo lo' : Nat} {cs : List Host.Cell} (h : cellsWf size lo cs = true) (hl : lo' ≤ lo) :
    cellsWf size lo' cs = true := by
  cases cs with
  | nil => rfl
  | cons c rest =>
    obtain ⟨i, b⟩ := c
    simp only [cellsWf, Bool.and_eq_true, decide_eq_true_eq] at h ⊢
    exact ⟨⟨⟨by omega, h.1.1.2⟩, h.1.2⟩, h.2⟩

/-- Below its first index a canonical list lists nothing. -/
theorem readCells_of_lt {size lo : Nat} {cs : List Host.Cell} (h : cellsWf size lo cs = true) {i : Nat} (hi : i < lo) :
    readCells cs i = Config.unlistedByte := by
  induction cs generalizing lo with
  | nil => rfl
  | cons c rest ih =>
    obtain ⟨j, b⟩ := c
    simp only [cellsWf, Bool.and_eq_true, decide_eq_true_eq] at h
    rw [readCells, if_neg (by omega)]
    exact ih h.2 (by omega)

theorem readCells_writeCells_self {size lo : Nat} {cs : List Host.Cell} (h : cellsWf size lo cs = true) (i : Nat)
    (v : Byte) : readCells (writeCells cs i v) i = v := by
  induction cs generalizing lo with
  | nil => by_cases hv : v = Config.unlistedByte <;> simp [writeCells, readCells, hv]
  | cons c rest ih =>
    obtain ⟨j, b⟩ := c
    have h' := h
    simp only [cellsWf, Bool.and_eq_true, decide_eq_true_eq] at h
    rw [writeCells]
    split
    · split
      · next hij hv => rw [hv, readCells, if_neg (by omega)]; exact readCells_of_lt h.2 (by omega)
      · simp [readCells]
    · split
      · next hij => subst hij; split
                    · next hv => rw [hv]; exact readCells_of_lt h.2 (by omega)
                    · simp [readCells]
      · rw [readCells, if_neg (by omega)]; exact ih h.2

theorem readCells_writeCells_of_ne (cs : List Host.Cell) {i j : Nat} (hij : i ≠ j) (v : Byte) :
    readCells (writeCells cs i v) j = readCells cs j := by
  induction cs with
  | nil => by_cases hv : v = Config.unlistedByte <;> simp [writeCells, readCells, hv, hij]
  | cons c rest ih =>
    obtain ⟨k, b⟩ := c
    rw [writeCells]
    split
    · split
      · rfl
      · rw [readCells, if_neg hij]
    · split
      · next hik => subst hik; split
                    · rw [readCells, if_neg hij]
                    · rw [readCells, if_neg hij, readCells, if_neg hij]
      · rw [readCells, readCells, ih]

theorem cellsWf_writeCells {size lo : Nat} {cs : List Host.Cell} (h : cellsWf size lo cs = true) {i : Nat}
    (hlo : lo ≤ i) (hi : i < size) (v : Byte) : cellsWf size lo (writeCells cs i v) = true := by
  induction cs generalizing lo with
  | nil => by_cases hv : v = Config.unlistedByte <;> simp [writeCells, cellsWf, hv, hlo, hi]
  | cons c rest ih =>
    obtain ⟨j, b⟩ := c
    have h' := h
    simp only [cellsWf, Bool.and_eq_true, decide_eq_true_eq, bne_iff_ne] at h
    rw [writeCells]
    split
    · split
      · exact h'
      · next hij hv =>
        simp only [cellsWf, Bool.and_eq_true, decide_eq_true_eq, bne_iff_ne]
        exact ⟨⟨⟨hlo, hi⟩, hv⟩, ⟨⟨by omega, h.1.1.2⟩, h.1.2⟩, h.2⟩
    · split
      · next hij => subst hij; split
                    · exact cellsWf_mono h.2 (by omega)
                    · next hv =>
                      simp only [cellsWf, Bool.and_eq_true, decide_eq_true_eq, bne_iff_ne]
                      exact ⟨⟨⟨hlo, hi⟩, hv⟩, h.2⟩
      · simp only [cellsWf, Bool.and_eq_true, decide_eq_true_eq, bne_iff_ne]
        exact ⟨h.1, ih h.2 (by omega)⟩

/-- Two canonical lists that read the same are the same. -/
theorem cells_ext {size lo : Nat} {cs ds : List Host.Cell} (hc : cellsWf size lo cs = true)
    (hd : cellsWf size lo ds = true) (h : ∀ i, readCells cs i = readCells ds i) : cs = ds := by
  induction cs generalizing lo ds with
  | nil =>
    cases ds with
    | nil => rfl
    | cons d rest =>
      obtain ⟨j, b⟩ := d
      simp only [cellsWf, Bool.and_eq_true, bne_iff_ne] at hd
      have := h j
      simp [readCells] at this
      exact absurd this.symm hd.1.2
  | cons c cs ih =>
    obtain ⟨i, a⟩ := c
    simp only [cellsWf, Bool.and_eq_true, decide_eq_true_eq, bne_iff_ne] at hc
    cases ds with
    | nil =>
      have := h i
      simp [readCells] at this
      exact absurd this hc.1.2
    | cons d ds =>
      obtain ⟨j, b⟩ := d
      simp only [cellsWf, Bool.and_eq_true, decide_eq_true_eq, bne_iff_ne] at hd
      have key : i = j := by
        by_contra hne
        rcases Nat.lt_or_gt_of_ne hne with hlt | hgt
        · have := h i
          rw [readCells, if_pos rfl, readCells, if_neg (by omega), readCells_of_lt hd.2 (by omega)] at this
          exact hc.1.2 this
        · have := h j
          rw [readCells, if_neg (by omega), readCells_of_lt hc.2 (by omega), readCells, if_pos rfl] at this
          exact hd.1.2 this.symm
      subst key
      have hab : a = b := by have := h i; simpa [readCells] using this
      subst hab
      congr 1
      refine ih hc.2 hd.2 fun k => ?_
      by_cases hk : k < i + 1
      · rw [readCells_of_lt hc.2 hk, readCells_of_lt hd.2 hk]
      · have := h k
        rwa [readCells, if_neg (by omega), readCells, if_neg (by omega)] at this

/-! ## The same, of memories -/

theorem Memory.cellsWf_of_wf {m : Memory} (h : m.wf = true) : cellsWf m.size 0 m.cells = true := by
  simp only [Memory.wf, Bool.and_eq_true] at h
  exact h.2

@[simp] theorem Memory.write_size (m : Memory) (i : Nat) (v : Byte) : (m.write i v).size = m.size := rfl

/-- A read after a write to the same index gives the value written (rule R37). -/
theorem Memory.read_write_self {m : Memory} (h : m.wf = true) (i : Nat) (v : Byte) : (m.write i v).read i = v :=
  readCells_writeCells_self (Memory.cellsWf_of_wf h) i v

/-- A write leaves every other byte alone (rule R37). -/
theorem Memory.read_write_of_ne (m : Memory) {i j : Nat} (h : i ≠ j) (v : Byte) : (m.write i v).read j = m.read j :=
  readCells_writeCells_of_ne m.cells h v

theorem Memory.read_write {m : Memory} (h : m.wf = true) (i j : Nat) (v : Byte) :
    (m.write i v).read j = if i = j then v else m.read j := by
  by_cases hij : i = j
  · subst hij; rw [if_pos rfl, Memory.read_write_self h]
  · rw [if_neg hij, Memory.read_write_of_ne m hij]

/-- A write inside the memory keeps its canonical form. -/
theorem Memory.wf_write {m : Memory} (h : m.wf = true) {i : Nat} (hi : i < m.size) (v : Byte) :
    (m.write i v).wf = true := by
  have hc := Memory.cellsWf_of_wf h
  simp only [Memory.wf, Bool.and_eq_true] at h ⊢
  exact ⟨h.1, cellsWf_writeCells hc (Nat.zero_le _) hi v⟩

/-- Memories in canonical form that have the same size and read the same are the same. -/
theorem Memory.ext_read {m m' : Memory} (h : m.wf = true) (h' : m'.wf = true) (hs : m.size = m'.size)
    (hr : ∀ i, m.read i = m'.read i) : m = m' := by
  have hc := Memory.cellsWf_of_wf h
  have hc' := Memory.cellsWf_of_wf h'
  rw [← hs] at hc'
  cases m; cases m'
  simp only at hs
  subst hs
  congr 1
  exact cells_ext hc hc' hr

/-- The memory of State.reset is in canonical form. -/
theorem reset_mem_wf : State.reset.mem.wf = true := by decide

end Sys2Proof.Machine
end

