-- ==== Sys2Proof/Laws/Operands.lean ====
section
/-! SUPPORT. The chunk geometry (rules R70, R75), the chunk of a byte and of a value, and the bit string of the buffer cut
into chunks (rules R76, R78). -/

namespace Sys2Proof.Machine

/-! ## Geometry -/

theorem chunkLeft_bounds (pos : Nat) : 1 ≤ chunkLeft pos ∧ chunkLeft pos ≤ 8 := by unfold chunkLeft; omega

theorem chunkSize_le_rem (pos rem : Nat) : chunkSize pos rem ≤ rem := Nat.min_le_right _ _

theorem chunkSize_le_left (pos rem : Nat) : chunkSize pos rem ≤ chunkLeft pos := Nat.min_le_left _ _

theorem chunkSize_pos (pos : Nat) {rem : Nat} (h : 1 ≤ rem) : 1 ≤ chunkSize pos rem := by
  have := chunkLeft_bounds pos
  unfold chunkSize; omega

theorem chunkShift_add_size (pos rem : Nat) : chunkShift pos rem + chunkSize pos rem = chunkLeft pos := by
  have := chunkSize_le_left pos rem
  unfold chunkShift; omega

/-- Every chunk but the last ends at a byte boundary (rule R75). -/
theorem chunk_ends_byte {pos rem : Nat} (h : chunkSize pos rem < rem) : (pos + chunkSize pos rem) % 8 = 0 := by
  unfold chunkSize chunkLeft at *; omega

/-! ## Chunks as arithmetic -/

theorem and_mask (x k : Nat) : x &&& mask k = x % 2 ^ k := Nat.and_two_pow_sub_one_eq_mod x k

theorem chunkOfByte_eq (pos rem : Nat) (b : Byte) :
    chunkOfByte pos rem b = b.toNat / 2 ^ chunkShift pos rem % 2 ^ chunkSize pos rem := by
  rw [chunkOfByte, and_mask, Nat.shiftRight_eq_div_pow]

theorem chunkOfByte_lt (pos rem : Nat) (b : Byte) : chunkOfByte pos rem b < 2 ^ chunkSize pos rem := by
  rw [chunkOfByte_eq]; exact Nat.mod_lt _ (Nat.two_pow_pos _)

theorem chunkOfValue_eq (pos rem : Nat) (v : Word) :
    chunkOfValue pos rem v = v.toNat / 2 ^ (rem - chunkSize pos rem) % 2 ^ chunkSize pos rem := by
  rw [chunkOfValue, and_mask, Nat.shiftRight_eq_div_pow]

theorem chunkOfValue_lt (pos rem : Nat) (v : Word) : chunkOfValue pos rem v < 2 ^ chunkSize pos rem := by
  rw [chunkOfValue_eq]; exact Nat.mod_lt _ (Nat.two_pow_pos _)

theorem shiftLeft_or_chunk (acc k : Nat) {c : Nat} (h : c < 2 ^ k) : acc <<< k ||| c = acc * 2 ^ k + c := by
  rw [← Nat.shiftLeft_add_eq_or_of_lt h, Nat.shiftLeft_eq]

theorem accumulated_eq (pos rem : Nat) (acc : Word) (b : Byte) :
    accumulated pos rem acc b =
      BitVec.ofNat 32 (acc.toNat * 2 ^ chunkSize pos rem + chunkOfByte pos rem b) := by
  rw [accumulated, shiftLeft_or_chunk _ _ (chunkOfByte_lt pos rem b)]

/-- VALUE masked to COUNT bits is VALUE modulo 2^COUNT (rule R83). -/
theorem maskedValue_toNat (v : Word) (n : Count) (h : n.toNat ≤ 32) : (maskedValue v n).toNat = v.toNat % 2 ^ n.toNat := by
  have hm : mask n.toNat < 2 ^ 32 := by
    have := Nat.pow_le_pow_right (n := 2) (by omega) h
    have := Nat.two_pow_pos n.toNat
    unfold mask; omega
  rw [maskedValue, BitVec.toNat_and, BitVec.toNat_ofNat, Nat.mod_eq_of_lt hm, and_mask]

/-! ## The bit string -/

theorem bitAt_eq_testBit (m : Memory) (p : Nat) : bitAt m p = ((m.read (p / 8)).getLsbD (7 - p % 8)).toNat := by
  rw [bitAt, BitVec.getLsbD, Nat.testBit, Nat.and_one_is_mod, Nat.and_comm, Nat.and_one_is_mod]
  rcases Nat.mod_two_eq_zero_or_one ((m.read (p / 8)).toNat >>> (7 - p % 8)) with h | h <;> simp [h]

theorem bitAt_le_one (m : Memory) (p : Nat) : bitAt m p ≤ 1 := by
  rw [bitAt_eq_testBit]; cases (m.read (p / 8)).getLsbD (7 - p % 8) <;> decide

@[simp] theorem fieldValue_zero (m : Memory) (o : Nat) : fieldValue m o 0 = 0 := rfl

/-- The value of a field from its bits but the last, and its last bit. -/
theorem fieldValue_succ (m : Memory) (o n : Nat) : fieldValue m o (n + 1) = fieldValue m o n * 2 + bitAt m (o + n) := by
  unfold fieldValue
  rw [List.range_succ, List.map_append, List.sum_append]
  have : ∀ l : List Nat, (∀ i ∈ l, i < n) →
      (l.map fun i => bitAt m (o + i) <<< (n + 1 - 1 - i)).sum =
        (l.map fun i => bitAt m (o + i) <<< (n - 1 - i)).sum * 2 := by
    intro l hl
    induction l with
    | nil => rfl
    | cons i l ih =>
      have hi := hl i (by simp)
      rw [List.map_cons, List.map_cons, List.sum_cons, List.sum_cons, ih fun j hj => hl j (by simp [hj]), Nat.add_mul,
        Nat.shiftLeft_eq, Nat.shiftLeft_eq, show n + 1 - 1 - i = (n - 1 - i) + 1 by omega, Nat.pow_succ,
        Nat.mul_assoc]
  rw [this (List.range n) fun i hi => List.mem_range.mp hi]
  simp

/-- A field cut in two (rule R34: the lower offsets are the more significant bits). -/
theorem fieldValue_add (m : Memory) (o a b : Nat) :
    fieldValue m o (a + b) = fieldValue m o a * 2 ^ b + fieldValue m (o + a) b := by
  induction b with
  | zero => simp
  | succ b ih =>
    rw [← Nat.add_assoc, fieldValue_succ, ih, fieldValue_succ, Nat.pow_succ, Nat.add_mul, Nat.mul_assoc, Nat.add_assoc,
      Nat.add_assoc]

/-- A field is below 2^COUNT (rule R80). -/
theorem fieldValue_lt (m : Memory) (o n : Nat) : fieldValue m o n < 2 ^ n := by
  induction n with
  | zero => simp
  | succ n ih =>
    have := bitAt_le_one m (o + n)
    rw [fieldValue_succ, Nat.pow_succ]; omega

/-- A field inside one byte is a slice of that byte. -/
theorem fieldValue_in_byte (m : Memory) (o n : Nat) (h : o % 8 + n ≤ 8) :
    fieldValue m o n = (m.read (o / 8)).toNat / 2 ^ (8 - o % 8 - n) % 2 ^ n := by
  induction n with
  | zero => simp [Nat.mod_one]
  | succ n ih =>
    rw [fieldValue_succ, ih (by omega), bitAt, Nat.and_one_is_mod, show (o + n) / 8 = o / 8 by omega,
      show 7 - (o + n) % 8 = 8 - o % 8 - (n + 1) by omega, Nat.shiftRight_eq_div_pow,
      show 8 - o % 8 - n = (8 - o % 8 - (n + 1)) + 1 by omega, Nat.pow_succ, ← Nat.div_div_eq_div_mul]
    generalize (m.read (o / 8)).toNat / 2 ^ (8 - o % 8 - (n + 1)) = y
    rw [Nat.pow_succ, Nat.mul_comm (2 ^ n) 2, Nat.mod_mul]
    omega

/-- The chunk EXTRACT takes from a byte is the field of its bits (rules R70 and R76). -/
theorem chunkOfByte_eq_fieldValue (m : Memory) (pos rem : Nat) :
    chunkOfByte pos rem (m.read (chunkIdx pos)) = fieldValue m pos (chunkSize pos rem) := by
  have h := chunkSize_le_left pos rem
  have h8 := chunkLeft_bounds pos
  rw [fieldValue_in_byte m pos _ (by unfold chunkLeft at h; omega), chunkOfByte_eq]
  rfl

/-! ## The byte INJECT writes -/

theorem chunkMask_getLsbD (pos rem q : Nat) :
    (chunkMask pos rem).getLsbD q = decide (chunkShift pos rem ≤ q ∧ q < chunkShift pos rem + chunkSize pos rem) := by
  have h8 := chunkLeft_bounds pos
  have hs := chunkShift_add_size pos rem
  rw [chunkMask, BitVec.getLsbD_ofNat, Nat.testBit_shiftLeft, mask, Nat.testBit_two_pow_sub_one]
  by_cases h1 : chunkShift pos rem ≤ q <;> by_cases h2 : q < chunkShift pos rem + chunkSize pos rem <;>
    simp [h1, h2] <;> omega

/-- Each bit of the merged byte: the chunk's bits come from the value, every other bit from the byte read (rule R82). -/
theorem mergedByte_getLsbD (pos rem : Nat) (v : Word) (b : Byte) (q : Nat) (hq : q < 8) :
    (mergedByte pos rem v b).getLsbD q =
      if chunkShift pos rem ≤ q ∧ q < chunkShift pos rem + chunkSize pos rem
      then v.toNat.testBit (rem - chunkSize pos rem + (q - chunkShift pos rem)) else b.getLsbD q := by
  rw [mergedByte, BitVec.getLsbD_or, BitVec.getLsbD_and, BitVec.getLsbD_not, chunkMask_getLsbD, BitVec.getLsbD_ofNat,
    Nat.testBit_shiftLeft, chunkOfValue_eq, Nat.testBit_mod_two_pow, Nat.testBit_div_two_pow]
  have : q - chunkShift pos rem + (rem - chunkSize pos rem) = rem - chunkSize pos rem + (q - chunkShift pos rem) := by
    omega
  rw [this]
  by_cases h1 : chunkShift pos rem ≤ q <;> by_cases h2 : q < chunkShift pos rem + chunkSize pos rem
  · simp [h1, h2, hq, show q - chunkShift pos rem < chunkSize pos rem by omega]
  · simp [h1, h2, hq, show ¬ q - chunkShift pos rem < chunkSize pos rem by omega]
  · simp [h1, hq]
  · simp [h1, hq]

end Sys2Proof.Machine
end

