-- ==== Sys2Proof/Laws/State.lean ====
section
/-! SUPPORT. One lemma per field per update, true by rfl: no later proof unfolds a record update. -/

namespace Sys2Proof.Machine

variable (s : State) (e : Engine) (a : Act) (cmd : CmdWord) (ws : List CmdWord) (c : Code) (r : Word)

/-! ## setEng and record -/

@[simp] theorem setEng_eng : (s.setEng e).eng = e := rfl
@[simp] theorem setEng_before : (s.setEng e).before = s.before := rfl
@[simp] theorem setEng_after : (s.setEng e).after = s.after := rfl
@[simp] theorem setEng_mem : (s.setEng e).mem = s.mem := rfl
@[simp] theorem setEng_inputs : (s.setEng e).inputs = s.inputs := rfl
@[simp] theorem setEng_trace : (s.setEng e).trace = s.trace := rfl
@[simp] theorem setEng_free : (s.setEng e).free = s.free := rfl
@[simp] theorem setEng_self : (s.setEng e).self = s.self := rfl
@[simp] theorem setEng_engines : (s.setEng e).engines = s.before ++ e :: s.after := rfl

@[simp] theorem record_eng : (s.record a).eng = s.eng := rfl
@[simp] theorem record_before : (s.record a).before = s.before := rfl
@[simp] theorem record_after : (s.record a).after = s.after := rfl
@[simp] theorem record_mem : (s.record a).mem = s.mem := rfl
@[simp] theorem record_inputs : (s.record a).inputs = s.inputs := rfl
@[simp] theorem record_trace : (s.record a).trace = a :: s.trace := rfl
@[simp] theorem record_free : (s.record a).free = s.free := rfl
@[simp] theorem record_self : (s.record a).self = s.self := rfl
@[simp] theorem record_engines : (s.record a).engines = s.engines := rfl

/-! ## forgetWork and forgetRsp -/

@[simp] theorem forgetWork_eng : s.forgetWork.eng = { s.eng with work := Work.unspecified s.free } := rfl
@[simp] theorem forgetWork_before : s.forgetWork.before = s.before := rfl
@[simp] theorem forgetWork_after : s.forgetWork.after = s.after := rfl
@[simp] theorem forgetWork_mem : s.forgetWork.mem = s.mem := rfl
@[simp] theorem forgetWork_inputs : s.forgetWork.inputs = s.inputs := rfl
@[simp] theorem forgetWork_trace : s.forgetWork.trace = s.trace := rfl
@[simp] theorem forgetWork_free : s.forgetWork.free = s.free + 8 := rfl
@[simp] theorem forgetWork_self : s.forgetWork.self = s.self := rfl

@[simp] theorem forgetRsp_eng : s.forgetRsp.eng = { s.eng with rsp := Rsp.unspecified s.free } := rfl
@[simp] theorem forgetRsp_before : s.forgetRsp.before = s.before := rfl
@[simp] theorem forgetRsp_after : s.forgetRsp.after = s.after := rfl
@[simp] theorem forgetRsp_mem : s.forgetRsp.mem = s.mem := rfl
@[simp] theorem forgetRsp_inputs : s.forgetRsp.inputs = s.inputs := rfl
@[simp] theorem forgetRsp_trace : s.forgetRsp.trace = s.trace := rfl
@[simp] theorem forgetRsp_free : s.forgetRsp.free = s.free + 2 := rfl
@[simp] theorem forgetRsp_self : s.forgetRsp.self = s.self := rfl

/-! ## The command lifecycle -/

@[simp] theorem takeWord_eng : (takeWord cmd ws s).eng = { s.eng with port := ws } := rfl
@[simp] theorem takeWord_before : (takeWord cmd ws s).before = s.before := rfl
@[simp] theorem takeWord_after : (takeWord cmd ws s).after = s.after := rfl
@[simp] theorem takeWord_mem : (takeWord cmd ws s).mem = s.mem := rfl
@[simp] theorem takeWord_inputs : (takeWord cmd ws s).inputs = s.inputs := rfl
@[simp] theorem takeWord_trace : (takeWord cmd ws s).trace = .command s.self cmd :: s.trace := rfl
@[simp] theorem takeWord_free : (takeWord cmd ws s).free = s.free := rfl
@[simp] theorem takeWord_self : (takeWord cmd ws s).self = s.self := rfl

section
variable (op : Op) (o : Word) (n : Count) (v l : Word)

@[simp] theorem startRun_phase : (startRun op o n v l s).eng.phase = .run := rfl
@[simp] theorem startRun_work : (startRun op o n v l s).eng.work =
    { op := op, pos := o.setWidth 33, rem := n, acc := 0, val := v, len := l, step := .read,
      byte := Config.freeValue s.free 8 } := rfl
@[simp] theorem startRun_err : (startRun op o n v l s).eng.err = s.eng.err := rfl
@[simp] theorem startRun_lastCode : (startRun op o n v l s).eng.lastCode = s.eng.lastCode := rfl
@[simp] theorem startRun_result : (startRun op o n v l s).eng.result = s.eng.result := rfl
@[simp] theorem startRun_rsp : (startRun op o n v l s).eng.rsp = s.eng.rsp := rfl
@[simp] theorem startRun_port : (startRun op o n v l s).eng.port = s.eng.port := rfl
@[simp] theorem startRun_before : (startRun op o n v l s).before = s.before := rfl
@[simp] theorem startRun_after : (startRun op o n v l s).after = s.after := rfl
@[simp] theorem startRun_mem : (startRun op o n v l s).mem = s.mem := rfl
@[simp] theorem startRun_inputs : (startRun op o n v l s).inputs = s.inputs := rfl
@[simp] theorem startRun_trace : (startRun op o n v l s).trace = s.trace := rfl
@[simp] theorem startRun_free : (startRun op o n v l s).free = s.free + 1 := rfl
@[simp] theorem startRun_self : (startRun op o n v l s).self = s.self := rfl
end

@[simp] theorem enterResp_phase : (enterResp c r s).eng.phase = .resp := rfl
@[simp] theorem enterResp_rsp : (enterResp c r s).eng.rsp = { code := codeBits c, result := r } := rfl
@[simp] theorem enterResp_lastCode : (enterResp c r s).eng.lastCode = codeBits c := rfl
@[simp] theorem enterResp_result : (enterResp c r s).eng.result = r := rfl
@[simp] theorem enterResp_err : (enterResp c r s).eng.err = errAfter s.eng.err c := rfl
@[simp] theorem enterResp_work : (enterResp c r s).eng.work = s.eng.work := rfl
@[simp] theorem enterResp_port : (enterResp c r s).eng.port = s.eng.port := rfl
@[simp] theorem enterResp_before : (enterResp c r s).before = s.before := rfl
@[simp] theorem enterResp_after : (enterResp c r s).after = s.after := rfl
@[simp] theorem enterResp_mem : (enterResp c r s).mem = s.mem := rfl
@[simp] theorem enterResp_inputs : (enterResp c r s).inputs = s.inputs := rfl
@[simp] theorem enterResp_trace : (enterResp c r s).trace = s.trace := rfl
@[simp] theorem enterResp_free : (enterResp c r s).free = s.free := rfl
@[simp] theorem enterResp_self : (enterResp c r s).self = s.self := rfl

@[simp] theorem finish_phase : (finish s).eng.phase = .resp := rfl
@[simp] theorem finish_rsp : (finish s).eng.rsp = { code := 0, result := (finish s).eng.result } := rfl
@[simp] theorem finish_lastCode : (finish s).eng.lastCode = 0 := rfl
theorem finish_result : (finish s).eng.result =
    match s.eng.work.op with | .extract => s.eng.work.acc | .inject => 0 := rfl
@[simp] theorem finish_port : (finish s).eng.port = s.eng.port := rfl
@[simp] theorem finish_before : (finish s).before = s.before := rfl
@[simp] theorem finish_after : (finish s).after = s.after := rfl
@[simp] theorem finish_mem : (finish s).mem = s.mem := rfl
@[simp] theorem finish_inputs : (finish s).inputs = s.inputs := rfl
@[simp] theorem finish_trace : (finish s).trace = s.trace := rfl
@[simp] theorem finish_self : (finish s).self = s.self := rfl
@[simp] theorem finish_err : (finish s).eng.err = s.eng.err := by simp [finish, errAfter]

@[simp] theorem deliver_phase : (deliver s).eng.phase = .idle := rfl
@[simp] theorem deliver_err : (deliver s).eng.err = s.eng.err := rfl
@[simp] theorem deliver_lastCode : (deliver s).eng.lastCode = s.eng.lastCode := rfl
@[simp] theorem deliver_result : (deliver s).eng.result = s.eng.result := rfl
@[simp] theorem deliver_work : (deliver s).eng.work = s.eng.work := rfl
@[simp] theorem deliver_port : (deliver s).eng.port = s.eng.port := rfl
@[simp] theorem deliver_before : (deliver s).before = s.before := rfl
@[simp] theorem deliver_after : (deliver s).after = s.after := rfl
@[simp] theorem deliver_mem : (deliver s).mem = s.mem := rfl
@[simp] theorem deliver_inputs : (deliver s).inputs = s.inputs := rfl
@[simp] theorem deliver_trace : (deliver s).trace = .response s.self s.eng.rsp.word :: s.trace := rfl
@[simp] theorem deliver_self : (deliver s).self = s.self := rfl

@[simp] theorem resetEngine_phase : (resetEngine s).eng.phase = .idle := rfl
@[simp] theorem resetEngine_err : (resetEngine s).eng.err = false := rfl
@[simp] theorem resetEngine_lastCode : (resetEngine s).eng.lastCode = 0 := rfl
@[simp] theorem resetEngine_result : (resetEngine s).eng.result = 0 := rfl
@[simp] theorem resetEngine_port : (resetEngine s).eng.port = s.eng.port := rfl
@[simp] theorem resetEngine_before : (resetEngine s).before = s.before := rfl
@[simp] theorem resetEngine_after : (resetEngine s).after = s.after := rfl
@[simp] theorem resetEngine_mem : (resetEngine s).mem = s.mem := rfl
@[simp] theorem resetEngine_inputs : (resetEngine s).inputs = s.inputs := rfl
@[simp] theorem resetEngine_trace : (resetEngine s).trace = .reset s.self :: s.trace := rfl
@[simp] theorem resetEngine_self : (resetEngine s).self = s.self := rfl

/-! ## The status bits -/

@[simp] theorem codeBits_ok : codeBits .ok = 0 := rfl
@[simp] theorem errAfter_ok (err : Bool) : errAfter err .ok = err := by simp [errAfter]
theorem errAfter_of_ne_ok (err : Bool) {c : Code} (h : c ≠ .ok) : errAfter err c = true := by simp [errAfter, h]
theorem codeBits_le (c : Code) : (codeBits c).toNat ≤ 4 := by cases c <;> decide
theorem codeBits_eq_zero (c : Code) : codeBits c = 0 ↔ c = .ok := by cases c <;> decide

/-! ## Bringing an engine to the front -/

/-- What `focus` answers: the engine at that position in front, the same engines in the same order. -/
theorem focus_eq_some {s t : State} {n : Nat} (h : s.focus n = some t) :
    t.engines = s.engines ∧ t.self = n ∧ s.engines[n]? = some t.eng ∧ t.mem = s.mem ∧ t.inputs = s.inputs ∧
      t.trace = s.trace ∧ t.free = s.free := by
  unfold State.focus at h
  split at h
  · cases h
  · next e rest hd =>
    have hn : n < s.engines.length := by
      by_contra hc
      rw [List.drop_eq_nil_of_le (by omega)] at hd
      cases hd
    cases h
    refine ⟨?_, ?_, ?_, rfl, rfl, rfl, rfl⟩
    · show s.engines.take n ++ e :: rest = s.engines
      rw [← hd, List.take_append_drop]
    · show (s.engines.take n).length = n
      rw [List.length_take]; omega
    · have := congrArg (·[0]?) hd
      simpa using this

/-- An engine that is on the platform can be brought to the front. -/
theorem focus_of_getElem? {s : State} {n : Nat} {e : Engine} (h : s.engines[n]? = some e) :
    ∃ t, s.focus n = some t ∧ t.eng = e := by
  unfold State.focus
  split
  · next hd =>
    have : s.engines.length ≤ n := List.drop_eq_nil_iff.mp hd
    rw [List.getElem?_eq_none this] at h
    cases h
  · next e' rest hd =>
    have := congrArg (·[0]?) hd
    simp [h] at this
    exact ⟨_, rfl, this.symm⟩

/-- The engine in front is in front already. -/
@[simp] theorem focus_self (s : State) : s.focus s.self = some s := by
  simp [State.focus, State.engines, State.self]

@[simp] theorem engines_self (s : State) : s.engines[s.self]? = some s.eng := by
  simp [State.engines, State.self]

/-- The engines after the one in front is replaced. -/
theorem engines_setEng_getElem? (s : State) (e : Engine) (m : Nat) :
    (s.setEng e).engines[m]? = if m = s.self then some e else s.engines[m]? := by
  simp only [State.engines, setEng_before, setEng_eng, setEng_after, State.self, List.getElem?_append,
    List.getElem?_cons]
  by_cases h : m = s.before.length
  · simp [h]
  · rw [if_neg h]
    by_cases h' : m < s.before.length
    · simp [h']
    · rw [if_neg h', if_neg h', if_neg (by omega), if_neg (by omega)]

end Sys2Proof.Machine
end

