-- ==== Sys2Proof/Laws/Ops.lean ====
section
/-! SUPPORT. What each shared operation can do, said once: the memory port, the chunk steps, the two chunk loops, and what
each meaning answers. -/

namespace Sys2Proof.Machine

/-! ## The memory port -/

theorem memRead_of_lt {s : State} {i : Nat} (h : i < s.mem.size) (who : Agent) :
    memRead who i s = some (s.mem.read i, s.record (.load who i (s.mem.read i))) := if_pos h

theorem memRead_of_ge {s : State} {i : Nat} (h : s.mem.size ≤ i) (who : Agent) : memRead who i s = none :=
  if_neg (by omega)

theorem memWrite_of_lt {s : State} {i : Nat} (h : i < s.mem.size) (who : Agent) (v : Byte) :
    memWrite who i v s = some { s with mem := s.mem.write i v, trace := .store who i v :: s.trace } := if_pos h

theorem memWrite_of_ge {s : State} {i : Nat} (h : s.mem.size ≤ i) (who : Agent) (v : Byte) :
    memWrite who i v s = none := if_neg (by omega)

/-! ## The chunk steps (rules R81 and R89) -/

/-- The state after an EXTRACT chunk that is in memory. -/
def afterExtractChunk (s : State) : State :=
  { s with
    trace := .load (.engine s.self) s.eng.work.idx (s.mem.read s.eng.work.idx) :: s.trace
    eng := { s.eng with work := { s.eng.work.advance with
      acc := accumulated s.eng.work.pos.toNat s.eng.work.rem.toNat s.eng.work.acc (s.mem.read s.eng.work.idx) } } }

theorem extractChunk_of_lt {s : State} (h : s.eng.work.idx < s.mem.size) :
    extractChunk s = some (afterExtractChunk s) := by
  simp only [extractChunk, memRead_of_lt h]; rfl

theorem extractChunk_of_ge {s : State} (h : s.mem.size ≤ s.eng.work.idx) : extractChunk s = none := by
  simp only [extractChunk, memRead_of_ge h]

theorem injectRead_of_lt {s : State} (h : s.eng.work.idx < s.mem.size) :
    injectRead s = some
      { s with
        trace := .load (.engine s.self) s.eng.work.idx (s.mem.read s.eng.work.idx) :: s.trace
        eng := { s.eng with work := { s.eng.work with byte := s.mem.read s.eng.work.idx, step := .write } } } := by
  simp only [injectRead, memRead_of_lt h]; rfl

theorem injectRead_of_ge {s : State} (h : s.mem.size ≤ s.eng.work.idx) : injectRead s = none := by
  simp only [injectRead, memRead_of_ge h]

theorem injectWrite_of_lt {s : State} (h : s.eng.work.idx < s.mem.size) :
    injectWrite s = some
      { s with
        mem := s.mem.write s.eng.work.idx
          (mergedByte s.eng.work.pos.toNat s.eng.work.rem.toNat s.eng.work.val s.eng.work.byte)
        trace := .store (.engine s.self) s.eng.work.idx
          (mergedByte s.eng.work.pos.toNat s.eng.work.rem.toNat s.eng.work.val s.eng.work.byte) :: s.trace
        eng := { s.eng with work := { s.eng.work.advance with step := .read } } } := by
  simp only [injectWrite, memWrite_of_lt h]; rfl

theorem injectWrite_of_ge {s : State} (h : s.mem.size ≤ s.eng.work.idx) : injectWrite s = none := by
  simp only [injectWrite, memWrite_of_ge h]

/-- The byte the next INJECT chunk writes back, from the byte in memory now. -/
def nextByte (s : State) : Byte :=
  mergedByte s.eng.work.pos.toNat s.eng.work.rem.toNat s.eng.work.val (s.mem.read s.eng.work.idx)

/-- The state after an INJECT chunk that is in memory. -/
def afterInjectChunk (s : State) : State :=
  { s with
    mem := s.mem.write s.eng.work.idx (nextByte s)
    trace := .store (.engine s.self) s.eng.work.idx (nextByte s) ::
      .load (.engine s.self) s.eng.work.idx (s.mem.read s.eng.work.idx) :: s.trace
    eng := { s.eng with work := { s.eng.work.advance with byte := s.mem.read s.eng.work.idx, step := .read } } }

theorem injectChunk_of_lt {s : State} (h : s.eng.work.idx < s.mem.size) :
    injectChunk s = some (afterInjectChunk s) := by
  simp only [injectChunk, injectRead_of_lt h]
  rw [injectWrite_of_lt (by exact h)]
  rfl

theorem injectChunk_of_ge {s : State} (h : s.mem.size ≤ s.eng.work.idx) : injectChunk s = none := by
  simp only [injectChunk, injectRead_of_ge h]

/-! ## The registers after a chunk (rule R71) -/

theorem advance_rem_toNat (w : Work) :
    w.advance.rem.toNat = w.rem.toNat - chunkSize w.pos.toNat w.rem.toNat := by
  have := w.rem.isLt
  simp only [Work.advance, BitVec.toNat_ofNat]
  exact Nat.mod_eq_of_lt (by omega)

/-- `pos` does not wrap while the field ends where rule R17 says it does. -/
theorem advance_pos_toNat {w : Work} (h : w.pos.toNat + w.rem.toNat ≤ 2 ^ 32 - 1 + 32) :
    w.advance.pos.toNat = w.pos.toNat + chunkSize w.pos.toNat w.rem.toNat := by
  have := chunkSize_le_rem w.pos.toNat w.rem.toNat
  simp only [Work.advance, BitVec.toNat_ofNat]
  exact Nat.mod_eq_of_lt (by omega)

theorem rem_toNat_pos {w : Work} (h : w.rem ≠ 0) : 1 ≤ w.rem.toNat := by
  rcases Nat.eq_zero_or_pos w.rem.toNat with h0 | h0
  · exact absurd (BitVec.eq_of_toNat_eq h0) h
  · exact h0

/-! ## The span of what remains -/

/-- How many chunks remain (rule R72). -/
def chunksLeft (pos rem : Nat) : Nat := if rem = 0 then 0 else chunkCount pos rem

theorem chunksLeft_zero (pos : Nat) : chunksLeft pos 0 = 0 := rfl

/-- A chunk takes one from the chunks that remain, and they go on at the next byte (rules R71, R74). -/
theorem chunksLeft_step {pos rem : Nat} (h : 1 ≤ rem) :
    chunksLeft pos rem = chunksLeft (pos + chunkSize pos rem) (rem - chunkSize pos rem) + 1 ∧
      (chunkSize pos rem < rem → (pos + chunkSize pos rem) / 8 = pos / 8 + 1) ∧
      (chunkSize pos rem < rem → spanLast (pos + chunkSize pos rem) (rem - chunkSize pos rem) = spanLast pos rem) := by
  unfold chunksLeft chunkCount spanLast
  by_cases hk : chunkSize pos rem < rem
  · have h8 : (pos + chunkSize pos rem) / 8 = pos / 8 + 1 := by unfold chunkSize chunkLeft at *; omega
    rw [if_neg (by omega), if_neg (by omega), h8]
    refine ⟨?_, fun _ => rfl, fun _ => ?_⟩ <;> omega
  · have hr := chunkSize_le_rem pos rem
    rw [if_neg (by omega), if_pos (by omega)]
    refine ⟨?_, fun h' => absurd h' hk, fun h' => absurd h' hk⟩
    unfold chunkSize chunkLeft at *; omega

theorem idx_le_spanLast {pos rem : Nat} (h : 1 ≤ rem) : chunkIdx pos ≤ spanLast pos rem := by
  unfold chunkIdx spanLast; omega

/-! ## The records of the loops -/

theorem loadsFrom_succ' (who : Agent) (m : Memory) (b n : Nat) :
    loadsFrom who m b (n + 1) = loadsFrom who m (b + 1) n ++ [.load who b (m.read b)] := by
  induction n with
  | zero => rfl
  | succ n ih =>
    rw [loadsFrom, ih, loadsFrom, List.cons_append, show b + (n + 1) = b + 1 + n by omega]

theorem loadsAndStoresFrom_succ' (who : Agent) (m t : Memory) (b n : Nat) :
    loadsAndStoresFrom who m t b (n + 1) =
      loadsAndStoresFrom who m t (b + 1) n ++ [.store who b (t.read b), .load who b (m.read b)] := by
  induction n with
  | zero => rfl
  | succ n ih =>
    rw [loadsAndStoresFrom, ih, loadsAndStoresFrom, List.cons_append, List.cons_append,
      show b + (n + 1) = b + 1 + n by omega]

theorem loadsAndStoresFrom_congr (who : Agent) {m m' t : Memory} {b : Nat} (n : Nat)
    (h : ∀ i, b ≤ i → m.read i = m'.read i) : loadsAndStoresFrom who m t b n = loadsAndStoresFrom who m' t b n := by
  induction n with
  | zero => rfl
  | succ n ih => rw [loadsAndStoresFrom, loadsAndStoresFrom, ih, h (b + n) (by omega)]

/-! ## The chunk loop of EXTRACT (rule R77) -/

/-- No bit of `acc` is lost (rule R77): it takes in the field of the chunk, and stays below 2^(bits read). -/
theorem accumulated_toNat {m : Memory} {pos rem : Nat} {acc : Word} (hr : rem ≤ 32)
    (ha : acc.toNat < 2 ^ (32 - rem)) :
    (accumulated pos rem acc (m.read (chunkIdx pos))).toNat =
        acc.toNat * 2 ^ chunkSize pos rem + fieldValue m pos (chunkSize pos rem) ∧
      (accumulated pos rem acc (m.read (chunkIdx pos))).toNat < 2 ^ (32 - (rem - chunkSize pos rem)) := by
  have hk := chunkSize_le_rem pos rem
  have hlt := fieldValue_lt m pos (chunkSize pos rem)
  have hb : acc.toNat * 2 ^ chunkSize pos rem + fieldValue m pos (chunkSize pos rem) <
      2 ^ (32 - (rem - chunkSize pos rem)) := by
    rw [show 32 - (rem - chunkSize pos rem) = (32 - rem) + chunkSize pos rem by omega, Nat.pow_add]
    have := Nat.mul_le_mul_right (2 ^ chunkSize pos rem) (show acc.toNat + 1 ≤ 2 ^ (32 - rem) by omega)
    rw [Nat.add_mul] at this
    omega
  have he : (accumulated pos rem acc (m.read (chunkIdx pos))).toNat =
      acc.toNat * 2 ^ chunkSize pos rem + fieldValue m pos (chunkSize pos rem) := by
    rw [accumulated_eq, chunkOfByte_eq_fieldValue, BitVec.toNat_ofNat]
    exact Nat.mod_eq_of_lt (Nat.lt_of_lt_of_le hb (Nat.pow_le_pow_right (by omega) (by omega)))
  exact ⟨he, he ▸ hb⟩

/-- Where every byte that remains is in memory, the loop ends with no bits left; `acc` has taken in the field that remained,
each of its bytes was read once in ascending order, and nothing else but the working registers has changed. -/
theorem extractLoop_completes (fuel : Nat) (s : State) (hf : s.eng.work.rem.toNat ≤ fuel)
    (hr : s.eng.work.rem.toNat ≤ 32) (hp : s.eng.work.pos.toNat + s.eng.work.rem.toNat ≤ 2 ^ 32 - 1 + 32)
    (ha : s.eng.work.acc.toNat < 2 ^ (32 - s.eng.work.rem.toNat))
    (hs : s.eng.work.rem = 0 ∨ spanLast s.eng.work.pos.toNat s.eng.work.rem.toNat < s.mem.size) :
    ∃ w, extractLoop fuel s = some
        { s with
          eng := { s.eng with work := w }
          trace := loadsFrom (.engine s.self) s.mem (spanFirst s.eng.work.pos.toNat)
            (chunksLeft s.eng.work.pos.toNat s.eng.work.rem.toNat) ++ s.trace } ∧
      w.rem = 0 ∧ w.op = s.eng.work.op ∧
      w.acc.toNat = s.eng.work.acc.toNat * 2 ^ s.eng.work.rem.toNat +
        fieldValue s.mem s.eng.work.pos.toNat s.eng.work.rem.toNat := by
  induction fuel generalizing s with
  | zero =>
    have h0 : s.eng.work.rem = 0 := BitVec.eq_of_toNat_eq (by simpa using hf)
    exact ⟨s.eng.work, by simp [extractLoop, h0, chunksLeft, loadsFrom], h0, rfl, by simp [h0]⟩
  | succ fuel ih =>
    by_cases h0 : s.eng.work.rem = 0
    · exact ⟨s.eng.work, by simp [extractLoop, h0, chunksLeft, loadsFrom], h0, rfl, by simp [h0]⟩
    · have h1 := rem_toNat_pos h0
      have hidx : s.eng.work.idx < s.mem.size := Nat.lt_of_le_of_lt (idx_le_spanLast h1) (hs.resolve_left h0)
      have hk := chunkSize_le_rem s.eng.work.pos.toNat s.eng.work.rem.toNat
      have hk1 := chunkSize_pos s.eng.work.pos.toNat h1
      obtain ⟨hc, hnext, hlast⟩ := chunksLeft_step (pos := s.eng.work.pos.toNat) h1
      obtain ⟨hacc, hacclt⟩ := accumulated_toNat (m := s.mem) (pos := s.eng.work.pos.toNat) hr ha
      have hrem : (afterExtractChunk s).eng.work.rem.toNat = _ := advance_rem_toNat s.eng.work
      have hpos : (afterExtractChunk s).eng.work.pos.toNat = _ := advance_pos_toNat hp
      obtain ⟨w, hw, hw0, hwop, hwacc⟩ := ih (afterExtractChunk s) (by omega) (by omega) (by omega)
        (by rw [hrem]; exact hacclt)
        (by
          by_cases hlt : chunkSize s.eng.work.pos.toNat s.eng.work.rem.toNat < s.eng.work.rem.toNat
          · right; rw [hrem, hpos, hlast hlt]; exact hs.resolve_left h0
          · left; exact BitVec.eq_of_toNat_eq (by rw [hrem]; simp; omega))
      refine ⟨w, ?_, hw0, hwop, ?_⟩
      · rw [extractLoop, if_neg h0, extractChunk_of_lt hidx]
        show extractLoop fuel (afterExtractChunk s) = _
        rw [hw, hrem, hpos, hc, loadsFrom_succ', List.append_assoc]
        by_cases hlt : chunkSize s.eng.work.pos.toNat s.eng.work.rem.toNat < s.eng.work.rem.toNat
        · rw [show spanFirst (s.eng.work.pos.toNat + chunkSize s.eng.work.pos.toNat s.eng.work.rem.toNat) =
            spanFirst s.eng.work.pos.toNat + 1 from hnext hlt]
          rfl
        · rw [show s.eng.work.rem.toNat - chunkSize s.eng.work.pos.toNat s.eng.work.rem.toNat = 0 by omega,
            chunksLeft_zero]
          rfl
      · have hsplit := fieldValue_add s.mem s.eng.work.pos.toNat
          (chunkSize s.eng.work.pos.toNat s.eng.work.rem.toNat)
          (s.eng.work.rem.toNat - chunkSize s.eng.work.pos.toNat s.eng.work.rem.toNat)
        rw [show chunkSize s.eng.work.pos.toNat s.eng.work.rem.toNat +
          (s.eng.work.rem.toNat - chunkSize s.eng.work.pos.toNat s.eng.work.rem.toNat) =
            s.eng.work.rem.toNat by omega] at hsplit
        have hpow : (2 : Nat) ^ s.eng.work.rem.toNat =
            2 ^ chunkSize s.eng.work.pos.toNat s.eng.work.rem.toNat *
              2 ^ (s.eng.work.rem.toNat - chunkSize s.eng.work.pos.toNat s.eng.work.rem.toNat) := by
          rw [← Nat.pow_add]; congr 1; omega
        have hacc' : (afterExtractChunk s).eng.work.acc.toNat = _ := hacc
        rw [hwacc, hrem, hpos, hacc', hsplit, hpow, Nat.add_mul, Nat.mul_assoc, Nat.add_assoc]
        rfl

/-- Where a byte that remains is not in memory, the loop does not end: the engine is stuck (rule R43). -/
theorem extractLoop_stuck (fuel : Nat) (s : State) (hf : s.eng.work.rem.toNat ≤ fuel)
    (hp : s.eng.work.pos.toNat + s.eng.work.rem.toNat ≤ 2 ^ 32 - 1 + 32) (h0 : s.eng.work.rem ≠ 0)
    (hs : s.mem.size ≤ spanLast s.eng.work.pos.toNat s.eng.work.rem.toNat) : extractLoop fuel s = none := by
  induction fuel generalizing s with
  | zero => exact absurd (BitVec.eq_of_toNat_eq (by simpa using hf)) h0
  | succ fuel ih =>
    have h1 := rem_toNat_pos h0
    have hk1 := chunkSize_pos s.eng.work.pos.toNat h1
    have hk := chunkSize_le_rem s.eng.work.pos.toNat s.eng.work.rem.toNat
    rw [extractLoop, if_neg h0]
    by_cases hidx : s.eng.work.idx < s.mem.size
    · rw [extractChunk_of_lt hidx]
      have hrem : (afterExtractChunk s).eng.work.rem.toNat = _ := advance_rem_toNat s.eng.work
      have hpos : (afterExtractChunk s).eng.work.pos.toNat = _ := advance_pos_toNat hp
      obtain ⟨-, -, hlast⟩ := chunksLeft_step (pos := s.eng.work.pos.toNat) h1
      have hlt : chunkSize s.eng.work.pos.toNat s.eng.work.rem.toNat < s.eng.work.rem.toNat := by
        simp only [Work.idx, chunkIdx, spanLast] at hidx hs
        unfold chunkSize chunkLeft at *
        omega
      refine ih (afterExtractChunk s) (by omega) (by omega) (fun h => ?_) ?_
      · rw [h] at hrem; simp at hrem; omega
      · rw [hrem, hpos, hlast hlt]; exact hs
    · rw [extractChunk_of_ge (by omega)]

/-! ## The chunk loop of INJECT (rule R82) -/

/-- Where every byte that remains is in memory, the loop ends with no bits left; the bits of the field are those of `val`, every
other bit and byte is as before, each byte of the span was read and then written once in ascending order, and nothing
else but the working registers has changed. -/
theorem injectLoop_completes (fuel : Nat) (s : State) (hwf : s.mem.wf = true) (hf : s.eng.work.rem.toNat ≤ fuel)
    (hp : s.eng.work.pos.toNat + s.eng.work.rem.toNat ≤ 2 ^ 32 - 1 + 32)
    (hs : s.eng.work.rem = 0 ∨ spanLast s.eng.work.pos.toNat s.eng.work.rem.toNat < s.mem.size) :
    ∃ w m, injectLoop fuel s = some
        { s with
          eng := { s.eng with work := w }
          mem := m
          trace := loadsAndStoresFrom (.engine s.self) s.mem m (spanFirst s.eng.work.pos.toNat)
            (chunksLeft s.eng.work.pos.toNat s.eng.work.rem.toNat) ++ s.trace } ∧
      w.rem = 0 ∧ w.op = s.eng.work.op ∧ m.wf = true ∧ m.size = s.mem.size ∧
      (∀ i, i < spanFirst s.eng.work.pos.toNat → m.read i = s.mem.read i) ∧
      ∀ i q, q < 8 → (m.read i).getLsbD q =
        if s.eng.work.pos.toNat ≤ 8 * i + (7 - q) ∧
            8 * i + (7 - q) < s.eng.work.pos.toNat + s.eng.work.rem.toNat
        then s.eng.work.val.toNat.testBit
          (s.eng.work.rem.toNat - 1 - (8 * i + (7 - q) - s.eng.work.pos.toNat))
        else (s.mem.read i).getLsbD q := by
  induction fuel generalizing s with
  | zero =>
    have h0 : s.eng.work.rem = 0 := BitVec.eq_of_toNat_eq (by simpa using hf)
    exact ⟨s.eng.work, s.mem, by simp [injectLoop, h0, chunksLeft, loadsAndStoresFrom], h0, rfl, hwf, rfl,
      fun _ _ => rfl, fun i q _ => by rw [if_neg (by rw [h0]; simp)]⟩
  | succ fuel ih =>
    by_cases h0 : s.eng.work.rem = 0
    · exact ⟨s.eng.work, s.mem, by simp [injectLoop, h0, chunksLeft, loadsAndStoresFrom], h0, rfl, hwf, rfl,
        fun _ _ => rfl, fun i q _ => by rw [if_neg (by rw [h0]; simp)]⟩
    · have h1 := rem_toNat_pos h0
      have hidx : s.eng.work.idx < s.mem.size := Nat.lt_of_le_of_lt (idx_le_spanLast h1) (hs.resolve_left h0)
      have hk := chunkSize_le_rem s.eng.work.pos.toNat s.eng.work.rem.toNat
      have hk1 := chunkSize_pos s.eng.work.pos.toNat h1
      have hl8 := chunkLeft_bounds s.eng.work.pos.toNat
      have hsh := chunkShift_add_size s.eng.work.pos.toNat s.eng.work.rem.toNat
      obtain ⟨hc, hnext, hlast⟩ := chunksLeft_step (pos := s.eng.work.pos.toNat) h1
      have hrem : (afterInjectChunk s).eng.work.rem.toNat = _ := advance_rem_toNat s.eng.work
      have hpos : (afterInjectChunk s).eng.work.pos.toNat = _ := advance_pos_toNat hp
      have hmem : (afterInjectChunk s).mem = s.mem.write s.eng.work.idx (nextByte s) := rfl
      have hval : (afterInjectChunk s).eng.work.val = s.eng.work.val := rfl
      obtain ⟨w, m, hw, hw0, hwop, hmwf, hmsize, hbelow, hbits⟩ := ih (afterInjectChunk s)
        (Memory.wf_write hwf hidx _) (by omega) (by omega)
        (by
          by_cases hlt : chunkSize s.eng.work.pos.toNat s.eng.work.rem.toNat < s.eng.work.rem.toNat
          · right; rw [hrem, hpos, hlast hlt]; exact hs.resolve_left h0
          · left; exact BitVec.eq_of_toNat_eq (by rw [hrem]; simp; omega))
      rw [hrem, hpos] at hbits
      have hidx' : s.eng.work.idx = s.eng.work.pos.toNat / 8 := rfl
      refine ⟨w, m, ?_, hw0, hwop, hmwf, hmsize, ?_, ?_⟩
      · rw [injectLoop, if_neg h0, injectChunk_of_lt hidx]
        show injectLoop fuel (afterInjectChunk s) = _
        rw [hw, hrem, hpos, hc, loadsAndStoresFrom_succ', List.append_assoc]
        have hfirst : m.read (spanFirst s.eng.work.pos.toNat) = nextByte s := by
          by_cases hlt : chunkSize s.eng.work.pos.toNat s.eng.work.rem.toNat < s.eng.work.rem.toNat
          · rw [hbelow _ (by rw [hpos]; have := hnext hlt; unfold spanFirst; omega), hmem]
            exact Memory.read_write_self hwf _ _
          · refine BitVec.eq_of_getLsbD_eq fun q hq => ?_
            rw [hbits _ q hq, if_neg (by omega), hmem]
            rw [show spanFirst s.eng.work.pos.toNat = s.eng.work.idx from rfl, Memory.read_write_self hwf]
        rw [hfirst]
        by_cases hlt : chunkSize s.eng.work.pos.toNat s.eng.work.rem.toNat < s.eng.work.rem.toNat
        · rw [show spanFirst (s.eng.work.pos.toNat + chunkSize s.eng.work.pos.toNat s.eng.work.rem.toNat) =
            spanFirst s.eng.work.pos.toNat + 1 from hnext hlt]
          rw [loadsAndStoresFrom_congr (m := (afterInjectChunk s).mem) (m' := s.mem) _ _ (fun i hi =>
            Memory.read_write_of_ne _ (by unfold spanFirst at hi; omega) _)]
          rfl
        · rw [show s.eng.work.rem.toNat - chunkSize s.eng.work.pos.toNat s.eng.work.rem.toNat = 0 by omega,
            chunksLeft_zero]
          rfl
      · intro i hi
        rw [hbelow i (by rw [hpos]; unfold spanFirst at *; omega), hmem]
        exact Memory.read_write_of_ne _ (by unfold spanFirst at hi; omega) _
      · intro i q hq
        rw [hbits i q hq, hval, hmem, Memory.read_write hwf]
        have hb := mergedByte_getLsbD s.eng.work.pos.toNat s.eng.work.rem.toNat s.eng.work.val
          (s.mem.read s.eng.work.idx) q hq
        by_cases hin : s.eng.work.pos.toNat + chunkSize s.eng.work.pos.toNat s.eng.work.rem.toNat ≤ 8 * i + (7 - q) ∧
            8 * i + (7 - q) < s.eng.work.pos.toNat + s.eng.work.rem.toNat
        · rw [if_pos (by omega), if_pos (by omega)]
          congr 1; omega
        · rw [if_neg (by omega)]
          by_cases hi : s.eng.work.idx = i
          · subst hi
            rw [if_pos rfl, nextByte, hb]
            unfold chunkLeft at *
            by_cases hch : chunkShift s.eng.work.pos.toNat s.eng.work.rem.toNat ≤ q ∧
                q < chunkShift s.eng.work.pos.toNat s.eng.work.rem.toNat +
                  chunkSize s.eng.work.pos.toNat s.eng.work.rem.toNat
            · rw [if_pos hch, if_pos (by omega)]
              congr 1; omega
            · rw [if_neg hch, if_neg (by omega)]
          · rw [if_neg hi, if_neg (by unfold chunkLeft at *; omega)]

/-- Where a byte that remains is not in memory, the loop does not end: the engine is stuck (rule R43). -/
theorem injectLoop_stuck (fuel : Nat) (s : State) (hf : s.eng.work.rem.toNat ≤ fuel)
    (hp : s.eng.work.pos.toNat + s.eng.work.rem.toNat ≤ 2 ^ 32 - 1 + 32) (h0 : s.eng.work.rem ≠ 0)
    (hs : s.mem.size ≤ spanLast s.eng.work.pos.toNat s.eng.work.rem.toNat) : injectLoop fuel s = none := by
  induction fuel generalizing s with
  | zero => exact absurd (BitVec.eq_of_toNat_eq (by simpa using hf)) h0
  | succ fuel ih =>
    have h1 := rem_toNat_pos h0
    have hk1 := chunkSize_pos s.eng.work.pos.toNat h1
    have hk := chunkSize_le_rem s.eng.work.pos.toNat s.eng.work.rem.toNat
    rw [injectLoop, if_neg h0]
    by_cases hidx : s.eng.work.idx < s.mem.size
    · rw [injectChunk_of_lt hidx]
      have hrem : (afterInjectChunk s).eng.work.rem.toNat = _ := advance_rem_toNat s.eng.work
      have hpos : (afterInjectChunk s).eng.work.pos.toNat = _ := advance_pos_toNat hp
      obtain ⟨-, -, hlast⟩ := chunksLeft_step (pos := s.eng.work.pos.toNat) h1
      have hlt : chunkSize s.eng.work.pos.toNat s.eng.work.rem.toNat < s.eng.work.rem.toNat := by
        simp only [Work.idx, chunkIdx, spanLast] at hidx hs
        unfold chunkSize chunkLeft at *
        omega
      refine ih (afterInjectChunk s) (by omega) (by omega) (fun h => ?_) ?_
      · rw [h] at hrem; simp at hrem; omega
      · rw [hrem, hpos, hlast hlt]; exact hs
    · rw [injectChunk_of_ge (by omega)]

end Sys2Proof.Machine
end

