-- ==== Sys2Proof/Laws/Exec.lean ====
section
/-! SUPPORT. What the two meanings answer, case by case, in terms of the shared operations. -/

namespace Sys2Proof.Machine

/-! ## Legal operands (rules R93 and R94) -/

theorem operandCode_eq_ok_iff (o : Word) (n : Count) (l : Word) :
    operandCode o n l = .ok ↔ 1 ≤ n.toNat ∧ n.toNat ≤ 32 ∧ o.toNat + n.toNat ≤ l.toNat * 8 := by
  unfold operandCode countLegal rangeLegal Config.countMin Config.countMax
  by_cases h1 : 1 ≤ n.toNat <;> by_cases h2 : n.toNat ≤ 32 <;> by_cases h3 : o.toNat + n.toNat ≤ l.toNat * 8 <;>
    simp [h1, h2, h3]

theorem operandCode_ne_ok {o : Word} {n : Count} {l : Word} (h : operandCode o n l ≠ .ok) :
    operandCode o n l = .badCount ∨ operandCode o n l = .range := by
  unfold operandCode at h ⊢
  cases hc : countLegal n <;> cases hr : rangeLegal o n l <;> simp [hc, hr] at h ⊢

/-- A command is legal exactly where its operand checks pass (rule R59). -/
theorem wellFormed_iff (i : Instr) : i.wellFormed = true ↔ i.operandCode = .ok := by
  cases i <;> simp only [Instr.wellFormed, Instr.operandCode, operandCode] <;>
    (cases countLegal _ <;> cases rangeLegal _ _ _ <;> simp)

theorem extract_wellFormed_iff (o : Word) (n : Count) (l : Word) :
    (Instr.extract o n l).wellFormed = true ↔ operandCode o n l = .ok := wellFormed_iff _

theorem inject_wellFormed_iff (o : Word) (n : Count) (v l : Word) :
    (Instr.inject o n v l).wellFormed = true ↔ operandCode o n l = .ok := wellFormed_iff _

/-! ## Where the command does not run -/

/-- An engine that is not IDLE does not take a command (rule R114). -/
theorem exec_of_busy {s : State} (h : s.eng.phase ≠ .idle) (i : Instr) : exec i s = .next s := by
  cases i <;> simp [exec, execExtract, execInject, h]

/-- A command whose operand check fails takes the fault (rule R95). -/
theorem exec_of_fault {s : State} (h : s.eng.phase = .idle) {i : Instr} (hi : i.operandCode ≠ .ok) :
    exec i s = .next (raiseFault i.operandCode s) := by
  cases i with
  | extract o n l =>
    simp only [Instr.operandCode] at hi ⊢
    rcases operandCode_ne_ok hi with hc | hc <;> simp [exec, execExtract, h, hc]
  | inject o n v l =>
    simp only [Instr.operandCode] at hi ⊢
    rcases operandCode_ne_ok hi with hc | hc <;> simp [exec, execInject, h, hc]

/-! ## Where it runs -/

/-- A legal EXTRACT whose span is in memory (rules R77 and R39): the state it finishes in. -/
theorem execExtract_runs {s : State} {o : Word} {n : Count} {l : Word} (h : s.eng.phase = .idle)
    (hc : operandCode o n l = .ok) (hs : spanLast o.toNat n.toNat < s.mem.size) :
    ∃ w : Work, exec (.extract o n l) s = .next (finish
        { s with
          eng := { s.eng with phase := .run, work := w }
          trace := loadsFrom (.engine s.self) s.mem (spanFirst o.toNat) (chunkCount o.toNat n.toNat) ++ s.trace
          free := s.free + 1 }) ∧
      w.op = .extract ∧ w.acc.toNat = fieldValue s.mem o.toNat n.toNat := by
  obtain ⟨h1, h2, h3⟩ := (operandCode_eq_ok_iff o n l).mp hc
  have hpos : (o.setWidth 33).toNat = o.toNat := by
    rw [BitVec.toNat_setWidth]; exact Nat.mod_eq_of_lt (by omega)
  obtain ⟨w, hl, -, hop, hacc⟩ := extractLoop_completes n.toNat (startExtract o n l s) (Nat.le_refl _) h2
    (by simp only [startExtract, startRun_work, hpos]; omega)
    (by simp only [startExtract, startRun_work]; exact Nat.two_pow_pos _)
    (by right; simpa only [startExtract, startRun_work, startRun_mem, hpos] using hs)
  simp only [startExtract, startRun_work, startRun_mem, startRun_trace, startRun_self, hpos] at hl hacc hop
  refine ⟨w, ?_, hop, by simpa using hacc⟩
  simp only [exec, execExtract, h, ne_eq, not_true_eq_false, if_false, hc, startExtract, hl, chunksLeft,
    if_neg (show ¬ n.toNat = 0 by omega)]
  rfl

/-- A legal INJECT whose span is in memory (rules R82 and R39): the state it finishes in, and its memory bit by bit (R84). -/
theorem execInject_runs {s : State} {o : Word} {n : Count} {v l : Word} (hwf : s.mem.wf = true)
    (h : s.eng.phase = .idle) (hc : operandCode o n l = .ok) (hs : spanLast o.toNat n.toNat < s.mem.size) :
    ∃ (w : Work) (m : Memory), exec (.inject o n v l) s = .next (finish
        { s with
          eng := { s.eng with phase := .run, work := w }
          mem := m
          trace := loadsAndStoresFrom (.engine s.self) s.mem m (spanFirst o.toNat)
            (chunkCount o.toNat n.toNat) ++ s.trace
          free := s.free + 1 }) ∧
      w.op = .inject ∧ m.wf = true ∧ m.size = s.mem.size ∧
      ∀ i q, q < 8 → (m.read i).getLsbD q =
        if o.toNat ≤ 8 * i + (7 - q) ∧ 8 * i + (7 - q) < o.toNat + n.toNat
        then v.toNat.testBit (n.toNat - 1 - (8 * i + (7 - q) - o.toNat)) else (s.mem.read i).getLsbD q := by
  obtain ⟨h1, h2, h3⟩ := (operandCode_eq_ok_iff o n l).mp hc
  have hpos : (o.setWidth 33).toNat = o.toNat := by
    rw [BitVec.toNat_setWidth]; exact Nat.mod_eq_of_lt (by omega)
  obtain ⟨w, m, hl, -, hop, hmwf, hmsz, -, hbits⟩ := injectLoop_completes n.toNat (startInject o n v l s) hwf
    (Nat.le_refl _)
    (by simp only [startInject, startRun_work, hpos]; omega)
    (by right; simpa only [startInject, startRun_work, startRun_mem, hpos] using hs)
  simp only [startInject, startRun_work, startRun_mem, startRun_trace, startRun_self, hpos] at hl hbits hop hmsz
  refine ⟨w, m, ?_, hop, hmwf, hmsz, fun i q hq => ?_⟩
  · simp only [exec, execInject, h, ne_eq, not_true_eq_false, if_false, hc, startInject, hl, chunksLeft,
      if_neg (show ¬ n.toNat = 0 by omega)]
    rfl
  · rw [hbits i q hq, maskedValue_toNat v n h2, Nat.testBit_mod_two_pow]
    by_cases hin : o.toNat ≤ 8 * i + (7 - q) ∧ 8 * i + (7 - q) < o.toNat + n.toNat
    · rw [if_pos hin, if_pos hin, decide_eq_true (by omega), Bool.true_and]
    · rw [if_neg hin, if_neg hin]

end Sys2Proof.Machine
end

