-- ==== Sys2Proof/Laws/PerInstr.lean ====
section
/-! SUPPORT. What holds of every command as syntax, one lemma for each constructor: its word is one of its row of
spec/opcode_table.json, and it has the command's operands in the fields of rule R52. -/

namespace Sys2Proof.Laws

/-- The word of a command: the row's match under the row's mask, and each operand in its field. -/
def EncodedRow.Statement (i : Instr) : Prop :=
  match i with
  | .extract offset count len =>
    encode i &&& 0xFFFFC0FF#128 = 0#128 ∧ cmdCount (encode i) = count ∧ cmdValue (encode i) = 0 ∧
      cmdOffset (encode i) = offset ∧ cmdLen (encode i) = len
  | .inject offset count value len =>
    encode i &&& 0xFFFFC0FF#128 = 1#128 ∧ cmdCount (encode i) = count ∧ cmdValue (encode i) = value ∧
      cmdOffset (encode i) = offset ∧ cmdLen (encode i) = len

/-- The fields of a word put together from its parts. -/
theorem EncodedRow.word (op : BitVec 2) (count : Count) (value offset len : Word) :
    cmdOfWords (ctrlWord op count) value offset len &&& 0xFFFFC0FF#128 = op.setWidth 128 ∧
      cmdCount (cmdOfWords (ctrlWord op count) value offset len) = count ∧
      cmdValue (cmdOfWords (ctrlWord op count) value offset len) = value ∧
      cmdOffset (cmdOfWords (ctrlWord op count) value offset len) = offset ∧
      cmdLen (cmdOfWords (ctrlWord op count) value offset len) = len := by
  have mask : ∀ p < 128, (0xFFFFC0FF#128).getLsbD p = decide (p < 8 ∨ (14 ≤ p ∧ p < 32)) := by decide
  refine ⟨?_, ?_, ?_, ?_, ?_⟩ <;> apply BitVec.eq_of_getLsbD_eq <;> intro p hp
  · rw [BitVec.getLsbD_and, mask p hp, cmdOfWords_getLsbD, ctrlWord_getLsbD, BitVec.getLsbD_setWidth]
    by_cases h1 : p < 2
    · simp [h1, show p < 32 by omega, show p < 8 by omega, hp]
    · rw [BitVec.getLsbD_of_ge op p (by omega)]
      (repeat' split) <;> simp <;> omega
  · rw [cmdCount, BitVec.getLsbD_extractLsb', cmdOfWords_getLsbD, if_pos (by omega), ctrlWord_getLsbD,
      if_neg (by omega), if_neg (by omega), if_pos (by omega), Nat.add_sub_cancel_left]
    simp [hp]
  · simp [cmdValue, cmdOfWords_getLsbD, hp, show 32 + p < 64 by omega]
  · simp [cmdOffset, cmdOfWords_getLsbD, hp, show ¬ 64 + p < 32 by omega, show 64 + p < 96 by omega]
  · simp [cmdLen, cmdOfWords_getLsbD, hp, show ¬ 96 + p < 32 by omega, show ¬ 96 + p < 64 by omega]

theorem EncodedRow.extract (offset : Word) (count : Count) (len : Word) :
    EncodedRow.Statement (.extract offset count len) := EncodedRow.word 0 count 0 offset len

theorem EncodedRow.inject (offset : Word) (count : Count) (value len : Word) :
    EncodedRow.Statement (.inject offset count value len) := EncodedRow.word 1 count value offset len

end Sys2Proof.Laws
end

