-- ==== Sys2Proof/Laws/Record.lean ====
section
/-! SUPPORT. The last command of an engine in a record of transfers (rule R113). -/

namespace Sys2Proof.Machine

@[simp] theorem lastAnswered_nil (n : Nat) : lastAnswered n [] = true := rfl

@[simp] theorem lastAnswered_command_self (n : Nat) (cmd : CmdWord) (acts : List Act) :
    lastAnswered n (.command n cmd :: acts) = false := by simp [lastAnswered]

@[simp] theorem lastAnswered_response_self (n : Nat) (w : RspWord) (acts : List Act) :
    lastAnswered n (.response n w :: acts) = true := by simp [lastAnswered]

/-- A reset answers nothing. -/
@[simp] theorem lastAnswered_reset (n m : Nat) (acts : List Act) :
    lastAnswered n (.reset m :: acts) = lastAnswered n acts := rfl

/-- An engine with a command outstanding has not ended its last command. -/
theorem lastAnswered_of_outstanding {n : Nat} {acts : List Act} (h : outstanding n acts = some true) :
    lastAnswered n acts = false := by
  induction acts with
  | nil => simp [outstanding] at h
  | cons a earlier ih =>
    cases a with
    | command m cmd =>
      by_cases hm : m = n
      · subst hm; exact lastAnswered_command_self ..
      · simp only [outstanding, lastAnswered, hm, if_false] at h ⊢; exact ih h
    | response m w =>
      by_cases hm : m = n
      · simp [outstanding, hm] at h
      · simp only [outstanding, lastAnswered, hm, if_false] at h ⊢; exact ih h
    | reset m =>
      by_cases hm : m = n
      · simp [outstanding, hm] at h
      · simp only [outstanding, lastAnswered, hm, if_false] at h ⊢; exact ih h
    | load who i v =>
      refine ih ?_
      cases who <;> simp only [outstanding] at h
      · split at h
        · cases h
        · exact h
      · exact h
    | store who i v =>
      refine ih ?_
      cases who <;> simp only [outstanding] at h
      · split at h
        · cases h
        · exact h
      · exact h
    | status => exact ih h
    | result => exact ih h

end Sys2Proof.Machine
end

