-- ==== Sys2Proof/Laws/Step.lean ====
section
/-! SUPPORT. What a step can do, said once: the events, the moves of an engine, and the induction over the chunk steps of a
whole command. -/

namespace Sys2Proof.Machine

/-! ## Events -/

/-- A step is the next event, or nothing where no event is to come. -/
theorem step_cons {s : State} {ev : Event} {rest : List Event} (h : s.inputs = ev :: rest) :
    step s = perform ev { s with inputs := rest } := by
  simp only [step, nextEvent, h]

theorem step_nil {s : State} (h : s.inputs = []) : step s = .next s := by
  simp only [step, nextEvent, h]

@[simp] theorem atEngine_self (s : State) (f : State → Host.Outcome State Fault Refusal) :
    atEngine s.self s f = f s := by
  simp only [atEngine, focus_self]

/-- An event about the engine in front is that engine's own. -/
theorem step_move_self {s : State} {rest : List Event} (h : s.inputs = .move s.self :: rest) :
    step s = moveEngine { s with inputs := rest } := by
  rw [step_cons h]; exact atEngine_self { s with inputs := rest } moveEngine

theorem step_command_self {s : State} {rest : List Event} (h : s.inputs = .command s.self :: rest) :
    step s = runCommand { s with inputs := rest } := by
  rw [step_cons h]; exact atEngine_self { s with inputs := rest } runCommand

/-- An event that is answered by a next state: about the engine at position `n`, then in front as `u`, or an access of
another agent. -/
theorem perform_next {ev : Event} {s t : State} (h : perform ev s = .next t) :
    (∃ n u, s.focus n = some u ∧
      ((∃ cmd, ev = .offer n cmd ∧ t = u.setEng { u.eng with port := u.eng.port ++ [cmd] }) ∨
       (ev = .command n ∧ runCommand u = .next t) ∨
       (ev = .move n ∧ moveEngine u = .next t) ∨
       (ev = .take n ∧ t = takeResponse u) ∨
       (ev = .status n ∧ t = u.record (.status n u.eng.status)) ∨
       (ev = .result n ∧ t = u.record (.result n u.eng.result)) ∨
       (ev = .reset n ∧ t = resetEngine u))) ∨
    (∃ i, ev = .load i ∧ i < s.mem.size ∧ t = s.record (.load .other i (s.mem.read i))) ∨
    (∃ i v, ev = .store i v ∧ i < s.mem.size ∧
      t = { s with mem := s.mem.write i v, trace := .store .other i v :: s.trace }) := by
  cases ev with
  | load i =>
    simp only [perform] at h
    by_cases hi : i < s.mem.size
    · rw [memRead_of_lt hi] at h
      injection h with h
      exact .inr (.inl ⟨i, rfl, hi, h.symm⟩)
    · rw [memRead_of_ge (by omega)] at h; cases h
  | store i v =>
    simp only [perform] at h
    by_cases hi : i < s.mem.size
    · rw [memWrite_of_lt hi] at h
      injection h with h
      exact .inr (.inr ⟨i, v, rfl, hi, h.symm⟩)
    · rw [memWrite_of_ge (by omega)] at h; cases h
  | offer n cmd | command n | move n | take n | status n | result n | reset n =>
    refine .inl ⟨n, ?_⟩
    simp only [perform, atEngine] at h
    cases hf : s.focus n with
    | none => simp only [hf] at h; cases h
    | some u =>
      simp only [hf] at h
      refine ⟨u, rfl, ?_⟩
      first
        | (injection h with h; subst h; simp)
        | simp [h]

/-! ## The moves of the engine in front -/

/-- What a fine-grained step answers (rules R67, R68, R81, R89, R108). -/
theorem moveEngine_next {s t : State} (h : moveEngine s = .next t) :
    (t = s ∧ (s.eng.phase = .idle ∧ s.eng.port = [] ∨ s.eng.phase = .resp)) ∨
    (∃ cmd ws, s.eng.phase = .idle ∧ s.eng.port = cmd :: ws ∧ t = accept cmd (takeWord cmd ws s)) ∨
    (s.eng.phase = .run ∧ s.eng.work.rem = 0 ∧ t = finish s) ∨
    (s.eng.phase = .run ∧ s.eng.work.rem ≠ 0 ∧
      (s.eng.work.op = .extract ∧ extractChunk s = some t ∨
       s.eng.work.op = .inject ∧ s.eng.work.step = .read ∧ injectRead s = some t ∨
       s.eng.work.op = .inject ∧ s.eng.work.step = .write ∧ injectWrite s = some t)) := by
  unfold moveEngine at h
  cases hp : s.eng.phase with
  | idle =>
    simp only [hp] at h
    cases hport : s.eng.port with
    | nil => simp only [hport] at h; injection h with h; exact .inl ⟨h.symm, .inl ⟨rfl, rfl⟩⟩
    | cons cmd ws =>
      simp only [hport] at h; injection h with h
      exact .inr (.inl ⟨cmd, ws, rfl, rfl, h.symm⟩)
  | resp => simp only [hp] at h; injection h with h; exact .inl ⟨h.symm, .inr rfl⟩
  | run =>
    simp only [hp] at h
    by_cases h0 : s.eng.work.rem = 0
    · rw [if_pos h0] at h; injection h with h
      exact .inr (.inr (.inl ⟨rfl, h0, h.symm⟩))
    · rw [if_neg h0] at h
      have key : ∀ o : Option State, orStuck o = .next t → o = some t := by
        intro o ho
        cases o with
        | none => cases ho
        | some u => injection ho with ho; rw [ho]
      refine .inr (.inr (.inr ⟨rfl, h0, ?_⟩))
      unfold chunkMove at h
      split at h
      · next _ hop => exact .inl ⟨hop, key _ h⟩
      · next hop hst => exact .inr (.inl ⟨hop, hst, key _ h⟩)
      · next hop hst => exact .inr (.inr ⟨hop, hst, key _ h⟩)

/-- What a whole command answers (rule R76): a rejected word, a command run, or the fine-grained step. -/
theorem runCommand_next {s t : State} (h : runCommand s = .next t) :
    (∃ cmd ws c, s.eng.phase = .idle ∧ s.eng.port = cmd :: ws ∧ decodeWord cmd = .error c ∧
      t = raiseFault c (takeWord cmd ws s)) ∨
    (∃ cmd ws i, s.eng.phase = .idle ∧ s.eng.port = cmd :: ws ∧ decodeWord cmd = .ok i ∧
      exec i (takeWord cmd ws s) = .next t) ∨
    ((s.eng.phase ≠ .idle ∨ s.eng.port = []) ∧ moveEngine s = .next t) := by
  unfold runCommand at h
  split at h
  · next cmd ws hp hport =>
    cases hd : decodeWord cmd with
    | error c =>
      simp only [hd] at h; injection h with h
      exact .inl ⟨cmd, ws, c, hp, hport, hd, h.symm⟩
    | ok i =>
      simp only [hd] at h
      exact .inr (.inl ⟨cmd, ws, i, hp, hport, hd, h⟩)
  · next hne =>
    refine .inr (.inr ⟨?_, h⟩)
    cases hp : s.eng.phase with
    | run | resp => exact .inl (by simp)
    | idle =>
      cases hport : s.eng.port with
      | nil => exact .inr rfl
      | cons cmd ws => exact absurd hport (hne cmd ws hp)

/-! ## Induction over the chunk steps of a whole command -/

/-- What every EXTRACT chunk keeps, the loop keeps. -/
theorem extractLoop_keeps {P : State → Prop} (hP : ∀ s t, P s → extractChunk s = some t → P t) :
    ∀ (fuel : Nat) (s t : State), P s → extractLoop fuel s = some t → P t := by
  intro fuel
  induction fuel with
  | zero => intro s t hs h; injection h with h; exact h ▸ hs
  | succ fuel ih =>
    intro s t hs h
    rw [extractLoop] at h
    split at h
    · injection h with h; exact h ▸ hs
    · cases hc : extractChunk s with
      | none => simp only [hc] at h; cases h
      | some u => simp only [hc] at h; exact ih u t (hP s u hs hc) h

/-- What every READ and every WRITE step keeps, the loop of INJECT keeps. -/
theorem injectLoop_keeps {P : State → Prop} (hR : ∀ s t, P s → injectRead s = some t → P t)
    (hW : ∀ s t, P s → injectWrite s = some t → P t) :
    ∀ (fuel : Nat) (s t : State), P s → injectLoop fuel s = some t → P t := by
  intro fuel
  induction fuel with
  | zero => intro s t hs h; injection h with h; exact h ▸ hs
  | succ fuel ih =>
    intro s t hs h
    rw [injectLoop] at h
    split at h
    · injection h with h; exact h ▸ hs
    · cases hc : injectChunk s with
      | none => simp only [hc] at h; cases h
      | some u =>
        simp only [hc] at h
        refine ih u t ?_ h
        unfold injectChunk at hc
        cases hr : injectRead s with
        | none => simp only [hr] at hc; cases hc
        | some x => simp only [hr] at hc; exact hW x u (hR s x hs hr) hc

/-- `P` holds after ACCEPT of a legal command (rule R67) and every chunk step of that command keeps it. -/
def StartsAndKeeps (s : State) (P : State → Prop) : Instr → Prop
  | .extract o n l => P (startExtract o n l s) ∧ ∀ x y, P x → extractChunk x = some y → P y
  | .inject o n v l => P (startInject o n v l s) ∧ (∀ x y, P x → injectRead x = some y → P y) ∧
      ∀ x y, P x → injectWrite x = some y → P y

/-- What a meaning answers from IDLE: the fault of a failing operand check, or the FINISH of a state that has everything
ACCEPT gives and every chunk step keeps. -/
theorem exec_next {s t : State} {i : Instr} (h : s.eng.phase = .idle) (he : exec i s = .next t) :
    (i.operandCode ≠ .ok ∧ t = raiseFault i.operandCode s) ∨
    (i.operandCode = .ok ∧ ∃ u, t = finish u ∧ ∀ P : State → Prop, StartsAndKeeps s P i → P u) := by
  by_cases hc : i.operandCode = .ok
  · refine .inr ⟨hc, ?_⟩
    cases i with
    | extract o n l =>
      simp only [exec, execExtract, h, ne_eq, not_true_eq_false, if_false,
        show operandCode o n l = .ok from hc] at he
      cases hl : extractLoop n.toNat (startExtract o n l s) with
      | none => simp only [hl] at he; cases he
      | some u =>
        simp only [hl] at he; injection he with he
        exact ⟨u, he.symm, fun P hP => extractLoop_keeps hP.2 _ _ _ hP.1 hl⟩
    | inject o n v l =>
      simp only [exec, execInject, h, ne_eq, not_true_eq_false, if_false,
        show operandCode o n l = .ok from hc] at he
      cases hl : injectLoop n.toNat (startInject o n v l s) with
      | none => simp only [hl] at he; cases he
      | some u =>
        simp only [hl] at he; injection he with he
        exact ⟨u, he.symm, fun P hP => injectLoop_keeps hP.2.1 hP.2.2 _ _ _ hP.1 hl⟩
  · rw [exec_of_fault h hc] at he; injection he with he
    exact .inl ⟨hc, he.symm⟩

/-! ## The chunk steps, as inversions -/

theorem extractChunk_some {s t : State} (h : extractChunk s = some t) :
    s.eng.work.idx < s.mem.size ∧ t = afterExtractChunk s := by
  by_cases hi : s.eng.work.idx < s.mem.size
  · rw [extractChunk_of_lt hi] at h; injection h with h; exact ⟨hi, h.symm⟩
  · rw [extractChunk_of_ge (by omega)] at h; cases h

theorem injectRead_some {s t : State} (h : injectRead s = some t) :
    s.eng.work.idx < s.mem.size ∧ t =
      { s with
        trace := .load (.engine s.self) s.eng.work.idx (s.mem.read s.eng.work.idx) :: s.trace
        eng := { s.eng with work := { s.eng.work with byte := s.mem.read s.eng.work.idx, step := .write } } } := by
  by_cases hi : s.eng.work.idx < s.mem.size
  · rw [injectRead_of_lt hi] at h; injection h with h; exact ⟨hi, h.symm⟩
  · rw [injectRead_of_ge (by omega)] at h; cases h

theorem injectWrite_some {s t : State} (h : injectWrite s = some t) :
    s.eng.work.idx < s.mem.size ∧ t =
      { s with
        mem := s.mem.write s.eng.work.idx
          (mergedByte s.eng.work.pos.toNat s.eng.work.rem.toNat s.eng.work.val s.eng.work.byte)
        trace := .store (.engine s.self) s.eng.work.idx
          (mergedByte s.eng.work.pos.toNat s.eng.work.rem.toNat s.eng.work.val s.eng.work.byte) :: s.trace
        eng := { s.eng with work := { s.eng.work.advance with step := .read } } } := by
  by_cases hi : s.eng.work.idx < s.mem.size
  · rw [injectWrite_of_lt hi] at h; injection h with h; exact ⟨hi, h.symm⟩
  · rw [injectWrite_of_ge (by omega)] at h; cases h

/-! ## Frames -/

/-- `t` differs from `s` only in the working registers of the engine in front, the bytes of memory and the record. -/
abbrev SameButWork (s t : State) : Prop :=
  t.before = s.before ∧ t.after = s.after ∧ t.inputs = s.inputs ∧ t.free = s.free ∧ t.mem.size = s.mem.size ∧
    t.eng = { s.eng with work := t.eng.work }

theorem SameButWork.trans {s t u : State} (h : SameButWork s t) (h' : SameButWork t u) : SameButWork s u := by
  obtain ⟨h1, h2, h3, h4, h5, h6⟩ := h
  obtain ⟨g1, g2, g3, g4, g5, g6⟩ := h'
  refine ⟨g1.trans h1, g2.trans h2, g3.trans h3, g4.trans h4, g5.trans h5, ?_⟩
  rw [g6, h6]

theorem extractChunk_frame {s t : State} (h : extractChunk s = some t) : SameButWork s t ∧ t.mem = s.mem := by
  obtain ⟨-, rfl⟩ := extractChunk_some h
  exact ⟨⟨rfl, rfl, rfl, rfl, rfl, rfl⟩, rfl⟩

theorem injectRead_frame {s t : State} (h : injectRead s = some t) : SameButWork s t ∧ t.mem = s.mem := by
  obtain ⟨-, rfl⟩ := injectRead_some h
  exact ⟨⟨rfl, rfl, rfl, rfl, rfl, rfl⟩, rfl⟩

theorem injectWrite_frame {s t : State} (h : injectWrite s = some t) : SameButWork s t := by
  obtain ⟨-, rfl⟩ := injectWrite_some h
  exact ⟨rfl, rfl, rfl, rfl, rfl, rfl⟩

/-- What a whole command that an IDLE engine runs leaves as it was, and what it writes (rules R68, R77, R82, R95). -/
theorem exec_frame {s t : State} {i : Instr} (h : s.eng.phase = .idle) (he : exec i s = .next t) :
    t.before = s.before ∧ t.after = s.after ∧ t.inputs = s.inputs ∧ t.mem.size = s.mem.size ∧
      t.eng.port = s.eng.port ∧ t.eng.phase = .resp ∧
      t.eng.rsp = { code := codeBits i.operandCode, result := t.eng.result } ∧
      t.eng.lastCode = codeBits i.operandCode ∧ t.eng.err = errAfter s.eng.err i.operandCode ∧
      (i.operandCode ≠ .ok → t.eng.result = 0 ∧ t.mem = s.mem ∧ t.trace = s.trace) := by
  rcases exec_next h he with ⟨hc, rfl⟩ | ⟨hc, u, rfl, hu⟩
  · exact ⟨rfl, rfl, rfl, rfl, rfl, rfl, rfl, rfl, rfl, fun _ => ⟨rfl, rfl, rfl⟩⟩
  · rw [hc]
    have key : u.before = s.before ∧ u.after = s.after ∧ u.inputs = s.inputs ∧ u.mem.size = s.mem.size ∧
        u.eng.port = s.eng.port ∧ u.eng.err = s.eng.err := by
      apply hu fun x => x.before = s.before ∧ x.after = s.after ∧ x.inputs = s.inputs ∧ x.mem.size = s.mem.size ∧
        x.eng.port = s.eng.port ∧ x.eng.err = s.eng.err
      have keep : ∀ x y, SameButWork x y → (x.before = s.before ∧ x.after = s.after ∧ x.inputs = s.inputs ∧
          x.mem.size = s.mem.size ∧ x.eng.port = s.eng.port ∧ x.eng.err = s.eng.err) →
          y.before = s.before ∧ y.after = s.after ∧ y.inputs = s.inputs ∧ y.mem.size = s.mem.size ∧
          y.eng.port = s.eng.port ∧ y.eng.err = s.eng.err := by
        rintro x y ⟨h1, h2, h3, -, h5, h6⟩ ⟨g1, g2, g3, g4, g5, g6⟩
        exact ⟨h1.trans g1, h2.trans g2, h3.trans g3, h5.trans g4, by rw [h6]; exact g5, by rw [h6]; exact g6⟩
      cases i with
      | extract o n l =>
        exact ⟨⟨rfl, rfl, rfl, rfl, rfl, rfl⟩, fun x y hx hxy => keep x y (extractChunk_frame hxy).1 hx⟩
      | inject o n v l =>
        exact ⟨⟨rfl, rfl, rfl, rfl, rfl, rfl⟩, fun x y hx hxy => keep x y (injectRead_frame hxy).1 hx,
          fun x y hx hxy => keep x y (injectWrite_frame hxy) hx⟩
    obtain ⟨h1, h2, h3, h4, h5, h6⟩ := key
    exact ⟨h1, h2, h3, h4, h5, rfl, rfl, rfl, by rw [finish_err, errAfter_ok]; exact h6, fun hne => absurd rfl hne⟩

/-- The engines of the platform, where only the one in front may have changed. -/
theorem engines_of_frame {u t : State} (hb : t.before = u.before) (ha : t.after = u.after) (m : Nat) :
    t.engines[m]? = if m = u.self then some t.eng else u.engines[m]? := by
  have : t.engines = (u.setEng t.eng).engines := by simp [State.engines, hb, ha]
  rw [this, engines_setEng_getElem?]

theorem moveEngine_frame {s t : State} (h : moveEngine s = .next t) :
    t.before = s.before ∧ t.after = s.after ∧ t.inputs = s.inputs ∧ t.mem.size = s.mem.size := by
  rcases moveEngine_next h with ⟨rfl, -⟩ | ⟨cmd, ws, hp, hport, rfl⟩ | ⟨-, -, rfl⟩ | ⟨-, -, h⟩
  · exact ⟨rfl, rfl, rfl, rfl⟩
  · unfold accept; split <;> exact ⟨rfl, rfl, rfl, rfl⟩
  · exact ⟨rfl, rfl, rfl, rfl⟩
  · have key : SameButWork s t := by
      rcases h with ⟨-, h⟩ | ⟨-, -, h⟩ | ⟨-, -, h⟩
      · exact (extractChunk_frame h).1
      · exact (injectRead_frame h).1
      · exact injectWrite_frame h
    exact ⟨key.1, key.2.1, key.2.2.1, key.2.2.2.2.1⟩

theorem runCommand_frame {s t : State} (h : runCommand s = .next t) :
    t.before = s.before ∧ t.after = s.after ∧ t.inputs = s.inputs ∧ t.mem.size = s.mem.size := by
  rcases runCommand_next h with ⟨cmd, ws, c, hp, hport, hd, rfl⟩ | ⟨cmd, ws, i, hp, hport, hd, he⟩ | ⟨-, h⟩
  · exact ⟨rfl, rfl, rfl, rfl⟩
  · have := exec_frame (by simpa using hp) he
    exact ⟨this.1, this.2.1, this.2.2.1, this.2.2.2.1⟩
  · exact moveEngine_frame h

/-- What the events of an engine do with the engine in front, `u`. -/
abbrev EngineEvent (ev : Event) (n : Nat) (u t : State) : Prop :=
  (∃ cmd, ev = .offer n cmd ∧ t = u.setEng { u.eng with port := u.eng.port ++ [cmd] }) ∨
  (ev = .command n ∧ runCommand u = .next t) ∨
  (ev = .move n ∧ moveEngine u = .next t) ∨
  (ev = .take n ∧ t = takeResponse u) ∨
  (ev = .status n ∧ t = u.record (.status n u.eng.status)) ∨
  (ev = .result n ∧ t = u.record (.result n u.eng.result)) ∨
  (ev = .reset n ∧ t = resetEngine u)

theorem EngineEvent.frame {ev : Event} {n : Nat} {u t : State} (h : EngineEvent ev n u t) :
    t.before = u.before ∧ t.after = u.after ∧ t.inputs = u.inputs ∧ t.mem.size = u.mem.size ∧
      ev.engine? = some n := by
  rcases h with ⟨cmd, rfl, rfl⟩ | ⟨rfl, h⟩ | ⟨rfl, h⟩ | ⟨rfl, rfl⟩ | ⟨rfl, rfl⟩ | ⟨rfl, rfl⟩ | ⟨rfl, rfl⟩
  · exact ⟨rfl, rfl, rfl, rfl, rfl⟩
  · have := runCommand_frame h; exact ⟨this.1, this.2.1, this.2.2.1, this.2.2.2, rfl⟩
  · have := moveEngine_frame h; exact ⟨this.1, this.2.1, this.2.2.1, this.2.2.2, rfl⟩
  · unfold takeResponse; split <;> exact ⟨rfl, rfl, rfl, rfl, rfl⟩
  · exact ⟨rfl, rfl, rfl, rfl, rfl⟩
  · exact ⟨rfl, rfl, rfl, rfl, rfl⟩
  · exact ⟨rfl, rfl, rfl, rfl, rfl⟩

/-- What one step does, seen from the engine at position `n`: nothing, the event being about another, or one of its own
events, with that engine in front. -/
theorem step_at_engine {s t : State} {ev : Event} {rest : List Event} {n : Nat} {a b : Engine}
    (hin : s.inputs = ev :: rest) (h : step s = .next t) (ha : s.engines[n]? = some a)
    (hb : t.engines[n]? = some b) :
    (ev.engine? ≠ some n ∧ b = a) ∨
    ∃ u, u.eng = a ∧ u.self = n ∧ t.eng = b ∧ u.engines = s.engines ∧ u.mem = s.mem ∧ u.trace = s.trace ∧
      t.before = u.before ∧ t.after = u.after ∧ EngineEvent ev n u t := by
  rw [step_cons hin] at h
  rcases perform_next h with ⟨m, u, hf, h'⟩ | ⟨i, rfl, hi, rfl⟩ | ⟨i, v, rfl, hi, rfl⟩
  · obtain ⟨h1, h2, h3, h4, h5, h6, h7⟩ := focus_eq_some hf
    obtain ⟨kb, ka, -, -, hev⟩ := EngineEvent.frame h'
    by_cases hmn : m = n
    · subst hmn
      refine .inr ⟨u, ?_, h2, ?_, h1, h4, h6, kb, ka, h'⟩
      · have : some u.eng = some a := by rw [← h3]; exact ha
        simpa using this
      · have := engines_of_frame kb ka m
        rw [if_pos h2.symm, hb] at this
        simpa using this.symm
    · refine .inl ⟨by rw [hev]; simpa using hmn, ?_⟩
      have := engines_of_frame kb ka n
      rw [if_neg (by omega), h1, hb] at this
      have h8 : some b = some a := by rw [this]; exact ha
      simpa using h8
  · exact .inl ⟨by simp [Event.engine?], by have h8 : some b = some a := hb ▸ ha; simpa using h8⟩
  · exact .inl ⟨by simp [Event.engine?], by have h8 : some b = some a := hb ▸ ha; simpa using h8⟩

/-- What a move or a whole command does to the engine in front: nothing; a command taken and answered, or taken and begun (by a
move only); FINISH; or a chunk step, which changes its working registers. -/
abbrev EngineAfterMove (u t : State) : Prop :=
  t.eng = u.eng ∨
  (u.eng.phase = .idle ∧ t.eng.phase = .resp ∧ (∃ cmd, u.eng.port = cmd :: t.eng.port) ∧
    ∃ c, t.eng.rsp = { code := codeBits c, result := t.eng.result } ∧ t.eng.lastCode = codeBits c ∧
      t.eng.err = errAfter u.eng.err c ∧ (c ≠ .ok → t.eng.result = 0)) ∨
  (u.eng.phase = .idle ∧ moveEngine u = .next t ∧ (∃ cmd, u.eng.port = cmd :: t.eng.port) ∧ t.eng.phase = .run ∧
    t.eng.lastCode = u.eng.lastCode ∧ t.eng.err = u.eng.err ∧ t.eng.result = u.eng.result) ∨
  (u.eng.phase = .run ∧ u.eng.work.rem = 0 ∧ t = finish u) ∨
  (u.eng.phase = .run ∧ t.eng = { u.eng with work := t.eng.work })

theorem engine_after_move {u t : State} (h : moveEngine u = .next t) : EngineAfterMove u t := by
  rcases moveEngine_next h with ⟨rfl, -⟩ | ⟨cmd, ws, hp, hport, ht⟩ | ⟨hp, h0, rfl⟩ | ⟨hp, -, h'⟩
  · exact .inl rfl
  · unfold accept at ht
    split at ht
    · subst ht; exact .inr (.inl ⟨hp, rfl, ⟨cmd, hport⟩, _, rfl, rfl, rfl, fun _ => rfl⟩)
    · subst ht; exact .inr (.inr (.inl ⟨hp, h, ⟨cmd, hport⟩, rfl, rfl, rfl, rfl⟩))
    · subst ht; exact .inr (.inr (.inl ⟨hp, h, ⟨cmd, hport⟩, rfl, rfl, rfl, rfl⟩))
  · exact .inr (.inr (.inr (.inl ⟨hp, h0, rfl⟩)))
  · refine .inr (.inr (.inr (.inr ⟨hp, ?_⟩)))
    rcases h' with ⟨-, h⟩ | ⟨-, -, h⟩ | ⟨-, -, h⟩
    · exact (extractChunk_frame h).1.2.2.2.2.2
    · exact (injectRead_frame h).1.2.2.2.2.2
    · exact (injectWrite_frame h).2.2.2.2.2

theorem engine_after_command {u t : State} (h : runCommand u = .next t) : EngineAfterMove u t := by
  rcases runCommand_next h with ⟨cmd, ws, c, hp, hport, hd, rfl⟩ | ⟨cmd, ws, i, hp, hport, hd, he⟩ | ⟨-, h⟩
  · exact .inr (.inl ⟨hp, rfl, ⟨cmd, hport⟩, _, rfl, rfl, rfl, fun _ => rfl⟩)
  · obtain ⟨-, -, -, -, h5, h6, h7, h8, h9, h10⟩ := exec_frame (by simpa using hp) he
    exact .inr (.inl ⟨hp, h6, ⟨cmd, by rw [h5]; exact hport⟩, _, h7, h8, by simpa using h9, fun hc => (h10 hc).1⟩)
  · exact engine_after_move h

/-! ## ACCEPT and the decode -/

/-- ACCEPT (rule R67), by what the word decodes to. -/
theorem accept_error {cmd : CmdWord} {c : Code} (h : decode cmd = .error c) (s : State) :
    accept cmd s = raiseFault c s := by simp only [accept, h]

theorem accept_extract {cmd : CmdWord} {o : Word} {n : Count} {l : Word} (h : decode cmd = .ok (.extract o n l))
    (s : State) : accept cmd s = startExtract o n l s := by simp only [accept, h]

theorem accept_inject {cmd : CmdWord} {o : Word} {n : Count} {v l : Word} (h : decode cmd = .ok (.inject o n v l))
    (s : State) : accept cmd s = startInject o n v l s := by simp only [accept, h]

/-- The whole decode of rule R58 is the row of the table, then the operand checks. -/
theorem decode_of_decodeWord {cmd : CmdWord} {i : Instr} (h : decodeWord cmd = .ok i) :
    decode cmd = if i.operandCode = .ok then .ok i else .error i.operandCode := by
  simp only [decode, h]
  cases hc : i.operandCode <;> simp

theorem decode_ok {cmd : CmdWord} {i : Instr} (h : decode cmd = .ok i) :
    decodeWord cmd = .ok i ∧ i.operandCode = .ok := by
  cases hd : decodeWord cmd with
  | error c => simp only [decode, hd] at h; cases h
  | ok j =>
    rw [decode_of_decodeWord hd] at h
    split at h
    · next hc => injection h with h; exact ⟨h ▸ rfl, h ▸ hc⟩
    · cases h

end Sys2Proof.Machine
end

