-- ==== Sys2Proof/Tests/Slice0.lean ====
section
/-! SUPPORT. Tests: expected values are those of 95_test_vectors.md (L, X, I, F, P, R), of the examples of rule R63, or
worked out by hand from a rule. After them, for every statement with hypotheses, a state that meets them. -/

namespace Sys2Proof.Machine.Tests

open Sys2Proof Sys2Proof.Machine

/-! ## Helpers -/

/-- A memory that holds these bytes. -/
def buf (bytes : List Byte) : Memory :=
  bytes.zipIdx.foldl (fun m p => m.write p.2 p.1) { size := bytes.length, cells := [] }

/-- One engine after reset, a memory, words offered on its port, and events to come. -/
def machine (bytes : List Byte) (words : List CmdWord) (events : List Event) : State :=
  { State.reset with mem := buf bytes, eng := { Engine.reset with port := words }, inputs := events }

/-- The same, the engine in phase RUN with these working registers. -/
def running (bytes : List Byte) (w : Work) (events : List Event) : State :=
  { machine bytes [] events with eng := { Engine.reset with phase := .run, work := w } }

/-- The same, the engine in phase RESP, with a faulted command's response. -/
def holding (bytes : List Byte) (events : List Event) : State :=
  { machine bytes [] events with
    eng := { Engine.reset with
      phase := .resp, rsp := { code := 4, result := 0 }, err := true, lastCode := 4 } }

/-- A word as the test vectors write it, low word first. -/
def word (w0 w1 w2 w3 : Word) : CmdWord := cmdOfWords w0 w1 w2 w3

/-- What a test looks at after a step: memory, RESULT, the response code and STATUS. -/
def seen (o : Host.Outcome State Fault Refusal) : Option (List Nat × Nat × Nat × Nat) :=
  match o with
  | .next t => some ((List.range t.mem.size).map fun i => (t.mem.read i).toNat, t.eng.result.toNat,
      t.eng.rsp.code.toNat, t.eng.status.toNat)
  | _ => none

/-- The buffer of the source's worked examples. -/
abbrev source : List Byte := [0x89, 0xab, 0xcd, 0xef]

/-! ## Well-formedness: each check refuses -/

theorem test_count_zero_is_ill_formed : (Instr.extract 0 0 4).wellFormed = false := by decide
theorem test_count_33_is_ill_formed : (Instr.inject 0 33 0 8).wellFormed = false := by decide
theorem test_range_by_one_bit_is_ill_formed : (Instr.extract 29 4 4).wellFormed = false := by decide
theorem test_field_ending_at_the_last_bit_is_well_formed : (Instr.inject 28 4 0 4).wellFormed = true := by decide
theorem test_range_does_not_wrap : (Instr.extract 0xFFFFFFFF 32 0xFFFFFFFF).wellFormed = true := by decide

/-! ## Decoding: words written out from rules R52 and R53 -/

/-- `EXTRACT 1, 11, 4`: OP 00, RSVD_A 000000, COUNT 001011, RSVD_B 0; VALUE; OFFSET 1; LEN 4. -/
theorem test_decode_extract :
    decodeWord (0x00000004#32 ++ 0x00000001#32 ++ 0x00000000#32 ++
      (0b000000000000000000#18 ++ 0b001011#6 ++ 0b000000#6 ++ 0b00#2)) = .ok (.extract 1 11 4) := by decide

/-- `INJECT 12, 12, 3021, 4`: OP 01, RSVD_A 000000, COUNT 001100, RSVD_B 0; VALUE 0xBCD; OFFSET 12; LEN 4. -/
theorem test_decode_inject :
    decodeWord (0x00000004#32 ++ 0x0000000C#32 ++ 0x00000BCD#32 ++
      (0b000000000000000000#18 ++ 0b001100#6 ++ 0b000000#6 ++ 0b01#2)) = .ok (.inject 12 12 3021 4) := by decide

theorem test_encode_extract : encode (.extract 1 11 4) = word 0xB00 0 1 4 := by decide
theorem test_encode_inject : encode (.inject 12 12 3021 4) = word 0xC01 0xBCD 0xC 4 := by decide

/-- The fault vectors F1 to F12. -/
theorem test_decode_faults :
    [word 0x802 0 0 4, word 3 0 0 0, word 0x804 0 0 4, word 0x80000800 0 0 4, word 0 0 0 4, word 0x2100 0 0 8,
      word 0x3F01 0xFFFFFFFF 0 0x10, word 0x2800 0 0 0, word 0x400 0 0x1D 4, word 0x100 0 0 0,
      word 0x2001 0x12345678 0 3, word 0x104 0 0 0].map decode =
    [.error .illegalOp, .error .illegalOp, .error .rsvd, .error .rsvd, .error .badCount, .error .badCount,
      .error .badCount, .error .badCount, .error .range, .error .range, .error .range, .error .rsvd] := by decide

/-- Both rows of the opcode table, their operand bits zero; a word of neither. -/
theorem test_table_words : decodeTableWord 128 0 = some (.extract 0 0 0) ∧
    decodeTableWord 128 1 = some (.inject 0 0 0 0) ∧ decodeTableWord 128 2 = none := by decide

/-- The examples of rule R63, with R62's case, `0x`, and comment. -/
theorem test_assemble_extract : assemble "EXTRACT 1, 11, 4".toList = .ok (some (word 0xB00 0 1 4)) := by decide
theorem test_assemble_inject :
    assemble "inject 0xC, 12, 3021, 4 ; L6".toList = .ok (some (word 0xC01 0xBCD 0xC 4)) := by decide
theorem test_assemble_rejects : assemble "EXTRACT 0, 64, 4".toList = .error .doesNotFit ∧
    assemble "read 0, 1, 4".toList = .error .unknownMnemonic ∧ assemble "; text".toList = .ok none := by decide

/-! ## Commands -/

theorem test_extract_L3 : seen (exec (.extract 12 12 4) (machine source [] [])) =
    some ([0x89, 0xab, 0xcd, 0xef], 0xbcd, 0, 1) := by decide

/-- X20: five chunks. -/
theorem test_extract_X20 : seen (exec (.extract 1 32 5) (machine [0x12, 0x34, 0x56, 0x78, 0x9a] [] [])) =
    some ([0x12, 0x34, 0x56, 0x78, 0x9a], 0x2468ACF1, 0, 1) := by decide

/-- I8: the high bits of VALUE are ignored, neighbouring bits kept. -/
theorem test_inject_I8 : seen (exec (.inject 12 12 0xfffff000 4) (machine [0xff, 0xff, 0xff, 0xff] [] [])) =
    some ([0xff, 0xf0, 0x00, 0xff], 0, 0, 1) := by decide

/-- I11: five chunks. -/
theorem test_inject_I11 : seen (exec (.inject 4 32 0xdeadbeef 5) (machine [0, 0, 0, 0, 0] [] [])) =
    some ([0x0d, 0xea, 0xdb, 0xee, 0xf0], 0, 0, 1) := by decide

/-- P3, its first command: RANGE, STATUS 0x42 with BUSY. -/
theorem test_fault_P3 : seen (step (machine source [word 0x400 0 0x1E 4] [.command 0])) =
    some ([0x89, 0xab, 0xcd, 0xef], 0, 4, 0x43) := by decide

/-- The command the host asks for is the one the very next step runs: vector L2. -/
theorem test_fetch_word : seen (step ((machine source [] []).withFetchWord 128 (word 0xB00 0 1 4).toNat)) =
    some ([0x89, 0xab, 0xcd, 0xef], 0x9a, 0, 1) := by decide

/-- The canonical form: writing the unlisted value takes the cell away. -/
theorem test_write_keeps_the_canonical_form : (buf source).write 1 0 = buf [0x89, 0x00, 0xcd, 0xef] := by decide

/-! ## Witnesses: a state and operands that meet the hypotheses of each statement, for each of its clauses -/

/-- An EXTRACT in its second chunk, an INJECT before its READ step, before its WRITE step, and one with no bits left. -/
def reading : Work := { op := .extract, pos := 8, rem := 4, acc := 9, val := 0, len := 4, step := .read, byte := 0 }
def toRead : Work := { op := .inject, pos := 28, rem := 4, acc := 0, val := 5, len := 4, step := .read, byte := 0 }
def toWrite : Work := { toRead with step := .write, byte := 0xef }
def done : Work := { toRead with pos := 32, rem := 0 }

/-- Two engines, each in phase RUN with an INJECT, at bytes 0 and 3. -/
def twoRunning : State :=
  { running source toRead [] with after := [{ Engine.reset with phase := .run, work := { toRead with pos := 4 } }] }

/-- Legal and illegal commands: a field at the last bit, 32 bits, COUNT 0, COUNT 33, one bit too far. -/
theorem witness_DecodeOfEncodeIsTheCommand :
    (Instr.extract 31 1 4).wellFormed = true ∧ (Instr.inject 1 32 0 5).wellFormed = true ∧
    (Instr.extract 0 0 4).wellFormed = false ∧ (Instr.inject 0 33 0 8).wellFormed = false ∧
    (Instr.extract 32 1 4).wellFormed = false := by decide

theorem witness_EncodeOfDecodeIsTheWord :
    decodeWord (word 0x3F01 0xFFFFFFFF 0 0x10) = .ok (.inject 0 63 0xFFFFFFFF 0x10) ∧
    decodeWord (word 0x800 0xFFFFFFFF 4 4) = .ok (.extract 4 8 4) := by decide

theorem witness_ExtractIgnoresTheValueField :
    (0x800#32).extractLsb' 0 2 = 0 ∧ encodeLine (.extract 0 63 4294967295) = some (word 0x3F00 0 0 0xFFFFFFFF) := by
  decide

theorem witness_AssemblerEncodesEachLine :
    (4294967295 < 2 ^ 32 ∧ 63 < 64) ∧ (2 ^ 32 ≤ 4294967296 ∨ 64 ≤ 0 ∨ 2 ^ 32 ≤ 0) ∧ (2 ^ 32 ≤ 0 ∨ 64 ≤ 64 ∨ 2 ^ 32 ≤ 0) := by
  decide

theorem witness_AcceptTakesTheFirstFailingCheck :
    (machine source [word 0x802 0 0 4] [.move 0]).inputs = [.move (machine source [] []).self] ∧
    (machine source [word 0x802 0 0 4] [.move 0]).eng.phase = .idle ∧
    firstFailing (word 0x802 0 0 4).toNat = .illegalOp ∧ firstFailing (word 0x804 0 0 4).toNat = .rsvd ∧
    firstFailing (word 0x2100 0 0 8).toNat = .badCount ∧ firstFailing (word 0x400 0 0x1D 4).toNat = .range ∧
    firstFailing (word 0x400 0 0x1C 4).toNat = .ok := by decide

theorem witness_FaultIsPreciseAndEndsWithItsResponse :
    (machine source [word 0x400 0 0x1D 4] [.command 0, .take 0]).self = 0 ∧
    (machine source [word 0x400 0 0x1D 4] [.command 0, .take 0]).eng.phase = .idle ∧
    firstFailing (word 0x400 0 0x1D 4).toNat ≠ .ok := by decide

/-- A reset of an engine with ERR set; a command that faults; one that ends with code 0; a chunk step. -/
theorem witness_ErrIsStickyUntilReset :
    (∃ t b, step (holding source [.reset 0]) = .next t ∧ t.engines[0]? = some b ∧ b.err = false) ∧
    (∃ t b, step (machine source [word 0x802 0 0 4] [.move 0]) = .next t ∧ t.engines[0]? = some b ∧
      b.phase = .resp ∧ b.rsp.code ≠ 0) ∧
    (∃ t b, step (running source done [.move 0]) = .next t ∧ t.engines[0]? = some b ∧
      b.phase = .resp ∧ b.rsp.code = 0) ∧
    (∃ t b, step (running source reading [.move 0]) = .next t ∧ t.engines[0]? = some b ∧ b.phase ≠ .resp) :=
  ⟨⟨_, _, rfl, rfl, rfl⟩, ⟨_, _, rfl, rfl, rfl, by decide⟩, ⟨_, _, rfl, rfl, rfl, by decide⟩,
    ⟨_, _, rfl, rfl, by decide⟩⟩

/-- The second and fourth cases above, and a response that is held. -/
theorem witness_LastCodeAndResultFollowTheResponse :
    (∃ t b, step (machine source [word 0x802 0 0 4] [.move 0]) = .next t ∧ t.engines[0]? = some b ∧
      b.phase = .resp) ∧
    (∃ t b, step (holding source [.status 0]) = .next t ∧ t.engines[0]? = some b) :=
  ⟨⟨_, _, rfl, rfl, rfl⟩, ⟨_, _, rfl, rfl⟩⟩

theorem witness_StatusReadsHaveNoSideEffect :
    (holding source [.status 0]).engines[0]? = some (holding source []).eng ∧
    (holding source [.status 0]).inputs = [.status 0] ∧ (holding source [.result 0]).inputs = [.result 0] := by
  decide

/-- Both ends of the COUNT range, at the last bit of the memory and over five bytes. -/
theorem witness_ExtractCompletesWithTheField :
    (machine source [] []).eng.phase = .idle ∧
    ((Instr.extract 31 1 4).wellFormed = true ∧ spanLast 31 1 < (machine source [] []).mem.size) ∧
    ((Instr.extract 0 32 4).wellFormed = true ∧ spanLast 0 32 < (machine source [] []).mem.size) := by decide

theorem witness_ExtractResultIsBelowTwoToTheCount :
    (machine source [] []).eng.phase = .idle ∧ (∃ t, exec (.extract 1 11 4) (machine source [] []) = .next t) ∧
    (∃ t, exec (.extract 1 0 4) (machine source [] []) = .next t) :=
  ⟨rfl, ⟨_, rfl⟩, ⟨_, rfl⟩⟩

theorem witness_ExtractNeverWritesMemory :
    (∃ t, exec (.extract 1 11 4) (machine source [] []) = .next t) ∧
    (running source reading [.move 0]).self = 0 ∧ reading.op = .extract ∧
    (∃ t, step (running source reading [.move 0]) = .next t) :=
  ⟨⟨_, rfl⟩, rfl, rfl, ⟨_, rfl⟩⟩

theorem witness_AlignedExtractIsBigEndian :
    (machine source [] []).eng.phase = .idle ∧
    ((Instr.extract 24 8 4).wellFormed = true ∧ (24#32).toNat % 8 = 0 ∧ (8#6).toNat = 8 * 1 ∧ spanLast 24 8 < 4) ∧
    ((Instr.extract 0 32 4).wellFormed = true ∧ (0#32).toNat % 8 = 0 ∧ (32#6).toNat = 8 * 4 ∧ spanLast 0 32 < 4) ∧
    (machine source [] []).mem.size = 4 := by decide

/-- Also of ReadThenWriteBackLeavesMemory, WriteThenReadReturnsTheMaskedValue and RepeatedCommandsAgree. -/
theorem witness_InjectCompletesWithTheField :
    (machine source [] []).mem.wf = true ∧ (machine source [] []).eng.phase = .idle ∧
    ((Instr.inject 31 1 1 4).wellFormed = true ∧ (Instr.extract 31 1 4).wellFormed = true ∧
      spanLast 31 1 < (machine source [] []).mem.size) ∧
    ((Instr.inject 0 32 5 4).wellFormed = true ∧ (Instr.extract 0 32 4).wellFormed = true ∧
      spanLast 0 32 < (machine source [] []).mem.size) := by decide

theorem witness_InjectUsesOnlyTheLowValueBits :
    (0xffffffe0#32).toNat % 2 ^ (5#6).toNat = (0#32).toNat % 2 ^ (5#6).toNat ∧
    (7#32).toNat % 2 ^ (0#6).toNat = (0#32).toNat % 2 ^ (0#6).toNat := by decide

/-- Two fields that share byte 1, and both of them read. -/
theorem witness_PackedFieldsReadBack :
    let fields : List (Word × Count × Word) := [(1, 11, 154), (12, 12, 3021)]
    (machine source [] []).mem.wf = true ∧ (machine source [] []).eng.phase = .idle ∧
    (∀ f ∈ fields, (Instr.inject f.1 f.2.1 f.2.2 4).wellFormed = true ∧ spanLast f.1.toNat f.2.1.toNat < 4) ∧
    fields.Pairwise (fun f g => f.1.toNat + f.2.1.toNat ≤ g.1.toNat ∨ g.1.toNat + g.2.1.toNat ≤ f.1.toNat) ∧
    (machine source [] []).mem.size = 4 :=
  ⟨by decide, by decide, fun f hf => by simp at hf; rcases hf with rfl | rfl <;> decide, by simp, by decide⟩

/-- Its first two clauses have the hypotheses above. -/
theorem witness_CommandsAccessTheirSpanOnceInOrder :
    (machine source [] []).eng.phase = .idle ∧ Instr.wellFormed (.inject 29 4 0 4) = false ∧
    (∃ t, exec (.inject 29 4 0 4) (machine source [] []) = .next t) ∧
    (Instr.extract 31 1 4).wellFormed = true ∧ (Instr.inject 31 1 0 4).wellFormed = true :=
  ⟨rfl, by decide, ⟨_, rfl⟩, by decide, by decide⟩

theorem witness_ExecFaultsOnIllegalOperandsAndWaitsWhenBusy :
    (machine source [] []).eng.phase = .idle ∧ (holding source []).eng.phase ≠ .idle ∧
    Instr.wellFormed (.extract 0 0 4) = false ∧ Instr.wellFormed (.inject 0 33 0 8) = false ∧
    Instr.wellFormed (.extract 32 1 4) = false := by decide

/-- A memory of 4 bytes: LEN = 5 passes the check, and byte 4 is the first that does not exist. -/
theorem witness_EngineIsStuckBeyondMemory :
    (machine source [] []).eng.phase = .idle ∧ (Instr.extract 32 1 5).wellFormed = true ∧
    (Instr.inject 32 1 0 5).wellFormed = true ∧ (machine source [] []).mem.size ≤ spanLast 32 1 ∧
    (running source { reading with pos := 32 } [.move 0]).self = 0 ∧ reading.rem ≠ 0 ∧
    (running source { reading with pos := 32 } [.move 0]).mem.size ≤ Work.idx { reading with pos := 32 } := by
  decide

theorem witness_StepRunsTheDecodedInstruction :
    (∃ u, State.focus 0 { machine source [word 0xB00 0 1 4] [.command 0] with inputs := [] } = some u ∧
      u.eng.phase = .idle ∧ u.eng.port = [word 0xB00 0 1 4]) ∧
    decodeWord (word 0xB00 0 1 4) = .ok (.extract 1 11 4) :=
  ⟨⟨_, rfl, rfl, rfl⟩, by decide⟩

/-- Also of FineGrainedRunEqualsTheCommand and of AcceptTakesTheFirstFailingCheck: each kind of word. -/
theorem witness_AcceptSetsTheWorkingRegisters :
    (machine source [word 0xB00 0 1 4] [.move 0]).self = 0 ∧
    (machine source [word 0xB00 0 1 4] [.move 0]).eng.phase = .idle ∧
    decode (word 0xB00 0 1 4) = .ok (.extract 1 11 4) ∧
    decode (word 0xC01 0xBCD 0xC 4) = .ok (.inject 12 12 3021 4) ∧
    decode (word 0x802 0 0 4) = .error .illegalOp := by decide

theorem witness_FinishRespondsWithTheResult :
    (running source done [.move 0]).self = 0 ∧ (running source done [.move 0]).eng.phase = .run ∧ done.rem = 0 := by
  decide

theorem witness_ResponseIsHeldUntilTaken :
    (holding source [.take 0]).eng.phase = .resp ∧ (holding source [.take 0]).self = 0 ∧
    (holding source [.move 0]).inputs = [.move 0] := by decide

theorem witness_ExtractChunkStepReadsOneByte :
    (running source reading [.move 0]).self = 0 ∧ reading.op = .extract ∧ reading.rem ≠ 0 ∧
    reading.pos.toNat / 8 < (running source reading []).mem.size ∧
    (running [0x89] reading []).mem.size ≤ reading.pos.toNat / 8 := by decide

theorem witness_InjectChunkIsAReadAndAWrite :
    (running source toRead [.move 0]).self = 0 ∧ toRead.op = .inject ∧ toRead.rem ≠ 0 ∧ toRead.step = .read ∧
    toRead.pos.toNat / 8 < (running source toRead []).mem.size ∧ toWrite.rem ≠ 0 ∧ toWrite.step = .write ∧
    (running [0x89, 0xab, 0xcd] toRead []).mem.size ≤ toRead.pos.toNat / 8 := by decide

theorem witness_ChunkLiesInItsByte : 1 ≤ 1 ∧ 0 % 8 = 0 ∧ 8 ≤ 8 ∧ chunkSize 7 32 < 32 := by decide

/-- One step for each change of phase. -/
theorem witness_PhasesFollowTheLifecycle :
    (∃ t, step (machine source [word 0xB00 0 1 4] [.move 0]) = .next t ∧ t.eng.phase = .run) ∧
    (∃ t, step (machine source [word 0xB00 0 1 4] [.command 0]) = .next t ∧ t.eng.phase = .resp) ∧
    (∃ t, step (running source done [.move 0]) = .next t ∧ t.eng.phase = .resp) ∧
    (∃ t, step (running source toRead [.reset 0]) = .next t ∧ t.eng.phase = .idle) ∧
    (∃ t, step (holding source [.take 0]) = .next t ∧ t.eng.phase = .idle) :=
  ⟨⟨_, rfl, rfl⟩, ⟨_, rfl, rfl⟩, ⟨_, rfl, rfl⟩, ⟨_, rfl, rfl⟩, ⟨_, rfl, rfl⟩⟩

/-- The first clause by a move and by a reset (log entry 9), then the other two. -/
theorem witness_BusyEngineLeavesTheCommandOnItsPort :
    (∃ t b, step (running source toRead [.move 0]) = .next t ∧ t.engines[0]? = some b) ∧
    (∃ t b, step (running source toRead [.reset 0]) = .next t ∧ t.engines[0]? = some b) ∧
    (∃ t b, step (holding source [.offer 0 7]) = .next t ∧ t.engines[0]? = some b) ∧
    (∃ t b, step (holding source [.move 0]) = .next t ∧ t.engines[0]? = some b) :=
  ⟨⟨_, _, rfl, rfl⟩, ⟨_, _, rfl, rfl⟩, ⟨_, _, rfl, rfl⟩, ⟨_, _, rfl, rfl⟩⟩

theorem witness_WaitingLosesNoState :
    (machine source [] [.move 0]).eng.phase = .idle ∧ (machine source [] [.move 0]).eng.port = [] ∧
    (machine source [] [.offer 0 7, .move 0]).self = 0 ∧ (machine source [] []).inputs = [] := by decide

/-- An engine with a field left in memory, and one with none left. -/
theorem witness_RunningCommandReachesItsResponse :
    (running source toRead []).Inv ∧ (running source toRead []).eng.phase = .run ∧
    spanLast toRead.pos.toNat toRead.rem.toNat < (running source toRead []).mem.size ∧
    (running source done []).Inv ∧ done.rem = 0 :=
  ⟨by decide, by decide, by decide, by decide, by decide⟩

theorem witness_RunEndsWithOneResponsePerCommand :
    (machine source [word 0xB00 0 1 4, word 0x802 0 0 4, word 0xC01 1 0xC 4] []).mem.wf = true ∧
    (machine source [word 0xB00 0 1 4, word 0x802 0 0 4, word 0xC01 1 0xC 4] []).eng.phase = .idle ∧
    decode (word 0xB00 0 1 4) = .ok (.extract 1 11 4) ∧ decode (word 0x802 0 0 4) = .error .illegalOp ∧
    decode (word 0xC01 1 0xC 4) = .ok (.inject 12 12 1 4) ∧
    spanInMemory (buf source) (.extract 1 11 4) = true ∧ spanInMemory (buf source) (.inject 12 12 1 4) = true ∧
    (machine source [] []).eng.port = [] ∧ lastAnswered 0 (machine source [] []).trace = true := by
  decide

/-- A held response, a reset during a command, a response taken with nothing to come, and a reset after the end. -/
theorem witness_RunEndsOnlyWithItsLastResponse :
    (holding source []).eng.phase ≠ .idle ∧
    outstanding 0 { running source toRead [.reset 0] with trace := [.command 0 7] }.trace = some true ∧
    (holding source [.take 0]).engines[0]? = some (holding source []).eng ∧ (holding source []).eng.port = [] ∧
    ended 0 { machine source [] [.reset 0] with trace := [.response 0 0, .command 0 7] } = true ∧
    ∃ t, step { machine source [] [.reset 0] with trace := [.response 0 0, .command 0 7] } = .next t :=
  ⟨by decide, by decide, rfl, rfl, by decide, ⟨_, rfl⟩⟩

theorem witness_UnspecifiedRegistersAreNeverRead :
    (machine source [] []).visible =
      { machine source [] [] with eng := { Engine.reset with rsp := { code := 9, result := 7 }, work := toWrite } }.visible ∧
    (running source toRead []).visible = (running source { toRead with byte := 0x55 } []).visible := by decide

theorem witness_ResetEventClearsTheEngine :
    (holding source [.reset 0]).inputs = [.reset 0] ∧ (holding source [.reset 0]).engines[0]? = some (holding source []).eng ∧
    (∃ t b, step (holding source [.reset 0]) = .next t ∧ t.engines[0]? = some b ∧
      (holding source []).eng.err = true ∧ b.err = false) :=
  ⟨rfl, rfl, ⟨_, _, rfl, rfl, rfl, rfl⟩⟩

theorem witness_ResetDuringACommandKeepsAPrefix :
    (machine source [word 0xC01 0xBCD 0xC 4] []).mem.wf = true ∧
    (machine source [word 0xC01 0xBCD 0xC 4] []).eng.phase = .idle ∧
    decode (word 0xC01 0xBCD 0xC 4) = .ok (.inject 12 12 3021 4) ∧ spanLast 12 12 < (machine source [] []).mem.size ∧
    decode (word 0xC00 0 0xC 4) = .ok (.extract 12 12 4) := by decide

theorem witness_StepTouchesOnlyTheNamedEngine :
    (∃ t, step { twoRunning with inputs := [.move 0] } = .next t) ∧ Event.engine? (.move 0) ≠ some 1 :=
  ⟨⟨_, rfl⟩, by decide⟩

/-- A byte changed by another agent, by a WRITE step, and by a whole INJECT. -/
theorem witness_MemoryChangesOnlyByStores :
    (∃ t, step (machine source [] [.store 0 1]) = .next t ∧ t.mem.read 0 ≠ (buf source).read 0) ∧
    (∃ t, step (running source toWrite [.move 0]) = .next t ∧ t.mem.read 3 ≠ (buf source).read 3) ∧
    (∃ t, step (machine source [word 0xC01 1 0xC 4] [.command 0]) = .next t ∧
      t.mem.read 2 ≠ (buf source).read 2) :=
  ⟨⟨_, rfl, by decide⟩, ⟨_, rfl, by decide⟩, ⟨_, rfl, by decide⟩⟩

/-- An EXTRACT of bytes 0 and 1, and another agent that writes byte 2 meanwhile. -/
theorem witness_InterleavedExtractReturnsTheField :
    ∃ t b, steps 5 (machine source [word 0xB00 0 1 4] [.move 0, .move 0, .store 2 7, .move 0, .move 0]) = .next t ∧
      exclusive 0 (spanFirst 1) (spanLast 1 11)
        (since (machine source [word 0xB00 0 1 4] [.move 0, .move 0, .store 2 7, .move 0, .move 0]) t) = true ∧
      t.engines[0]? = some b ∧ b.phase = .resp ∧ decode (word 0xB00 0 1 4) = .ok (.extract 1 11 4) :=
  ⟨_, _, rfl, by decide, rfl, rfl, by decide⟩

/-- An INJECT of bytes 1 and 2, and another agent that writes byte 0 meanwhile. -/
theorem witness_InterleavedInjectWritesTheField :
    ∃ t b, steps 3 (machine source [word 0xC01 1 0xC 4] [.store 0 7, .offer 0 7, .command 0]) = .next t ∧
      exclusive 0 (spanFirst 12) (spanLast 12 12)
        (since (machine source [word 0xC01 1 0xC 4] [.store 0 7, .offer 0 7, .command 0]) t) = true ∧
      t.engines[0]? = some b ∧ b.phase = .resp ∧ decode (word 0xC01 1 0xC 4) = .ok (.inject 12 12 1 4) ∧
      (buf source).wf = true :=
  ⟨_, _, rfl, by decide, rfl, rfl, by decide, by decide⟩

theorem witness_UpdateBetweenReadAndWriteIsLost :
    let s := running source toRead [.move 0, .store 3 0x11, .move 0]
    s.mem.wf = true ∧ s.eng.phase = .run ∧ s.eng.work.op = .inject ∧ s.eng.work.rem ≠ 0 ∧
      s.eng.work.step = .read ∧ s.eng.work.idx < s.mem.size ∧
      s.inputs = [.move s.self, .store s.eng.work.idx 0x11, .move s.self] := by decide

theorem witness_ChunkStepsAtDifferentBytesCommute :
    twoRunning.mem.wf = true ∧ twoRunning.engines[0]? = some (running source toRead []).eng ∧
    (∃ b, twoRunning.engines[1]? = some b ∧ b.phase = .run ∧ b.work.rem ≠ 0 ∧ toRead.idx ≠ b.work.idx) ∧
    (∃ t, perform (.move 0) twoRunning = .next t) ∧ (∃ t, perform (.move 1) twoRunning = .next t) :=
  ⟨by decide, rfl, ⟨_, rfl, rfl, by decide, by decide⟩, ⟨_, rfl⟩, ⟨_, rfl⟩⟩

/-- A record with a command under way in it, and a step. -/
theorem witness_RecordIsSequentiallyConsistent :
    let s := { running source toRead [.move 0] with trace := [.load .other 0 0x89, .command 0 7] }
    replay (buf source) s.trace = some s.mem ∧ ∃ t, step s = .next t :=
  ⟨by decide, ⟨_, rfl⟩⟩

/-- A command under way and a move, a held response and its delivery, and a command that a reset ends unanswered. -/
theorem witness_EachCommandGetsOneResponseInOrder :
    let run : State := { running source toRead [.move 0] with trace := [.command 0 7] }
    let resp : State := { holding source [.take 0] with trace := [.command 0 7] }
    let cut : State := { running source toRead [.reset 0] with trace := [.command 0 7] }
    (outstanding 0 run.trace = some (decide (run.eng.phase ≠ .idle)) ∧ ∃ t, step run = .next t) ∧
    (outstanding 0 resp.trace = some (decide (resp.eng.phase ≠ .idle)) ∧ ∃ t, step resp = .next t) ∧
    (outstanding 0 cut.trace = some (decide (cut.eng.phase ≠ .idle)) ∧
      ∃ t, step cut = .next t ∧ t.eng.phase = .idle ∧ outstanding 0 t.trace = some false) :=
  ⟨⟨by decide, ⟨_, rfl⟩⟩, ⟨by decide, ⟨_, rfl⟩⟩, ⟨by decide, ⟨_, rfl, rfl, rfl⟩⟩⟩

/-- In every phase, and a step of each. -/
theorem witness_StepKeepsTheInvariant :
    ((machine source [word 0xB00 0 1 4] [.move 0]).Inv ∧ (running source toWrite [.move 0]).Inv ∧
      (holding source [.take 0]).Inv) ∧
    (∃ t, step (machine source [word 0xB00 0 1 4] [.move 0]) = .next t) ∧
    (∃ t, step (running source toWrite [.move 0]) = .next t) ∧ (∃ t, step (holding source [.take 0]) = .next t) :=
  ⟨⟨by decide, by decide, by decide⟩, ⟨_, rfl⟩, ⟨_, rfl⟩, ⟨_, rfl⟩⟩

end Sys2Proof.Machine.Tests
end

section
/-! PROOFS. What the events of an engine do to its phase, STATUS and RESULT, said once: the layer that the statements of
10_state.md share. -/

namespace Sys2Proof.Machine

/-! ## The host's taking a response, and ACCEPT -/

theorem takeResponse_cases (s : State) :
    (s.eng.phase = .resp ∧ takeResponse s = deliver s) ∨ (s.eng.phase ≠ .resp ∧ takeResponse s = s) := by
  unfold takeResponse
  cases hp : s.eng.phase <;> simp

@[simp] theorem takeResponse_mem (s : State) : (takeResponse s).mem = s.mem := by
  rcases takeResponse_cases s with ⟨-, ht⟩ | ⟨-, ht⟩ <;> rw [ht]
  rfl

@[simp] theorem accept_mem (cmd : CmdWord) (s : State) : (accept cmd s).mem = s.mem := by
  unfold accept; split <;> rfl

/-! ## Entering RESP -/

/-- The step takes the engine from another phase into RESP with a code of R90, and writes STATUS and RESULT from the
response registers (rules R21, R22, R68 and R95). -/
abbrev Engine.Responds (a b : Engine) : Prop :=
  a.phase ≠ .resp ∧ b.phase = .resp ∧ ∃ c : Code, b.rsp = { code := codeBits c, result := b.result } ∧
    b.lastCode = codeBits c ∧ b.err = errAfter a.err c ∧ (c ≠ .ok → b.result = 0)

theorem enterResp_responds {s : State} (h : s.eng.phase ≠ .resp) {c : Code} {r : Word} (hr : c ≠ .ok → r = 0) :
    s.eng.Responds (enterResp c r s).eng :=
  ⟨h, rfl, c, rfl, rfl, rfl, hr⟩

theorem finish_responds {s : State} (h : s.eng.phase ≠ .resp) : s.eng.Responds (finish s).eng :=
  ⟨h, rfl, .ok, rfl, rfl, rfl, fun hne => absurd rfl hne⟩

/-- A whole command of an IDLE engine ends in its response (rule R76). -/
theorem exec_responds {s t : State} {i : Instr} (h : s.eng.phase = .idle) (he : exec i s = .next t) :
    s.eng.Responds t.eng := by
  obtain ⟨-, -, -, -, -, hphase, hrsp, hcode, herr, hfault⟩ := exec_frame h he
  exact ⟨by simp [h], hphase, _, hrsp, hcode, herr, fun hne => (hfault hne).1⟩

/-! ## The chunk loop of INJECT, chunk by chunk -/

/-- What every INJECT chunk keeps while bits are left, the loop of INJECT keeps. -/
theorem injectLoop_keeps_chunks {P : State → Prop}
    (hP : ∀ s t, P s → s.eng.work.rem ≠ 0 → injectChunk s = some t → P t) :
    ∀ (fuel : Nat) (s t : State), P s → injectLoop fuel s = some t → P t := by
  intro fuel
  induction fuel with
  | zero => intro s t hs h; injection h with h; exact h ▸ hs
  | succ fuel ih =>
    intro s t hs h
    rw [injectLoop] at h
    split at h
    · injection h with h; exact h ▸ hs
    · next hrem =>
      cases hc : injectChunk s with
      | none => simp only [hc] at h; cases h
      | some u => simp only [hc] at h; exact ih u t (hP s u hs hrem hc) h

theorem injectChunk_some {s t : State} (h : injectChunk s = some t) : t = afterInjectChunk s := by
  by_cases hi : s.eng.work.idx < s.mem.size
  · rw [injectChunk_of_lt hi] at h; injection h with h; exact h.symm
  · rw [injectChunk_of_ge (by omega)] at h; cases h

/-! ## A legal command as one step (rules R76, R77 and R82) -/

/-- The outcome of a whole command after its chunk loop: FINISH, or no step where the loop got stuck (rules R43 and R68). -/
def afterLoop : Option State → Host.Outcome State Fault Refusal
  | none => .fault .beyondMemory
  | some t => .next (finish t)

theorem exec_extract_of_ok {s : State} {o l : Word} {n : Count} (hp : s.eng.phase = .idle)
    (hc : (Instr.extract o n l).operandCode = .ok) :
    exec (.extract o n l) s = afterLoop (extractLoop n.toNat (startExtract o n l s)) := by
  simp only [Instr.operandCode] at hc
  simp only [exec, execExtract, hp, hc, ne_eq, not_true_eq_false, if_false]
  cases extractLoop n.toNat (startExtract o n l s) <;> rfl

theorem exec_inject_of_ok {s : State} {o v l : Word} {n : Count} (hp : s.eng.phase = .idle)
    (hc : (Instr.inject o n v l).operandCode = .ok) :
    exec (.inject o n v l) s = afterLoop (injectLoop n.toNat (startInject o n v l s)) := by
  simp only [Instr.operandCode] at hc
  simp only [exec, execInject, hp, hc, ne_eq, not_true_eq_false, if_false]
  cases injectLoop n.toNat (startInject o n v l s) <;> rfl

theorem afterLoop_next {o : Option State} {t : State} (h : afterLoop o = .next t) : ∃ u, o = some u ∧ t = finish u := by
  cases o with
  | none => cases h
  | some u => injection h with h; exact ⟨u, rfl, h.symm⟩

/-! ## STATUS and RESULT over one event (rules R21 to R23) -/

/-- The step leaves STATUS and RESULT as they were, and does not take the engine into RESP. -/
abbrev Engine.KeepsStatus (a b : Engine) : Prop :=
  b.lastCode = a.lastCode ∧ b.err = a.err ∧ b.result = a.result ∧ (a.phase = .resp ∨ b.phase ≠ .resp)

theorem Engine.KeepsStatus.of_phase {a b : Engine} (hcode : b.lastCode = a.lastCode) (herr : b.err = a.err)
    (hresult : b.result = a.result) (hp : b.phase = a.phase) : a.KeepsStatus b :=
  ⟨hcode, herr, hresult, by rw [hp]; exact em _⟩

theorem EngineAfterMove.status {u t : State} (h : EngineAfterMove u t) :
    u.eng.KeepsStatus t.eng ∨ u.eng.Responds t.eng := by
  rcases h with heng | ⟨hp, hp', -, hc⟩ | ⟨hp, -, -, hp', hcode, herr, hresult⟩ | ⟨hp, -, rfl⟩ | ⟨hp, heng⟩
  · rw [heng]; exact .inl (.of_phase rfl rfl rfl rfl)
  · exact .inr ⟨by simp [hp], hp', hc⟩
  · exact .inl ⟨hcode, herr, hresult, .inr (by simp [hp'])⟩
  · exact .inr (finish_responds (by simp [hp]))
  · rw [heng]; exact .inl (.of_phase rfl rfl rfl rfl)

theorem takeResponse_keepsStatus (s : State) : s.eng.KeepsStatus (takeResponse s).eng := by
  rcases takeResponse_cases s with ⟨-, ht⟩ | ⟨-, ht⟩ <;> rw [ht]
  · exact ⟨rfl, rfl, rfl, .inr nofun⟩
  · exact .of_phase rfl rfl rfl rfl

/-- Any event of an engine but its reset keeps STATUS and RESULT, or enters RESP and writes them from the response
registers. -/
theorem EngineEvent.status {ev : Event} {n : Nat} {u t : State} (h : EngineEvent ev n u t) (hev : ev ≠ .reset n) :
    u.eng.KeepsStatus t.eng ∨ u.eng.Responds t.eng := by
  rcases h with ⟨cmd, -, rfl⟩ | ⟨-, h⟩ | ⟨-, h⟩ | ⟨-, rfl⟩ | ⟨-, rfl⟩ | ⟨-, rfl⟩ | ⟨rfl, -⟩
  · exact .inl (.of_phase rfl rfl rfl rfl)
  · exact EngineAfterMove.status (engine_after_command h)
  · exact EngineAfterMove.status (engine_after_move h)
  · exact .inl (takeResponse_keepsStatus u)
  · exact .inl (.of_phase rfl rfl rfl rfl)
  · exact .inl (.of_phase rfl rfl rfl rfl)
  · exact absurd rfl hev

theorem EngineEvent.of_reset {n : Nat} {u t : State} (h : EngineEvent (.reset n) n u t) : t = resetEngine u := by
  simpa [EngineEvent] using h

section
variable {s t : State} {ev : Event} {rest : List Event} {n : Nat} {a b : Engine}

/-- The same, of a step and any engine. -/
theorem step_status (hin : s.inputs = ev :: rest) (h : step s = .next t) (ha : s.engines[n]? = some a)
    (hb : t.engines[n]? = some b) (hev : ev ≠ .reset n) : a.KeepsStatus b ∨ a.Responds b := by
  rcases step_at_engine hin h ha hb with ⟨-, rfl⟩ | ⟨u, rfl, -, rfl, -, -, -, -, -, hstep⟩
  · exact .inl (.of_phase rfl rfl rfl rfl)
  · exact EngineEvent.status hstep hev

/-- A step that resets an engine clears its STATUS and RESULT and leaves it IDLE (rule R109). -/
theorem step_reset (hin : s.inputs = .reset n :: rest) (h : step s = .next t) (ha : s.engines[n]? = some a)
    (hb : t.engines[n]? = some b) : b.err = false ∧ b.lastCode = 0 ∧ b.result = 0 ∧ b.phase = .idle := by
  rcases step_at_engine hin h ha hb with ⟨hne, -⟩ | ⟨u, -, -, rfl, -, -, -, -, -, hstep⟩
  · exact absurd rfl hne
  · rw [EngineEvent.of_reset hstep]; exact ⟨rfl, rfl, rfl, rfl⟩
end

/-! ## Events that always have a step -/

/-- An event of an engine of the platform is performed with that engine in front. -/
theorem atEngine_of_getElem? {s : State} {n : Nat} {a : Engine} (h : s.engines[n]? = some a) :
    ∃ u, u.eng = a ∧ u.self = n ∧ u.engines = s.engines ∧ u.mem = s.mem ∧ u.inputs = s.inputs ∧ u.trace = s.trace ∧
      u.free = s.free ∧ ∀ f, atEngine n s f = f u := by
  obtain ⟨u, hf, heng⟩ := focus_of_getElem? h
  obtain ⟨hengines, hself, -, hmem, hinputs, htrace, hfree⟩ := focus_eq_some hf
  exact ⟨u, heng, hself, hengines, hmem, hinputs, htrace, hfree, fun f => by simp only [atEngine, hf]⟩

end Sys2Proof.Machine
end

section
/-! PROOFS. Every step keeps the invariant of memory, status, response and working registers (O54), and State.reset meets
it (O42, O55). Each part of a move keeps its part of the invariant; the event lemma puts them together. -/

namespace Sys2Proof.Machine

/-! ## Entering RESP -/

theorem Engine.Responds.inv {a b : Engine} (h : a.Responds b) (size : Nat) : b.Inv size := by
  obtain ⟨-, hphase, c, hrsp, hcode, herr, hresult⟩ := h
  refine ⟨hcode ▸ codeBits_le c, fun hne => ?_, fun _ => ?_, fun hrun => ?_⟩
  · have hc : c ≠ .ok := fun hok => hne (by rw [hcode, codeBits_eq_zero, hok])
    exact ⟨by rw [herr, errAfter_of_ne_ok _ hc], hresult hc⟩
  · rw [hrsp, hcode]; exact ⟨rfl, rfl⟩
  · rw [hphase] at hrun; cases hrun

/-! ## The working registers in RUN -/

/-- ACCEPT of a legal command sets working registers that meet their invariant (rules R67 and R94). -/
theorem startRun_work_inv {op : Op} {o v l : Word} {n : Count} (hc : operandCode o n l = .ok)
    (hv : op = .extract → v = 0) (s : State) (size : Nat) : (startRun op o n v l s).eng.work.Inv size := by
  obtain ⟨-, hn, hlen⟩ := (operandCode_eq_ok_iff o n l).mp hc
  have ho := o.isLt
  have hpos : (o.setWidth 33).toNat = o.toNat := BitVec.toNat_setWidth_of_le (by omega)
  refine ⟨hn, ?_, ?_, Nat.two_pow_pos _, fun hop => ⟨hv hop, rfl⟩, fun _ => rfl, nofun⟩
  · simpa only [startRun_work, hpos] using hlen
  · simp only [startRun_work, hpos]; omega

/-- The bounds on `pos` and `rem` after a chunk: their sum is the end of the field, which stays where it is (rule R71). -/
theorem advance_bounds {size : Nat} {w : Work} (h : w.Inv size) :
    w.advance.rem.toNat ≤ 32 ∧ w.advance.pos.toNat + w.advance.rem.toNat ≤ w.len.toNat * 8 ∧
      w.advance.pos.toNat + w.advance.rem.toNat ≤ 2 ^ 32 - 1 + 32 := by
  obtain ⟨hrem, hlen, hpos, -⟩ := h
  have hk := chunkSize_le_rem w.pos.toNat w.rem.toNat
  rw [advance_rem_toNat, advance_pos_toNat hpos]
  omega

/-- `acc` gains as many bits as `rem` loses (rule R77). -/
theorem accumulated_lt {w : Work} (hrem : w.rem.toNat ≤ 32) (hacc : w.acc.toNat < 2 ^ (32 - w.rem.toNat)) (b : Byte) :
    (accumulated w.pos.toNat w.rem.toNat w.acc b).toNat < 2 ^ (32 - w.advance.rem.toNat) := by
  have hk := chunkSize_le_rem w.pos.toNat w.rem.toNat
  have hchunk := chunkOfByte_lt w.pos.toNat w.rem.toNat b
  rw [accumulated_eq, advance_rem_toNat, BitVec.toNat_ofNat]
  refine lt_of_le_of_lt (Nat.mod_le _ _) ?_
  calc w.acc.toNat * 2 ^ chunkSize w.pos.toNat w.rem.toNat + chunkOfByte w.pos.toNat w.rem.toNat b
      < (w.acc.toNat + 1) * 2 ^ chunkSize w.pos.toNat w.rem.toNat := by rw [Nat.succ_mul]; omega
    _ ≤ 2 ^ (32 - w.rem.toNat) * 2 ^ chunkSize w.pos.toNat w.rem.toNat := Nat.mul_le_mul_right _ hacc
    _ = 2 ^ (32 - (w.rem.toNat - chunkSize w.pos.toNat w.rem.toNat)) := by rw [← Nat.pow_add]; congr 1; omega

theorem extractChunk_work_inv {s t : State} {size : Nat} (h : s.eng.work.Inv size) (hop : s.eng.work.op = .extract)
    (hs : extractChunk s = some t) : t.eng.work.Inv size := by
  obtain ⟨-, rfl⟩ := extractChunk_some hs
  obtain ⟨hrem, hlen, hpos⟩ := advance_bounds h
  obtain ⟨hrem32, -, -, hacc, hextract, -, -⟩ := h
  obtain ⟨hval, hstep⟩ := hextract hop
  refine ⟨hrem, hlen, hpos, accumulated_lt hrem32 hacc _, fun _ => ⟨hval, hstep⟩, fun hinject => ?_, fun hwrite => ?_⟩
  · exact absurd (hop.symm.trans hinject) (by decide)
  · exact absurd (hstep.symm.trans hwrite) (by decide)

theorem injectRead_work_inv {s t : State} (h : s.eng.work.Inv s.mem.size) (hop : s.eng.work.op = .inject)
    (hrem : s.eng.work.rem ≠ 0) (hs : injectRead s = some t) : t.eng.work.Inv s.mem.size := by
  obtain ⟨hidx, rfl⟩ := injectRead_some hs
  obtain ⟨hrem32, hlen, hpos, hacc, -, hinject, -⟩ := h
  exact ⟨hrem32, hlen, hpos, hacc, fun hextract => absurd (hop.symm.trans hextract) (by decide), hinject,
    fun _ => ⟨hrem, hidx⟩⟩

theorem injectWrite_work_inv {s t : State} {size : Nat} (h : s.eng.work.Inv size) (hop : s.eng.work.op = .inject)
    (hs : injectWrite s = some t) : t.eng.work.Inv size := by
  obtain ⟨-, rfl⟩ := injectWrite_some hs
  obtain ⟨hrem, hlen, hpos⟩ := advance_bounds h
  obtain ⟨-, -, -, -, -, hinject, -⟩ := h
  have hacc : s.eng.work.advance.acc = 0 := hinject hop
  exact ⟨hrem, hlen, hpos, by simp only [hacc]; exact Nat.two_pow_pos _,
    fun hextract => absurd (hop.symm.trans hextract) (by decide), fun _ => hacc, nofun⟩

/-! ## The engine in front -/

/-- Outside RESP, an engine with the STATUS and RESULT of one that meets the invariant meets it where its working
registers do. -/
theorem Engine.Inv.of_not_resp {size : Nat} {a b : Engine} (h : a.Inv size)
    (hstatus : b.lastCode = a.lastCode ∧ b.err = a.err ∧ b.result = a.result) (hp : b.phase ≠ .resp)
    (hwork : b.phase = .run → b.work.Inv size) : b.Inv size := by
  obtain ⟨hle, hfault, -, -⟩ := h
  obtain ⟨hcode, herr, hresult⟩ := hstatus
  exact ⟨hcode ▸ hle, by rw [hcode, herr, hresult]; exact hfault, fun hresp => absurd hresp hp, hwork⟩

theorem accept_inv {s : State} {size : Nat} (cmd : CmdWord) (hp : s.eng.phase = .idle) (h : s.eng.Inv size) :
    (accept cmd s).eng.Inv size := by
  cases hd : decode cmd with
  | error c =>
    rw [accept_error hd]
    exact (enterResp_responds (by simp [hp]) fun _ => rfl).inv size
  | ok i =>
    obtain ⟨-, hc⟩ := decode_ok hd
    cases i with
    | extract o n l =>
      rw [accept_extract hd]
      exact h.of_not_resp ⟨rfl, rfl, rfl⟩ nofun fun _ => startRun_work_inv hc (fun _ => rfl) s size
    | inject o n v l =>
      rw [accept_inject hd]
      exact h.of_not_resp ⟨rfl, rfl, rfl⟩ nofun fun _ => startRun_work_inv (op := .inject) hc nofun s size

theorem moveEngine_inv {s t : State} (h : s.eng.Inv s.mem.size) (hs : moveEngine s = .next t) :
    t.eng.Inv s.mem.size := by
  rcases moveEngine_next hs with ⟨rfl, -⟩ | ⟨cmd, ws, hp, -, rfl⟩ | ⟨hp, -, rfl⟩ | ⟨hp, hrem, hchunk⟩
  · exact h
  · exact accept_inv (s := takeWord cmd ws s) cmd hp h
  · exact (finish_responds (by simp [hp])).inv _
  · obtain ⟨-, -, -, hrun⟩ := id h
    have hwork := hrun hp
    have keep (hframe : SameButWork s t) (hw : t.eng.work.Inv s.mem.size) : t.eng.Inv s.mem.size := by
      obtain ⟨-, -, -, -, -, heng⟩ := hframe
      exact h.of_not_resp (by rw [heng]; exact ⟨rfl, rfl, rfl⟩) (by rw [heng]; simp [hp]) fun _ => hw
    rcases hchunk with ⟨hop, hc⟩ | ⟨hop, -, hc⟩ | ⟨hop, -, hc⟩
    · exact keep (extractChunk_frame hc).1 (extractChunk_work_inv hwork hop hc)
    · exact keep (injectRead_frame hc).1 (injectRead_work_inv hwork hop hrem hc)
    · exact keep (injectWrite_frame hc) (injectWrite_work_inv hwork hop hc)

theorem runCommand_inv {s t : State} (h : s.eng.Inv s.mem.size) (hs : runCommand s = .next t) :
    t.eng.Inv s.mem.size := by
  rcases runCommand_next hs with ⟨cmd, ws, c, hp, -, -, rfl⟩ | ⟨cmd, ws, i, hp, -, -, he⟩ | ⟨-, hm⟩
  · exact (enterResp_responds (s := takeWord cmd ws s) (by simp [hp]) fun _ => rfl).inv _
  · exact (exec_responds (s := takeWord cmd ws s) hp he).inv _
  · exact moveEngine_inv h hm

theorem takeResponse_inv {s : State} {size : Nat} (h : s.eng.Inv size) : (takeResponse s).eng.Inv size := by
  rcases takeResponse_cases s with ⟨-, ht⟩ | ⟨-, ht⟩ <;> rw [ht]
  · exact h.of_not_resp ⟨rfl, rfl, rfl⟩ nofun nofun
  · exact h

theorem resetEngine_inv (s : State) (size : Nat) : (resetEngine s).eng.Inv size :=
  ⟨by simp, by simp, by simp, by simp⟩

/-- Every event of an engine keeps that engine's invariant. -/
theorem EngineEvent.inv {ev : Event} {n : Nat} {u t : State} (hev : EngineEvent ev n u t)
    (h : u.eng.Inv u.mem.size) : t.eng.Inv u.mem.size := by
  rcases hev with ⟨cmd, -, rfl⟩ | ⟨-, hc⟩ | ⟨-, hm⟩ | ⟨-, rfl⟩ | ⟨-, rfl⟩ | ⟨-, rfl⟩ | ⟨-, rfl⟩
  · exact h
  · exact runCommand_inv h hc
  · exact moveEngine_inv h hm
  · exact takeResponse_inv h
  · exact h
  · exact h
  · exact resetEngine_inv u _

/-! ## The memory -/

theorem injectWrite_mem_wf {s t : State} (h : s.mem.wf = true) (hs : injectWrite s = some t) : t.mem.wf = true := by
  obtain ⟨hidx, rfl⟩ := injectWrite_some hs
  exact Memory.wf_write h hidx _

theorem moveEngine_mem_wf {s t : State} (h : s.mem.wf = true) (hs : moveEngine s = .next t) : t.mem.wf = true := by
  rcases moveEngine_next hs with ⟨rfl, -⟩ | ⟨cmd, ws, -, -, rfl⟩ | ⟨-, -, rfl⟩ | ⟨-, -, hchunk⟩
  · exact h
  · rw [accept_mem]; exact h
  · exact h
  · rcases hchunk with ⟨-, hc⟩ | ⟨-, -, hc⟩ | ⟨-, -, hc⟩
    · rw [(extractChunk_frame hc).2]; exact h
    · rw [(injectRead_frame hc).2]; exact h
    · exact injectWrite_mem_wf h hc

theorem exec_mem_wf {s t : State} {i : Instr} (hp : s.eng.phase = .idle) (h : s.mem.wf = true)
    (he : exec i s = .next t) : t.mem.wf = true := by
  rcases exec_next hp he with ⟨-, rfl⟩ | ⟨-, u, rfl, hu⟩
  · exact h
  · refine hu (fun x => x.mem.wf = true) ?_
    cases i with
    | extract o n l => exact ⟨h, fun x y hx hc => (congrArg Memory.wf (extractChunk_frame hc).2).trans hx⟩
    | inject o n v l =>
      exact ⟨h, fun x y hx hc => (congrArg Memory.wf (injectRead_frame hc).2).trans hx, fun x y => injectWrite_mem_wf⟩

theorem runCommand_mem_wf {s t : State} (h : s.mem.wf = true) (hs : runCommand s = .next t) : t.mem.wf = true := by
  rcases runCommand_next hs with ⟨cmd, ws, c, -, -, -, rfl⟩ | ⟨cmd, ws, i, hp, -, -, he⟩ | ⟨-, hm⟩
  · exact h
  · exact exec_mem_wf (s := takeWord cmd ws s) hp h he
  · exact moveEngine_mem_wf h hm

theorem EngineEvent.mem_wf {ev : Event} {n : Nat} {u t : State} (hev : EngineEvent ev n u t)
    (h : u.mem.wf = true) : t.mem.wf = true := by
  rcases hev with ⟨cmd, -, rfl⟩ | ⟨-, hc⟩ | ⟨-, hm⟩ | ⟨-, rfl⟩ | ⟨-, rfl⟩ | ⟨-, rfl⟩ | ⟨-, rfl⟩
  · exact h
  · exact runCommand_mem_wf h hc
  · exact moveEngine_mem_wf h hm
  · rw [takeResponse_mem]; exact h
  · exact h
  · exact h
  · exact h

/-! ## The machine -/

/-- The invariant after the engine in front has changed, MEM_BYTES and the others being as they were. -/
theorem State.Inv.of_front {u t : State} (h : u.Inv) (hb : t.before = u.before) (ha : t.after = u.after)
    (hsize : t.mem.size = u.mem.size) (hwf : t.mem.wf = true) (heng : t.eng.Inv u.mem.size) : t.Inv := by
  obtain ⟨-, hall⟩ := h
  refine ⟨hwf, fun e he => ?_⟩
  rw [hsize]
  simp only [State.engines, hb, ha, List.mem_append, List.mem_cons] at he hall
  rcases he with he | rfl | he
  · exact hall e (.inl he)
  · exact heng
  · exact hall e (.inr (.inr he))

theorem State.Inv.focus {s u : State} {n : Nat} (h : s.Inv) (hf : s.focus n = some u) : u.Inv := by
  obtain ⟨hengines, -, -, hmem, -, -, -⟩ := focus_eq_some hf
  rw [State.Inv, hengines, hmem]
  exact h

theorem State.Inv.front {u : State} (h : u.Inv) : u.eng.Inv u.mem.size := h.2 u.eng (by simp [State.engines])

theorem perform_inv {ev : Event} {s t : State} (h : s.Inv) (hs : perform ev s = .next t) : t.Inv := by
  rcases perform_next hs with ⟨n, u, hf, hev⟩ | ⟨i, -, -, rfl⟩ | ⟨i, v, -, hi, rfl⟩
  · have hu := h.focus hf
    obtain ⟨hb, ha, -, hsize, -⟩ := EngineEvent.frame hev
    exact hu.of_front hb ha hsize (EngineEvent.mem_wf hev hu.1) (EngineEvent.inv hev hu.front)
  · exact h
  · obtain ⟨hwf, hall⟩ := h
    exact ⟨Memory.wf_write hwf hi v, hall⟩

/-- Settles O54: the invariant of the engine the event is about and of the memory are kept apart, for every event. -/
theorem stepKeepsTheInvariant : Obligations.StepKeepsTheInvariant := by
  unfold Obligations.StepKeepsTheInvariant
  intro s t h hs
  cases hin : s.inputs with
  | nil => rw [step_nil hin] at hs; injection hs with hs; exact hs ▸ h
  | cons ev rest => rw [step_cons hin] at hs; exact perform_inv (s := { s with inputs := rest }) h hs

/-- Settles O55: the one engine of State.reset is IDLE with LAST_CODE 0, and its record is empty. -/
theorem resetMeetsTheInvariants : Obligations.ResetMeetsTheInvariants := by
  unfold Obligations.ResetMeetsTheInvariants
  refine ⟨by decide, rfl, fun n e he => ?_⟩
  have hmem : e ∈ State.reset.engines := List.mem_of_getElem? he
  obtain rfl : e = Engine.reset := by simpa [State.engines, State.reset] using hmem
  rfl

/-- Settles O42: State.reset is one literal engine. -/
theorem resetStateIsIdleAndClear : Obligations.ResetStateIsIdleAndClear := by
  unfold Obligations.ResetStateIsIdleAndClear
  decide

end Sys2Proof.Machine
end

section
/-! PROOFS. STATUS, RESULT and the phase over a step (O9, O10, O11, O13, O34, O43), from the layer above. -/

namespace Sys2Proof.Machine

/-! ## ERR, LAST_CODE and RESULT -/

/-- A step that keeps STATUS and RESULT does not enter RESP. -/
theorem Engine.KeepsStatus.not_entering {a b : Engine} (h : a.KeepsStatus b) (ha : a.phase ≠ .resp) :
    b.phase ≠ .resp := by
  obtain ⟨-, -, -, hp⟩ := h
  exact hp.resolve_left ha

theorem Engine.Responds.entering {a b : Engine} (h : a.Responds b) : ¬ (a.phase = .resp ∨ b.phase ≠ .resp) := by
  obtain ⟨ha, hb, -⟩ := h
  simp [ha, hb]

/-- Settles O9: a step that is no reset keeps ERR, or enters RESP with ERR as `errAfter` gives it. -/
theorem errIsStickyUntilReset : Obligations.ErrIsStickyUntilReset := by
  unfold Obligations.ErrIsStickyUntilReset
  intro s t ev rest n a b hin hs ha hb
  by_cases hev : ev = .reset n
  · subst hev
    exact ⟨fun _ => (step_reset hin hs ha hb).1, fun h => absurd rfl h, fun h => absurd rfl h, fun h => absurd rfl h⟩
  · refine ⟨fun h => absurd h hev, ?_⟩
    rcases step_status hin hs ha hb hev with hkeep | hresp
    · obtain ⟨-, herr, -, -⟩ := id hkeep
      have hnot (hpa : a.phase ≠ .resp) (hpb : b.phase = .resp) : False := hkeep.not_entering hpa hpb
      exact ⟨fun _ hpa hpb => (hnot hpa hpb).elim, fun _ hpa hpb => (hnot hpa hpb).elim, fun _ _ => herr⟩
    · have hne := hresp.entering
      obtain ⟨-, -, c, hrsp, -, herr, -⟩ := hresp
      have hcode : b.rsp.code = 0 ↔ c = .ok := by rw [hrsp]; exact codeBits_eq_zero c
      refine ⟨fun _ _ _ hc => ?_, fun _ _ _ hc => ?_, fun _ hp => absurd hp hne⟩
      · rw [herr, errAfter_of_ne_ok _ (mt hcode.mpr hc)]
      · rw [herr, hcode.mp hc, errAfter_ok]

/-- Settles O10: a step that enters RESP writes both from the response registers, any other but a reset keeps both. -/
theorem lastCodeAndResultFollowTheResponse : Obligations.LastCodeAndResultFollowTheResponse := by
  unfold Obligations.LastCodeAndResultFollowTheResponse
  intro s t ev rest n a b hin hs ha hb
  refine ⟨fun hev hpa hpb => ?_, fun hev hp => ?_⟩ <;> rcases step_status hin hs ha hb hev with hkeep | hresp
  · exact absurd hpb (hkeep.not_entering hpa)
  · obtain ⟨-, -, c, hrsp, hcode, -, -⟩ := hresp
    rw [hrsp, hcode]
    exact ⟨rfl, rfl, codeBits_le c⟩
  · obtain ⟨hcode, -, hresult, -⟩ := hkeep
    exact ⟨hcode, hresult⟩
  · exact absurd hp hresp.entering

/-! ## The phase -/

/-- A whole command of an IDLE engine does not stop in RUN: with a word on the port it ends in RESP, with none it waits. -/
theorem runCommand_not_run {u t : State} (hp : u.eng.phase = .idle) (h : runCommand u = .next t) :
    t.eng.phase ≠ .run := by
  rcases runCommand_next h with ⟨cmd, ws, c, -, -, -, rfl⟩ | ⟨cmd, ws, i, -, -, -, he⟩ | ⟨hwait, hm⟩
  · exact nofun
  · obtain ⟨-, hresp, -⟩ := exec_responds (s := takeWord cmd ws u) hp he
    simp [hresp]
  · have hport : u.eng.port = [] := hwait.resolve_left (absurd hp)
    rw [moveEngine, hp, hport] at hm
    injection hm with hm
    simp [← hm, hp]

/-- The phases of the lifecycle that a move or a whole command goes through. -/
theorem EngineAfterMove.phase {u t : State} (h : EngineAfterMove u t) :
    u.eng.phase = t.eng.phase ∨ (u.eng.phase = .idle ∧ t.eng.phase = .run) ∨
      (u.eng.phase = .idle ∧ t.eng.phase = .resp) ∨ (u.eng.phase = .run ∧ t.eng.phase = .resp) := by
  rcases h with heng | ⟨hp, hp', -⟩ | ⟨hp, -, -, hp', -⟩ | ⟨hp, -, rfl⟩ | ⟨-, heng⟩
  · exact .inl (by rw [heng])
  · exact .inr (.inr (.inl ⟨hp, hp'⟩))
  · exact .inr (.inl ⟨hp, hp'⟩)
  · exact .inr (.inr (.inr ⟨hp, rfl⟩))
  · exact .inl (by rw [heng])

/-- Settles O34: each event of the engine has its own changes of phase. -/
theorem phasesFollowTheLifecycle : Obligations.PhasesFollowTheLifecycle := by
  unfold Obligations.PhasesFollowTheLifecycle
  intro s t ev rest n a b hin hs ha hb
  rcases step_at_engine hin hs ha hb with ⟨-, rfl⟩ | ⟨u, rfl, -, rfl, -, -, -, -, -, hev⟩
  · exact .inl rfl
  rcases hev with ⟨cmd, -, rfl⟩ | ⟨rfl, hc⟩ | ⟨rfl, hm⟩ | ⟨rfl, rfl⟩ | ⟨-, rfl⟩ | ⟨-, rfl⟩ | ⟨rfl, rfl⟩
  · exact .inl rfl
  · rcases EngineAfterMove.phase (engine_after_command hc) with hp | ⟨hp, hp'⟩ | ⟨hp, hp'⟩ | ⟨hp, hp'⟩
    · exact .inl hp
    · exact absurd hp' (runCommand_not_run hp hc)
    · simp [hp, hp']
    · simp [hp, hp']
  · rcases EngineAfterMove.phase (engine_after_move hm) with hp | ⟨hp, hp'⟩ | ⟨hp, hp'⟩ | ⟨hp, hp'⟩
    · exact .inl hp
    · simp [hp, hp']
    · simp [hp, hp']
    · simp [hp, hp']
  · rcases takeResponse_cases u with ⟨hp, ht⟩ | ⟨-, ht⟩ <;> rw [ht]
    · simp [hp]
    · exact .inl rfl
  · exact .inl rfl
  · exact .inl rfl
  · cases hp : u.eng.phase <;> simp

/-! ## The reset event -/

theorem status_eq_zero {e : Engine} (hp : e.phase = .idle) (herr : e.err = false) (hcode : e.lastCode = 0) :
    e.status = 0 := by
  rw [Engine.status, Engine.busy, hp, herr, hcode]
  rfl

/-- No step but a reset of the engine clears its ERR (rule R21). -/
theorem step_keeps_err {s t : State} {ev : Event} {rest : List Event} {n : Nat} {a b : Engine}
    (hin : s.inputs = ev :: rest) (hs : step s = .next t) (ha : s.engines[n]? = some a) (hb : t.engines[n]? = some b)
    (hev : ev ≠ .reset n) (herr : a.err = true) : b.err = true := by
  rcases step_status hin hs ha hb hev with ⟨-, hkeep, -, -⟩ | ⟨-, -, c, -, -, hset, -⟩
  · rw [hkeep, herr]
  · rw [hset, herr, errAfter, Bool.true_or]

/-- Settles O43: the reset event is `resetEngine` of that engine, and any other event keeps a set ERR. -/
theorem resetEventClearsTheEngine : Obligations.ResetEventClearsTheEngine := by
  unfold Obligations.ResetEventClearsTheEngine
  refine ⟨fun s n a rest hin ha => ?_, fun s t n a b hs ha hb herr herr' => ?_⟩
  · obtain ⟨u, -, rfl, hengines, hmem, -, htrace, -, hat⟩ := atEngine_of_getElem? (s := { s with inputs := rest }) ha
    refine ⟨resetEngine u, (resetEngine u).eng, (step_cons hin).trans (hat _), engines_self (resetEngine u),
      status_eq_zero rfl rfl rfl, rfl, rfl, ?_, hmem, fun m hm => ?_⟩
    · rw [resetEngine_trace, htrace]
    · exact (engines_of_frame (t := resetEngine u) (u := u) rfl rfl m).trans (by rw [if_neg hm, hengines]; rfl)
  · cases hin : s.inputs with
    | nil =>
      rw [step_nil hin] at hs
      injection hs with hs
      subst hs
      rw [ha] at hb
      injection hb with hb
      rw [hb, herr'] at herr; cases herr
    | cons ev rest =>
      by_cases hev : ev = .reset n
      · rw [hev]; rfl
      · rw [step_keeps_err hin hs ha hb hev herr] at herr'; cases herr'

/-! ## Reading STATUS and RESULT -/

/-- The number of two bit vectors side by side. -/
theorem toNat_append_eq {m n : Nat} (x : BitVec m) (y : BitVec n) :
    (x ++ y).toNat = x.toNat * 2 ^ n + y.toNat := by
  rw [BitVec.toNat_append, ← Nat.shiftLeft_add_eq_or_of_lt y.isLt, Nat.shiftLeft_eq]

/-- Settles O11: the STATUS word is its parts side by side, BUSY the last. -/
theorem statusShowsBusyErrAndLastCode : Obligations.StatusShowsBusyErrAndLastCode := by
  unfold Obligations.StatusShowsBusyErrAndLastCode
  intro e
  have hbusy : e.busy = decide (e.phase ≠ .idle) := by cases hp : e.phase <;> simp [Engine.busy, hp]
  constructor
  · rw [Engine.status, BitVec.getLsbD_append, hbusy]
    simp
  · simp only [Engine.status, toNat_append_eq, BitVec.toNat_ofBool, hbusy]
    cases e.err <;> cases e.phase <;> simp <;> omega

/-- Settles O13: reading is one more entry of the record. -/
theorem statusReadsHaveNoSideEffect : Obligations.StatusReadsHaveNoSideEffect := by
  unfold Obligations.StatusReadsHaveNoSideEffect
  intro s n a rest ha
  obtain ⟨u, rfl, -, hengines, hmem, hinputs, htrace, hfree, hat⟩ :=
    atEngine_of_getElem? (s := { s with inputs := rest }) ha
  refine ⟨fun hin => ⟨_, (step_cons hin).trans (hat _), ?_⟩, fun hin => ⟨_, (step_cons hin).trans (hat _), ?_⟩⟩ <;>
    exact ⟨by rw [record_trace, htrace], hengines, hmem, hinputs, hfree⟩

end Sys2Proof.Machine
end

section
/-! PROOFS. A byte of memory changes only by a store (O46). -/

namespace Sys2Proof.Machine

/-! ## What a step has recorded -/

theorem since_append {s t : State} {acts : List Act} (h : t.trace = acts ++ s.trace) : since s t = acts := by
  simp [since, h]

theorem mem_since_of_cons {s t : State} {act : Act} (h : t.trace = act :: s.trace) : act ∈ since s t := by
  rw [since_append (acts := [act]) h]
  exact List.mem_singleton.mpr rfl

/-! ## INJECT over its whole span -/

/-- Since `s`, the engine in front has changed only bytes of the span of the field `[o, o + n)`, each by a store. -/
abbrev StoresInSpan (o n : Nat) (s x : State) : Prop :=
  ∃ acts, x.trace = acts ++ s.trace ∧ ∀ i, x.mem.read i ≠ s.mem.read i →
    (∃ v, Act.store (.engine s.self) i v ∈ acts) ∧ spanFirst o ≤ i ∧ i ≤ spanLast o n

/-- The chunk loop of INJECT between two chunks: it stands in the field, which ends where it did at ACCEPT. -/
abbrev InjectingInSpan (o n : Nat) (s x : State) : Prop :=
  x.self = s.self ∧ o ≤ x.eng.work.pos.toNat ∧ x.eng.work.pos.toNat + x.eng.work.rem.toNat = o + n ∧
    StoresInSpan o n s x

theorem injectChunk_in_span {o n : Nat} (hfield : o + n ≤ 2 ^ 32 - 1 + 32) {s x y : State}
    (h : InjectingInSpan o n s x) (hrem : x.eng.work.rem ≠ 0) (hc : injectChunk x = some y) :
    InjectingInSpan o n s y := by
  obtain rfl := injectChunk_some hc
  obtain ⟨hself, hpos, hend, acts, htrace, hstores⟩ := h
  have hk := chunkSize_le_rem x.eng.work.pos.toNat x.eng.work.rem.toNat
  have hr := advance_rem_toNat x.eng.work
  have hp := advance_pos_toNat (w := x.eng.work) (by omega)
  refine ⟨hself, ?_, ?_, _ :: _ :: acts, congrArg (_ :: _ :: ·) htrace, fun i hi => ?_⟩
  · show o ≤ x.eng.work.advance.pos.toNat
    omega
  · show x.eng.work.advance.pos.toNat + x.eng.work.advance.rem.toNat = o + n
    omega
  · by_cases hidx : x.eng.work.idx = i
    · have hpos' := rem_toNat_pos hrem
      refine ⟨⟨nextByte x, by simp [hself, hidx]⟩, ?_⟩
      rw [← hidx, Work.idx, chunkIdx, spanFirst, spanLast]
      omega
    · have hread : x.mem.read i ≠ s.mem.read i := by
        rwa [← Memory.read_write_of_ne x.mem hidx (nextByte x)]
      obtain ⟨⟨v, hv⟩, hspan⟩ := hstores i hread
      exact ⟨⟨v, by simp [hv]⟩, hspan⟩

/-- A whole INJECT changes only bytes of its span, each by a store (rules R39 and R84). -/
theorem exec_inject_stores {s t : State} {o v l : Word} {n : Count} (hp : s.eng.phase = .idle)
    (hc : (Instr.inject o n v l).operandCode = .ok) (he : exec (.inject o n v l) s = .next t) :
    StoresInSpan o.toNat n.toNat s t := by
  obtain ⟨-, hn, hlen⟩ := (operandCode_eq_ok_iff o n l).mp hc
  have ho := o.isLt
  have hpos : (o.setWidth 33).toNat = o.toNat := BitVec.toNat_setWidth_of_le (by omega)
  rw [exec_inject_of_ok hp hc] at he
  obtain ⟨u, hl, rfl⟩ := afterLoop_next he
  have hstart : InjectingInSpan o.toNat n.toNat s (startInject o n v l s) :=
    ⟨rfl, le_of_eq hpos.symm, congrArg (· + n.toNat) hpos, [], rfl, fun i hi => absurd rfl hi⟩
  obtain ⟨-, -, -, hstores⟩ := injectLoop_keeps_chunks
    (fun x y hx hrem hxy => injectChunk_in_span (by omega) hx hrem hxy) _ _ _ hstart hl
  exact hstores

/-- An EXTRACT leaves the memory alone (rule R80). -/
theorem exec_extract_mem {s t : State} {o l : Word} {n : Count} (hp : s.eng.phase = .idle)
    (he : exec (.extract o n l) s = .next t) : t.mem = s.mem := by
  rcases exec_next hp he with ⟨-, rfl⟩ | ⟨-, u, rfl, hu⟩
  · rfl
  · exact hu (fun x => x.mem = s.mem) ⟨rfl, fun x y hx hc => (extractChunk_frame hc).2.trans hx⟩

/-! ## The moves and the events of an engine -/

/-- The engine in front, at the WRITE step of an INJECT chunk at `i`, or at a whole INJECT whose span holds `i`. -/
abbrev Engine.Stores (a : Engine) (n i : Nat) (ev : Event) : Prop :=
  (a.phase = .run ∧ a.work.op = .inject ∧ a.work.step = .write ∧ a.work.idx = i ∧ (ev = .move n ∨ ev = .command n)) ∨
  (a.phase = .idle ∧ ev = .command n ∧
    ∃ cmd ws o c x l, a.port = cmd :: ws ∧ decode cmd = .ok (.inject o c x l) ∧
      spanFirst o.toNat ≤ i ∧ i ≤ spanLast o.toNat c.toNat)

theorem moveEngine_stores {u t : State} {i : Nat} (h : moveEngine u = .next t) (hi : t.mem.read i ≠ u.mem.read i) :
    (∃ v, Act.store (.engine u.self) i v ∈ since u t) ∧
      u.eng.phase = .run ∧ u.eng.work.op = .inject ∧ u.eng.work.step = .write ∧ u.eng.work.idx = i := by
  rcases moveEngine_next h with ⟨rfl, -⟩ | ⟨cmd, ws, -, -, rfl⟩ | ⟨-, -, rfl⟩ | ⟨hp, -, hchunk⟩
  · exact absurd rfl hi
  · rw [accept_mem] at hi; exact absurd rfl hi
  · exact absurd rfl hi
  · rcases hchunk with ⟨-, hc⟩ | ⟨-, -, hc⟩ | ⟨hop, hstep, hc⟩
    · rw [(extractChunk_frame hc).2] at hi; exact absurd rfl hi
    · rw [(injectRead_frame hc).2] at hi; exact absurd rfl hi
    · obtain ⟨-, rfl⟩ := injectWrite_some hc
      have hidx : u.eng.work.idx = i := by
        by_contra hne
        exact hi (Memory.read_write_of_ne _ hne _)
      exact ⟨⟨_, mem_since_of_cons (by rw [← hidx])⟩, hp, hop, hstep, hidx⟩

theorem runCommand_stores {u t : State} {i : Nat} (h : runCommand u = .next t) (hi : t.mem.read i ≠ u.mem.read i) :
    (∃ v, Act.store (.engine u.self) i v ∈ since u t) ∧ u.eng.Stores u.self i (.command u.self) := by
  rcases runCommand_next h with ⟨cmd, ws, c, -, -, -, rfl⟩ | ⟨cmd, ws, j, hp, hport, hd, he⟩ | ⟨-, hm⟩
  · exact absurd rfl hi
  · have hp' : (takeWord cmd ws u).eng.phase = .idle := hp
    cases j with
    | extract o n l => exact absurd (by rw [exec_extract_mem hp' he]; rfl) hi
    | inject o n v l =>
      by_cases hc : (Instr.inject o n v l).operandCode = .ok
      · obtain ⟨acts, htrace, hstores⟩ := exec_inject_stores hp' hc he
        obtain ⟨⟨w, hw⟩, hspan⟩ := hstores i hi
        have hsince : since u t = acts ++ [.command u.self cmd] := since_append (by simp [htrace])
        refine ⟨⟨w, by rw [hsince]; exact List.mem_append_left _ hw⟩,
          .inr ⟨hp, rfl, cmd, ws, o, n, v, l, hport, ?_, hspan⟩⟩
        rw [decode_of_decodeWord hd, if_pos hc]
      · rw [exec_of_fault hp' hc] at he
        injection he with he
        exact absurd (by rw [← he]; rfl) hi
  · obtain ⟨hstore, hp, hop, hstep, hidx⟩ := moveEngine_stores hm hi
    exact ⟨hstore, .inl ⟨hp, hop, hstep, hidx, .inr rfl⟩⟩

theorem EngineEvent.stores {ev : Event} {n i : Nat} {u t : State} (h : EngineEvent ev n u t) (hn : u.self = n)
    (hi : t.mem.read i ≠ u.mem.read i) :
    (∃ v, Act.store (.engine n) i v ∈ since u t) ∧ u.eng.Stores n i ev := by
  subst hn
  rcases h with ⟨cmd, -, rfl⟩ | ⟨rfl, hc⟩ | ⟨rfl, hm⟩ | ⟨-, rfl⟩ | ⟨-, rfl⟩ | ⟨-, rfl⟩ | ⟨-, rfl⟩
  · exact absurd rfl hi
  · exact runCommand_stores hc hi
  · obtain ⟨hstore, hp, hop, hstep, hidx⟩ := moveEngine_stores hm hi
    exact ⟨hstore, .inl ⟨hp, hop, hstep, hidx, .inl rfl⟩⟩
  · rw [takeResponse_mem] at hi; exact absurd rfl hi
  · exact absurd rfl hi
  · exact absurd rfl hi
  · exact absurd rfl hi

/-- Settles O46: the store of another agent, or an engine's, by the event. -/
theorem memoryChangesOnlyByStores : Obligations.MemoryChangesOnlyByStores := by
  unfold Obligations.MemoryChangesOnlyByStores
  intro s t ev rest i hin hs hi
  rw [step_cons hin] at hs
  rcases perform_next hs with ⟨n, u, hf, hev⟩ | ⟨j, -, -, rfl⟩ | ⟨j, v, rfl, -, rfl⟩
  · obtain ⟨-, hself, heng, hmem, -, htrace, -⟩ := focus_eq_some hf
    have hsince : since s t = since u t := by rw [since, since, htrace]
    obtain ⟨⟨v, hv⟩, hstores⟩ := EngineEvent.stores hev hself (by rw [hmem]; exact hi)
    exact .inr ⟨n, u.eng, v, heng, hsince ▸ hv, hstores⟩
  · exact absurd rfl hi
  · have hji : j = i := by
      by_contra hne
      exact hi (Memory.read_write_of_ne _ hne _)
    subst hji
    exact .inl ⟨v, rfl, mem_since_of_cons rfl⟩

end Sys2Proof.Machine
end

section
/-! PROOFS. The registers whose values the spec leaves unspecified are never read (O41): one rule per operation says that
it takes states that look the same to states that look the same. -/

namespace Sys2Proof.Machine

variable {x y : State} {a b : Engine}

/-! ## What is seen of the working registers in RUN -/

/-- The working registers in RUN without what is unspecified of them: `byte` before a READ step (rule R26). -/
def Work.seen (w : Work) : Work :=
  match w.step with
  | .read => { w with byte := 0 }
  | .write => w

theorem Work.seen_byte {w : Work} {v : Byte} (h : w.step = .write → v = w.byte) :
    ({ w with byte := v } : Work).seen = w.seen := by
  obtain ⟨op, pos, rem, acc, val, len, st, byte⟩ := w
  cases st with
  | read => rfl
  | write => rw [h rfl]

/-- Working registers that look the same differ in `byte` alone, and there only before a READ step. -/
theorem Work.byte_of_seen {w w' : Work} (h : w.seen = w'.seen) :
    ∃ v, w' = { w with byte := v } ∧ (w.step = .write → v = w.byte) := by
  obtain ⟨op, pos, rem, acc, val, len, st, byte⟩ := w
  obtain ⟨op', pos', rem', acc', val', len', st', byte'⟩ := w'
  refine ⟨byte', ?_⟩
  cases st <;> cases st' <;> simp_all [Work.seen]

theorem Engine.visible_work (hp : a.phase = .run) : a.visible.work = a.work.seen := by
  simp only [Engine.visible, Work.seen, hp]
  cases a.work.step <;> rfl

/-! ## Engines that look the same -/

theorem Engine.phase_of_visible (h : a.visible = b.visible) : b.phase = a.phase := by
  change b.visible.phase = a.visible.phase
  rw [h]

theorem Engine.port_of_visible (h : a.visible = b.visible) : b.port = a.port := by
  change b.visible.port = a.visible.port
  rw [h]

theorem Engine.status_of_visible (h : a.visible = b.visible) : b.status = a.status := by
  change b.visible.status = a.visible.status
  rw [h]

theorem Engine.rsp_of_visible (h : a.visible = b.visible) (hp : a.phase = .resp) : b.rsp = a.rsp := by
  have hrsp : b.visible.rsp = a.visible.rsp := congrArg Engine.rsp h.symm
  simpa [Engine.visible, hp, Engine.phase_of_visible h] using hrsp

theorem Engine.work_of_visible (h : a.visible = b.visible) (hp : a.phase = .run) :
    ∃ v, b.work = { a.work with byte := v } ∧ (a.work.step = .write → v = a.work.byte) := by
  have hwork : a.visible.work = b.visible.work := congrArg Engine.work h
  rw [Engine.visible_work hp, Engine.visible_work ((Engine.phase_of_visible h).trans hp)] at hwork
  exact Work.byte_of_seen hwork

theorem Engine.visible_setWork (hp : a.phase = .run) (w : Work) :
    ({ a with work := w } : Engine).visible = { a.visible with work := w.seen } := by
  rw [← Engine.visible_work (a := { a with work := w }) hp]
  rfl

/-! ## States that look the same -/

theorem State.eng_of_visible (h : x.visible = y.visible) : x.eng.visible = y.eng.visible := congrArg State.eng h

theorem State.phase_of_visible (h : x.visible = y.visible) : y.eng.phase = x.eng.phase :=
  Engine.phase_of_visible (State.eng_of_visible h)

theorem State.mem_of_visible (h : x.visible = y.visible) : y.mem = x.mem := by
  change y.visible.mem = x.visible.mem
  rw [h]

theorem State.free_of_visible (h : x.visible = y.visible) : y.free = x.free := by
  change y.visible.free = x.visible.free
  rw [h]

theorem State.self_of_visible (h : x.visible = y.visible) : y.self = x.self := by
  simpa [State.visible, State.self] using congrArg State.self h.symm

/-- Bringing an engine to the front commutes with taking away what is unspecified. -/
theorem focus_visible (n : Nat) (s : State) : s.visible.focus n = (s.focus n).map State.visible := by
  have hengines : s.visible.engines = s.engines.map Engine.visible := by simp [State.visible, State.engines]
  rw [State.focus, State.focus, hengines, ← List.map_drop, ← List.map_take]
  cases s.engines.drop n <;> rfl

/-! ## The parts of an operation, one rule each -/

theorem visible_setEng (h : x.visible = y.visible) (he : a.visible = b.visible) :
    (x.setEng a).visible = (y.setEng b).visible := by
  change x.visible.setEng a.visible = y.visible.setEng b.visible
  rw [h, he]

theorem visible_record (h : x.visible = y.visible) (act : Act) :
    (x.record act).visible = (y.record act).visible :=
  congrArg (State.record · act) h

theorem visible_write (h : x.visible = y.visible) (i : Nat) (v : Byte) (act : Act) :
    { x with mem := x.mem.write i v, trace := act :: x.trace }.visible =
      { y with mem := y.mem.write i v, trace := act :: y.trace }.visible :=
  congrArg (fun s : State => { s with mem := s.mem.write i v, trace := act :: s.trace }) h

/-- Outside RUN the working registers are not seen. -/
theorem visible_forgetWork (h : x.visible = y.visible) (hp : x.eng.phase ≠ .run) :
    x.forgetWork.visible = y.forgetWork.visible := by
  have forget (s : State) (hs : s.eng.phase ≠ .run) : s.forgetWork.visible = { s.visible with free := s.free + 8 } := by
    cases hs' : s.eng.phase
    case run => exact absurd hs' hs
    all_goals simp [State.visible, Engine.visible, hs']
  rw [forget x hp, forget y (by rwa [State.phase_of_visible h]), h, State.free_of_visible h]

/-- Outside RESP the response registers are not seen. -/
theorem visible_forgetRsp (h : x.visible = y.visible) (hp : x.eng.phase ≠ .resp) :
    x.forgetRsp.visible = y.forgetRsp.visible := by
  have forget (s : State) (hs : s.eng.phase ≠ .resp) : s.forgetRsp.visible = { s.visible with free := s.free + 2 } := by
    cases hs' : s.eng.phase
    case resp => exact absurd hs' hs
    all_goals simp [State.visible, Engine.visible, hs']
  rw [forget x hp, forget y (by rwa [State.phase_of_visible h]), h, State.free_of_visible h]

/-! ## The command lifecycle -/

theorem visible_takeWord (h : x.visible = y.visible) (cmd : CmdWord) (ws : List CmdWord) :
    (takeWord cmd ws x).visible = (takeWord cmd ws y).visible := by
  rw [takeWord, takeWord, State.self_of_visible h]
  exact visible_record (visible_setEng h
    (congrArg (fun e : Engine => { e with port := ws }) (State.eng_of_visible h))) _

theorem visible_enterResp (h : x.visible = y.visible) (c : Code) (r : Word) :
    (enterResp c r x).visible = (enterResp c r y).visible :=
  congrArg (fun s : State => s.setEng { s.eng with
    rsp := { code := codeBits c, result := r }, lastCode := codeBits c, result := r, err := errAfter s.eng.err c,
    phase := .resp, work := Work.reset }) h

/-- ACCEPT sets every working register (rule R67), so nothing of those before it is seen. -/
theorem visible_startRun (h : x.visible = y.visible) (op : Op) (o : Word) (n : Count) (v l : Word) :
    (startRun op o n v l x).visible = (startRun op o n v l y).visible :=
  congrArg (fun s : State => { s with
    eng := { s.eng with
      phase := .run, rsp := Rsp.reset
      work := { op := op, pos := o.setWidth 33, rem := n, acc := 0, val := v, len := l, step := .read, byte := 0 } }
    free := s.free + 1 }) h

theorem visible_accept (h : x.visible = y.visible) (cmd : CmdWord) :
    (accept cmd x).visible = (accept cmd y).visible := by
  cases hd : decode cmd with
  | error c => rw [accept_error hd, accept_error hd]; exact visible_enterResp h c 0
  | ok i =>
    cases i with
    | extract o n l => rw [accept_extract hd, accept_extract hd]; exact visible_startRun h ..
    | inject o n v l => rw [accept_inject hd, accept_inject hd]; exact visible_startRun h ..

theorem visible_finish (h : x.visible = y.visible) (hp : x.eng.phase = .run) :
    (finish x).visible = (finish y).visible := by
  obtain ⟨v, hwork, -⟩ := Engine.work_of_visible (State.eng_of_visible h) hp
  rw [finish, finish, hwork]
  exact visible_forgetWork (visible_enterResp h _ _) nofun

theorem visible_deliver (h : x.visible = y.visible) (hp : x.eng.phase = .resp) :
    (deliver x).visible = (deliver y).visible := by
  rw [deliver, deliver, State.self_of_visible h, Engine.rsp_of_visible (State.eng_of_visible h) hp]
  refine visible_forgetRsp (visible_record (visible_setEng h ?_) _) nofun
  exact congrArg (fun e : Engine => { e with phase := .idle, work := Work.reset, rsp := Rsp.reset })
    (State.eng_of_visible h)

theorem visible_takeResponse (h : x.visible = y.visible) : (takeResponse x).visible = (takeResponse y).visible := by
  have hp' := State.phase_of_visible h
  rcases takeResponse_cases x with ⟨hp, hx⟩ | ⟨hp, hx⟩ <;> rcases takeResponse_cases y with ⟨hq, hy⟩ | ⟨hq, hy⟩
  · rw [hx, hy]; exact visible_deliver h hp
  · exact absurd (hp'.trans hp) hq
  · exact absurd (hp'.symm.trans hq) hp
  · rw [hx, hy]; exact h

theorem visible_resetEngine (h : x.visible = y.visible) : (resetEngine x).visible = (resetEngine y).visible := by
  rw [resetEngine, resetEngine, State.self_of_visible h]
  refine visible_forgetRsp (visible_forgetWork (visible_record (visible_setEng h ?_) _) nofun) nofun
  exact congrArg (fun e : Engine => { e with
    err := false, lastCode := 0, result := 0, phase := .idle, work := Work.reset, rsp := Rsp.reset })
    (State.eng_of_visible h)

/-! ## The chunk steps -/

theorem visible_setWork (h : x.visible = y.visible) (hp : x.eng.phase = .run) {w w' : Work} (hw : w.seen = w'.seen) :
    ({ x.eng with work := w } : Engine).visible = ({ y.eng with work := w' } : Engine).visible := by
  rw [Engine.visible_setWork hp, Engine.visible_setWork ((State.phase_of_visible h).trans hp), hw,
    State.eng_of_visible h]

theorem visible_extractChunk (h : x.visible = y.visible) (hp : x.eng.phase = .run) :
    (extractChunk x).map State.visible = (extractChunk y).map State.visible := by
  obtain ⟨v, hwork, hv⟩ := Engine.work_of_visible (State.eng_of_visible h) hp
  have hmem := State.mem_of_visible h
  have hidx : y.eng.work.idx = x.eng.work.idx := by rw [hwork]; rfl
  have hread : y.mem.read x.eng.work.idx = x.mem.read x.eng.work.idx := by rw [hmem]
  by_cases hi : x.eng.work.idx < x.mem.size
  · rw [extractChunk_of_lt hi, extractChunk_of_lt (by rwa [hidx, hmem])]
    refine congrArg some ?_
    rw [afterExtractChunk, afterExtractChunk, hidx, hread, hwork, State.self_of_visible h]
    refine visible_setEng (visible_record h _) (visible_setWork h hp ?_)
    exact (Work.seen_byte (w := (afterExtractChunk x).eng.work) hv).symm
  · rw [extractChunk_of_ge (by omega), extractChunk_of_ge (by rw [hidx, hmem]; omega)]

/-- A READ step sets `byte`, so what was in it before is not seen after it. -/
theorem visible_injectRead (h : x.visible = y.visible) (hp : x.eng.phase = .run) :
    (injectRead x).map State.visible = (injectRead y).map State.visible := by
  obtain ⟨v, hwork, -⟩ := Engine.work_of_visible (State.eng_of_visible h) hp
  have hmem := State.mem_of_visible h
  have hidx : y.eng.work.idx = x.eng.work.idx := by rw [hwork]; rfl
  have hread : y.mem.read x.eng.work.idx = x.mem.read x.eng.work.idx := by rw [hmem]
  by_cases hi : x.eng.work.idx < x.mem.size
  · rw [injectRead_of_lt hi, injectRead_of_lt (by rwa [hidx, hmem])]
    refine congrArg some ?_
    rw [hidx, hread, hwork, State.self_of_visible h]
    refine visible_setEng (visible_record h _) (visible_setWork h hp ?_)
    rfl
  · rw [injectRead_of_ge (by omega), injectRead_of_ge (by rw [hidx, hmem]; omega)]

/-- A WRITE step reads `byte`, which is specified there. -/
theorem visible_injectWrite (h : x.visible = y.visible) (hp : x.eng.phase = .run) (hst : x.eng.work.step = .write) :
    (injectWrite x).map State.visible = (injectWrite y).map State.visible := by
  obtain ⟨v, hwork, hv⟩ := Engine.work_of_visible (State.eng_of_visible h) hp
  have hmem := State.mem_of_visible h
  have hwork' : y.eng.work = x.eng.work := by rw [hwork, hv hst]
  by_cases hi : x.eng.work.idx < x.mem.size
  · rw [injectWrite_of_lt hi, injectWrite_of_lt (by rwa [hwork', hmem])]
    refine congrArg some ?_
    rw [hwork', State.self_of_visible h]
    exact visible_setEng (visible_write h _ _ _) (visible_setWork h hp rfl)
  · rw [injectWrite_of_ge (by omega), injectWrite_of_ge (by rw [hwork', hmem]; omega)]

/-! ## The chunk loops -/

/-- Two chunk steps that answer the same to what is seen both answer a state, or neither. -/
theorem map_visible_cases {o o' : Option State} (h : o.map State.visible = o'.map State.visible) :
    (o = none ∧ o' = none) ∨ ∃ t t', o = some t ∧ o' = some t' ∧ t.visible = t'.visible := by
  cases o <;> cases o' <;> simp_all

theorem visible_injectChunk (h : x.visible = y.visible) (hp : x.eng.phase = .run) :
    (injectChunk x).map State.visible = (injectChunk y).map State.visible := by
  unfold injectChunk
  rcases map_visible_cases (visible_injectRead h hp) with ⟨hx, hy⟩ | ⟨t, t', hx, hy, ht⟩ <;> rw [hx, hy]
  obtain ⟨-, rfl⟩ := injectRead_some hx
  exact visible_injectWrite ht hp rfl

theorem visible_extractLoop (fuel : Nat) (h : x.visible = y.visible) (hp : x.eng.phase = .run) :
    (extractLoop fuel x).map State.visible = (extractLoop fuel y).map State.visible := by
  induction fuel generalizing x y with
  | zero => exact congrArg some h
  | succ fuel ih =>
    obtain ⟨v, hwork, -⟩ := Engine.work_of_visible (State.eng_of_visible h) hp
    rw [extractLoop, extractLoop, hwork]
    by_cases hrem : x.eng.work.rem = 0
    · rw [if_pos hrem, if_pos hrem]; exact congrArg some h
    · rw [if_neg hrem, if_neg hrem]
      rcases map_visible_cases (visible_extractChunk h hp) with ⟨hx, hy⟩ | ⟨t, t', hx, hy, ht⟩ <;> rw [hx, hy]
      obtain ⟨-, rfl⟩ := extractChunk_some hx
      exact ih ht hp

theorem visible_injectLoop (fuel : Nat) (h : x.visible = y.visible) (hp : x.eng.phase = .run) :
    (injectLoop fuel x).map State.visible = (injectLoop fuel y).map State.visible := by
  induction fuel generalizing x y with
  | zero => exact congrArg some h
  | succ fuel ih =>
    obtain ⟨v, hwork, -⟩ := Engine.work_of_visible (State.eng_of_visible h) hp
    rw [injectLoop, injectLoop, hwork]
    by_cases hrem : x.eng.work.rem = 0
    · rw [if_pos hrem, if_pos hrem]; exact congrArg some h
    · rw [if_neg hrem, if_neg hrem]
      rcases map_visible_cases (visible_injectChunk h hp) with ⟨hx, hy⟩ | ⟨t, t', hx, hy, ht⟩ <;> rw [hx, hy]
      obtain rfl := injectChunk_some hx
      exact ih ht hp

/-! ## The outcomes -/

/-- Two outcomes that look the same: states that look the same, or the same fault. -/
def SameOutcome : Host.Outcome State Fault Refusal → Host.Outcome State Fault Refusal → Prop
  | .next t, .next t' => t.visible = t'.visible
  | .fault r, .fault r' => r = r'
  | _, _ => False

theorem sameOutcome_orStuck {o o' : Option State} (h : o.map State.visible = o'.map State.visible) :
    SameOutcome (orStuck o) (orStuck o') := by
  rcases map_visible_cases h with ⟨rfl, rfl⟩ | ⟨t, t', rfl, rfl, ht⟩
  · rfl
  · exact ht

/-- The loop of a legal command, then FINISH. -/
theorem sameOutcome_afterLoop {o o' : Option State} (h : o.map State.visible = o'.map State.visible)
    (hp : ∀ t, o = some t → t.eng.phase = .run) : SameOutcome (afterLoop o) (afterLoop o') := by
  rcases map_visible_cases h with ⟨rfl, rfl⟩ | ⟨t, t', rfl, rfl, ht⟩
  · rfl
  · exact visible_finish ht (hp t rfl)

theorem visible_chunkMove (h : x.visible = y.visible) (hp : x.eng.phase = .run) :
    SameOutcome (chunkMove x) (chunkMove y) := by
  obtain ⟨v, hwork, -⟩ := Engine.work_of_visible (State.eng_of_visible h) hp
  rw [chunkMove, chunkMove, hwork]
  cases hop : x.eng.work.op with
  | extract => exact sameOutcome_orStuck (visible_extractChunk h hp)
  | inject =>
    cases hst : x.eng.work.step with
    | read => exact sameOutcome_orStuck (visible_injectRead h hp)
    | write => exact sameOutcome_orStuck (visible_injectWrite h hp hst)

theorem visible_moveEngine (h : x.visible = y.visible) :
    SameOutcome (moveEngine x) (moveEngine y) := by
  rw [moveEngine, moveEngine, State.phase_of_visible h, Engine.port_of_visible (State.eng_of_visible h)]
  cases hp : x.eng.phase with
  | idle =>
    cases x.eng.port with
    | nil => exact h
    | cons cmd ws => exact visible_accept (visible_takeWord h cmd ws) cmd
  | run =>
    obtain ⟨v, hwork, -⟩ := Engine.work_of_visible (State.eng_of_visible h) hp
    simp only [hwork]
    by_cases hrem : x.eng.work.rem = 0
    · rw [if_pos hrem, if_pos hrem]; exact visible_finish h hp
    · rw [if_neg hrem, if_neg hrem]; exact visible_chunkMove h hp
  | resp => exact h

theorem visible_exec (h : x.visible = y.visible) (hp : x.eng.phase = .idle) (i : Instr) :
    SameOutcome (exec i x) (exec i y) := by
  have hq : y.eng.phase = .idle := (State.phase_of_visible h).trans hp
  by_cases hc : i.operandCode = .ok
  · cases i with
    | extract o n l =>
      rw [exec_extract_of_ok hp hc, exec_extract_of_ok hq hc]
      exact sameOutcome_afterLoop (visible_extractLoop _ (visible_startRun h ..) rfl)
        fun t => extractLoop_keeps (P := (·.eng.phase = .run)) (fun _ _ hx hc => by
          obtain ⟨-, rfl⟩ := extractChunk_some hc; exact hx) _ _ _ rfl
    | inject o n v l =>
      rw [exec_inject_of_ok hp hc, exec_inject_of_ok hq hc]
      exact sameOutcome_afterLoop (visible_injectLoop _ (visible_startRun h ..) rfl)
        fun t => injectLoop_keeps_chunks (P := (·.eng.phase = .run)) (fun _ _ hx _ hc => by
          obtain rfl := injectChunk_some hc; exact hx) _ _ _ rfl
  · rw [exec_of_fault hp hc, exec_of_fault hq hc]
    exact visible_enterResp h _ _

theorem visible_runCommand (h : x.visible = y.visible) :
    SameOutcome (runCommand x) (runCommand y) := by
  rw [runCommand, runCommand, State.phase_of_visible h, Engine.port_of_visible (State.eng_of_visible h)]
  cases hp : x.eng.phase with
  | run | resp => exact visible_moveEngine h
  | idle =>
    cases x.eng.port with
    | nil => exact visible_moveEngine h
    | cons cmd ws =>
      have htake := visible_takeWord h cmd ws
      cases hd : decodeWord cmd with
      | error c => simp only [hd]; exact visible_enterResp htake c 0
      | ok i => simp only [hd]; exact visible_exec htake hp i

/-! ## The events -/

/-- An event about an engine sees of that engine, and of the platform, no more than the move it makes does. -/
theorem visible_atEngine {f : State → Host.Outcome State Fault Refusal} (h : x.visible = y.visible) (n : Nat)
    (hf : ∀ u u' : State, u.visible = u'.visible → SameOutcome (f u) (f u')) :
    SameOutcome (atEngine n x f) (atEngine n y f) := by
  have hfocus : (x.focus n).map State.visible = (y.focus n).map State.visible := by
    rw [← focus_visible, ← focus_visible, h]
  rcases map_visible_cases hfocus with ⟨hx, hy⟩ | ⟨u, u', hx, hy, hu⟩ <;> rw [atEngine, atEngine, hx, hy]
  · rfl
  · exact hf u u' hu

theorem visible_perform (h : x.visible = y.visible) (ev : Event) :
    SameOutcome (perform ev x) (perform ev y) := by
  have hmem := State.mem_of_visible h
  cases ev with
  | offer n cmd =>
    refine visible_atEngine h n fun u u' hu => visible_setEng hu ?_
    exact congrArg (fun e : Engine => { e with port := e.port ++ [cmd] }) (State.eng_of_visible hu)
  | command n => exact visible_atEngine h n fun u u' => visible_runCommand
  | move n => exact visible_atEngine h n fun u u' => visible_moveEngine
  | take n => exact visible_atEngine h n fun u u' hu => visible_takeResponse hu
  | status n =>
    refine visible_atEngine h n fun u u' hu => ?_
    exact congrArg (fun s : State => s.record (.status n s.eng.status)) hu
  | result n =>
    refine visible_atEngine h n fun u u' hu => ?_
    exact congrArg (fun s : State => s.record (.result n s.eng.result)) hu
  | reset n => exact visible_atEngine h n fun u u' hu => visible_resetEngine hu
  | load i =>
    rw [perform, perform, memRead, memRead, hmem]
    by_cases hi : i < x.mem.size
    · rw [if_pos hi, if_pos hi]; exact visible_record h _
    · rw [if_neg hi, if_neg hi]; rfl
  | store i v =>
    by_cases hi : i < x.mem.size
    · rw [perform, perform, memWrite_of_lt hi, memWrite_of_lt (by rwa [hmem])]
      exact visible_write h _ _ _
    · rw [perform, perform, memWrite_of_ge (by omega), memWrite_of_ge (by rw [hmem]; omega)]
      rfl

theorem visible_step (h : x.visible = y.visible) : SameOutcome (step x) (step y) := by
  have hin : y.inputs = x.inputs := by
    change y.visible.inputs = x.visible.inputs
    rw [h]
  cases hx : x.inputs with
  | nil => rw [step_nil hx, step_nil (hin.trans hx)]; exact h
  | cons ev rest =>
    rw [step_cons hx, step_cons (hin.trans hx)]
    exact visible_perform (congrArg (fun s : State => { s with inputs := rest }) h) ev

/-- Settles O41: each operation takes states that look the same to states that look the same. -/
theorem unspecifiedRegistersAreNeverRead : Obligations.UnspecifiedRegistersAreNeverRead := by
  unfold Obligations.UnspecifiedRegistersAreNeverRead
  intro s s' h
  exact visible_step h

end Sys2Proof.Machine
end

section
/-! PROOFS. The record of transfers replays to the memory (O52): each operation keeps that, and the moves, the commands
and the events are put together from the operations. -/

namespace Sys2Proof.Machine

variable {m : Memory} {n : Nat} {s t u : State}

/-- The record of `s` gives the memory of `s` from the memory `m`, each load returning the byte that was there. -/
abbrev State.Replays (m : Memory) (s : State) : Prop := replay m s.trace = some s.mem

theorem State.Replays.load (h : s.Replays m) (hm : t.mem = s.mem) {who : Agent} {i : Nat}
    (ht : t.trace = .load who i (s.mem.read i) :: s.trace) : t.Replays m := by
  simp [State.Replays, ht, hm, replay, h]

theorem State.Replays.store (h : s.Replays m) {who : Agent} {i : Nat} {v : Byte} (hm : t.mem = s.mem.write i v)
    (ht : t.trace = .store who i v :: s.trace) : t.Replays m := by
  simp [State.Replays, ht, hm, replay, h]

theorem extractChunk_replays (h : s.Replays m) (hc : extractChunk s = some t) : t.Replays m := by
  obtain ⟨-, rfl⟩ := extractChunk_some hc
  exact h.load rfl rfl

theorem injectRead_replays (h : s.Replays m) (hc : injectRead s = some t) : t.Replays m := by
  obtain ⟨-, rfl⟩ := injectRead_some hc
  exact h.load rfl rfl

theorem injectWrite_replays (h : s.Replays m) (hc : injectWrite s = some t) : t.Replays m := by
  obtain ⟨-, rfl⟩ := injectWrite_some hc
  exact h.store rfl rfl

theorem takeWord_replays (h : s.Replays m) (cmd : CmdWord) (ws : List CmdWord) : (takeWord cmd ws s).Replays m := by
  simp [State.Replays, replay, h]

theorem accept_replays (h : s.Replays m) (cmd : CmdWord) : (accept cmd s).Replays m := by
  unfold accept; split <;> exact h

theorem takeResponse_replays (h : s.Replays m) : (takeResponse s).Replays m := by
  rcases takeResponse_cases s with ⟨-, ht⟩ | ⟨-, ht⟩ <;> rw [ht]
  · simp [State.Replays, replay, h]
  · exact h

theorem resetEngine_replays (h : s.Replays m) : (resetEngine s).Replays m := by
  simp [State.Replays, replay, h]

theorem exec_replays {i : Instr} (hp : s.eng.phase = .idle) (h : s.Replays m) (he : exec i s = .next t) :
    t.Replays m := by
  rcases exec_next hp he with ⟨-, rfl⟩ | ⟨-, x, rfl, hx⟩
  · exact h
  · refine hx (State.Replays m) ?_
    cases i with
    | extract o n l => exact ⟨h, fun _ _ => extractChunk_replays⟩
    | inject o n v l => exact ⟨h, fun _ _ => injectRead_replays, fun _ _ => injectWrite_replays⟩

theorem moveEngine_replays (h : s.Replays m) (hs : moveEngine s = .next t) : t.Replays m := by
  rcases moveEngine_next hs with ⟨rfl, -⟩ | ⟨cmd, ws, -, -, rfl⟩ | ⟨-, -, rfl⟩ | ⟨-, -, hchunk⟩
  · exact h
  · exact accept_replays (takeWord_replays h cmd ws) cmd
  · exact h
  · rcases hchunk with ⟨-, hc⟩ | ⟨-, -, hc⟩ | ⟨-, -, hc⟩
    · exact extractChunk_replays h hc
    · exact injectRead_replays h hc
    · exact injectWrite_replays h hc

theorem runCommand_replays (h : s.Replays m) (hs : runCommand s = .next t) : t.Replays m := by
  rcases runCommand_next hs with ⟨cmd, ws, c, -, -, -, rfl⟩ | ⟨cmd, ws, i, hp, -, -, he⟩ | ⟨-, hm⟩
  · exact takeWord_replays h cmd ws
  · exact exec_replays (s := takeWord cmd ws s) hp (takeWord_replays h cmd ws) he
  · exact moveEngine_replays h hm

theorem EngineEvent.replays {ev : Event} (hev : EngineEvent ev n u t) (h : u.Replays m) : t.Replays m := by
  rcases hev with ⟨cmd, -, rfl⟩ | ⟨-, hc⟩ | ⟨-, hm⟩ | ⟨-, rfl⟩ | ⟨-, rfl⟩ | ⟨-, rfl⟩ | ⟨-, rfl⟩
  · exact h
  · exact runCommand_replays h hc
  · exact moveEngine_replays h hm
  · exact takeResponse_replays h
  · simp [State.Replays, replay, h]
  · simp [State.Replays, replay, h]
  · exact resetEngine_replays h

theorem perform_replays {ev : Event} (h : s.Replays m) (hs : perform ev s = .next t) : t.Replays m := by
  rcases perform_next hs with ⟨n, u, hf, hev⟩ | ⟨i, -, -, rfl⟩ | ⟨i, v, -, -, rfl⟩
  · obtain ⟨-, -, -, hmem, -, htrace, -⟩ := focus_eq_some hf
    exact EngineEvent.replays hev (by rw [State.Replays, htrace, hmem]; exact h)
  · exact h.load rfl rfl
  · exact h.store rfl rfl

/-- Settles O52: a load records the byte it read and a store the byte it wrote, in every event. -/
theorem recordIsSequentiallyConsistent : Obligations.RecordIsSequentiallyConsistent := by
  unfold Obligations.RecordIsSequentiallyConsistent
  intro m s t h hs
  cases hin : s.inputs with
  | nil => rw [step_nil hin] at hs; injection hs with hs; exact hs ▸ h
  | cons ev rest => rw [step_cons hin] at hs; exact perform_replays (s := { s with inputs := rest }) h hs

end Sys2Proof.Machine
end

section
/-! PROOFS. One command of an engine is outstanding at a time, from its word to its response or a reset (O53; rules R45,
R57, R109, R110): what one transfer does to what is outstanding, then each operation, then the events. -/

namespace Sys2Proof.Machine

variable {n : Nat} {s t u : State} {acts : List Act}

/-! ## One transfer -/

/-- The engine a transfer is about; none for an access of another agent. -/
def Act.engine? : Act → Option Nat
  | .command n _ | .response n _ | .status n _ | .result n _ | .reset n => some n
  | .load (.engine n) _ _ | .store (.engine n) _ _ => some n
  | .load .other _ _ | .store .other _ _ => none

/-- A transfer of another engine, or of no engine, changes nothing of what is outstanding. -/
theorem outstanding_cons_of_ne {a : Act} (h : a.engine? ≠ some n) :
    outstanding n (a :: acts) = outstanding n acts := by
  cases a with
  | command m _ | response m _ | reset m =>
    have hne : m ≠ n := fun hmn => h (congrArg some hmn)
    simp [outstanding, hne]
  | load who _ _ | store who _ _ =>
    cases who with
    | engine m =>
      have hne : m ≠ n := fun hmn => h (congrArg some hmn)
      simp [outstanding, hne]
    | other => rfl
  | status | result => rfl

/-- An access of an engine with a command outstanding leaves it outstanding. -/
theorem outstanding_load (h : outstanding n acts = some true) (i : Nat) (v : Byte) :
    outstanding n (.load (.engine n) i v :: acts) = some true := by
  simp [outstanding, h]

theorem outstanding_store (h : outstanding n acts = some true) (i : Nat) (v : Byte) :
    outstanding n (.store (.engine n) i v :: acts) = some true := by
  simp [outstanding, h]

/-! ## From one state to another -/

/-- The record shows a command of the engine in front outstanding exactly when that engine is not IDLE. -/
abbrev State.FrontOutstanding (s : State) : Prop :=
  outstanding s.self s.trace = some (decide (s.eng.phase ≠ .idle))

/-- From `s` to `t` the engine in front keeps the protocol, and the record shows nothing new of any other engine. -/
abbrev KeepsProtocol (s t : State) : Prop :=
  t.self = s.self ∧ (∀ k ≠ s.self, outstanding k t.trace = outstanding k s.trace) ∧
    (s.FrontOutstanding → t.FrontOutstanding)

theorem KeepsProtocol.trans (h : KeepsProtocol s t) (h' : KeepsProtocol t u) : KeepsProtocol s u := by
  obtain ⟨hself, hothers, hfront⟩ := h
  obtain ⟨hself', hothers', hfront'⟩ := h'
  exact ⟨hself'.trans hself, fun k hk => (hothers' k (hself ▸ hk)).trans (hothers k hk), fun hs => hfront' (hfront hs)⟩

/-- Where nothing is recorded, the engine is to be IDLE after where it was before. -/
theorem KeepsProtocol.of_trace_eq (hself : t.self = s.self) (ht : t.trace = s.trace)
    (hp : t.eng.phase = .idle ↔ s.eng.phase = .idle) : KeepsProtocol s t :=
  ⟨hself, fun k _ => by rw [ht], fun h => by rw [State.FrontOutstanding, hself, ht, h]; simp [hp]⟩

/-- Where one transfer of the engine in front is recorded, it is to lead from the one phase to the other. -/
theorem KeepsProtocol.of_trace_cons {a : Act} (hself : t.self = s.self) (ht : t.trace = a :: s.trace)
    (ha : a.engine? = some s.self)
    (hfront : s.FrontOutstanding → outstanding s.self (a :: s.trace) = some (decide (t.eng.phase ≠ .idle))) :
    KeepsProtocol s t := by
  refine ⟨hself, fun k hk => ?_, fun h => ?_⟩
  · rw [ht, outstanding_cons_of_ne (by rw [ha]; simpa using hk.symm)]
  · rw [State.FrontOutstanding, hself, ht]; exact hfront h

/-- A command is taken from IDLE only, and leaves the engine busy (rule R67). -/
theorem KeepsProtocol.of_command {cmd : CmdWord} (hself : t.self = s.self)
    (ht : t.trace = .command s.self cmd :: s.trace) (hp : s.eng.phase = .idle) (hp' : t.eng.phase ≠ .idle) :
    KeepsProtocol s t :=
  .of_trace_cons hself ht rfl fun h => by simp [outstanding, h, hp, hp']

/-! ## The operations -/

theorem extractChunk_keepsProtocol (hp : s.eng.phase = .run) (hc : extractChunk s = some t) : KeepsProtocol s t := by
  obtain ⟨-, rfl⟩ := extractChunk_some hc
  refine .of_trace_cons rfl rfl rfl fun h => ?_
  rw [outstanding_load (h.trans (by simp [hp]))]
  simp [afterExtractChunk, hp]

theorem injectRead_keepsProtocol (hp : s.eng.phase = .run) (hc : injectRead s = some t) : KeepsProtocol s t := by
  obtain ⟨-, rfl⟩ := injectRead_some hc
  refine .of_trace_cons rfl rfl rfl fun h => ?_
  rw [outstanding_load (h.trans (by simp [hp]))]
  simp [hp]

theorem injectWrite_keepsProtocol (hp : s.eng.phase = .run) (hc : injectWrite s = some t) : KeepsProtocol s t := by
  obtain ⟨-, rfl⟩ := injectWrite_some hc
  refine .of_trace_cons rfl rfl rfl fun h => ?_
  rw [outstanding_store (h.trans (by simp [hp]))]
  simp [hp]

theorem SameButWork.phase (h : SameButWork s t) : t.eng.phase = s.eng.phase := by
  obtain ⟨-, -, -, -, -, heng⟩ := h
  rw [heng]

/-- From the IDLE state `s` a command has been taken and is under way in `x`. -/
abbrev UnderWay (s x : State) : Prop := KeepsProtocol s x ∧ x.eng.phase = .run

theorem UnderWay.chunk {x y : State} (h : UnderWay s x) (hxy : KeepsProtocol x y) (hframe : SameButWork x y) :
    UnderWay s y :=
  ⟨h.1.trans hxy, hframe.phase.trans h.2⟩

theorem finish_keepsProtocol (hp : s.eng.phase = .run) : KeepsProtocol s (finish s) :=
  .of_trace_eq rfl rfl (by simp [hp])

/-- A whole command, from the word taken from the port to its response (rule R76). -/
theorem exec_takeWord_keepsProtocol {cmd : CmdWord} {ws : List CmdWord} {i : Instr} (hp : s.eng.phase = .idle)
    (he : exec i (takeWord cmd ws s) = .next t) : KeepsProtocol s t := by
  rcases exec_next (s := takeWord cmd ws s) hp he with ⟨-, rfl⟩ | ⟨-, x, rfl, hx⟩
  · exact .of_command rfl rfl hp nofun
  · suffices UnderWay s x from this.1.trans (finish_keepsProtocol this.2)
    refine hx (UnderWay s) ?_
    cases i with
    | extract o n l =>
      exact ⟨⟨.of_command rfl rfl hp nofun, rfl⟩,
        fun x y h hc => UnderWay.chunk h (extractChunk_keepsProtocol h.2 hc) (extractChunk_frame hc).1⟩
    | inject o n v l =>
      exact ⟨⟨.of_command rfl rfl hp nofun, rfl⟩,
        fun x y h hc => UnderWay.chunk h (injectRead_keepsProtocol h.2 hc) (injectRead_frame hc).1,
        fun x y h hc => UnderWay.chunk h (injectWrite_keepsProtocol h.2 hc) (injectWrite_frame hc)⟩

theorem accept_takeWord_keepsProtocol {cmd : CmdWord} {ws : List CmdWord} (hp : s.eng.phase = .idle) :
    KeepsProtocol s (accept cmd (takeWord cmd ws s)) := by
  unfold accept
  split <;> exact .of_command rfl rfl hp nofun

theorem moveEngine_keepsProtocol (hs : moveEngine s = .next t) : KeepsProtocol s t := by
  rcases moveEngine_next hs with ⟨rfl, -⟩ | ⟨cmd, ws, hp, -, rfl⟩ | ⟨hp, -, rfl⟩ | ⟨hp, -, hchunk⟩
  · exact .of_trace_eq rfl rfl .rfl
  · exact accept_takeWord_keepsProtocol hp
  · exact finish_keepsProtocol hp
  · rcases hchunk with ⟨-, hc⟩ | ⟨-, -, hc⟩ | ⟨-, -, hc⟩
    · exact extractChunk_keepsProtocol hp hc
    · exact injectRead_keepsProtocol hp hc
    · exact injectWrite_keepsProtocol hp hc

theorem runCommand_keepsProtocol (hs : runCommand s = .next t) : KeepsProtocol s t := by
  rcases runCommand_next hs with ⟨cmd, ws, c, hp, -, -, rfl⟩ | ⟨cmd, ws, i, hp, -, -, he⟩ | ⟨-, hm⟩
  · exact .of_command rfl rfl hp nofun
  · exact exec_takeWord_keepsProtocol hp he
  · exact moveEngine_keepsProtocol hm

/-- A response is there only in RESP, where its command is outstanding. -/
theorem takeResponse_keepsProtocol (s : State) : KeepsProtocol s (takeResponse s) := by
  rcases takeResponse_cases s with ⟨hp, ht⟩ | ⟨-, ht⟩ <;> rw [ht]
  · exact .of_trace_cons rfl rfl rfl fun h => by simp [outstanding, h, hp]
  · exact .of_trace_eq rfl rfl .rfl

theorem resetEngine_keepsProtocol (s : State) : KeepsProtocol s (resetEngine s) :=
  .of_trace_cons rfl rfl rfl fun h => by simp [outstanding, h]

/-! ## The events -/

theorem EngineEvent.keepsProtocol {ev : Event} (hev : EngineEvent ev n u t) (hn : u.self = n) :
    KeepsProtocol u t := by
  subst hn
  rcases hev with ⟨cmd, -, rfl⟩ | ⟨-, hc⟩ | ⟨-, hm⟩ | ⟨-, rfl⟩ | ⟨-, rfl⟩ | ⟨-, rfl⟩ | ⟨-, rfl⟩
  · exact .of_trace_eq rfl rfl .rfl
  · exact runCommand_keepsProtocol hc
  · exact moveEngine_keepsProtocol hm
  · exact takeResponse_keepsProtocol u
  · exact .of_trace_cons rfl rfl rfl id
  · exact .of_trace_cons rfl rfl rfl id
  · exact resetEngine_keepsProtocol u

/-- The protocol of every engine of the platform, as the record shows it. -/
abbrev State.Protocol (s : State) : Prop :=
  ∀ (n : Nat) (e : Engine), s.engines[n]? = some e → outstanding n s.trace = some (decide (e.phase ≠ .idle))

/-- Where the engine in front keeps the protocol and no other engine has changed, every engine keeps it. -/
theorem State.Protocol.of_front (h : u.Protocol) (hb : t.before = u.before) (ha : t.after = u.after)
    (hkeep : KeepsProtocol u t) : t.Protocol := by
  obtain ⟨hself, hothers, hfront⟩ := hkeep
  intro n e he
  rw [engines_of_frame hb ha] at he
  by_cases hn : n = u.self
  · rw [if_pos hn] at he
    injection he with he
    rw [hn, ← hself, ← he]
    exact hfront (h _ _ (engines_self u))
  · rw [if_neg hn] at he
    rw [hothers n hn]
    exact h n e he

theorem perform_protocol {ev : Event} (h : s.Protocol) (hs : perform ev s = .next t) : t.Protocol := by
  rcases perform_next hs with ⟨n, u, hf, hev⟩ | ⟨i, -, -, rfl⟩ | ⟨i, v, -, -, rfl⟩
  · obtain ⟨hengines, hself, -, -, -, htrace, -⟩ := focus_eq_some hf
    obtain ⟨hb, ha, -⟩ := EngineEvent.frame hev
    have hu : u.Protocol := by rw [State.Protocol, hengines, htrace]; exact h
    exact hu.of_front hb ha (EngineEvent.keepsProtocol hev hself)
  · exact h
  · exact h

/-- Settles O53: each event takes the engine it is about from one phase to another as the transfers it records say. -/
theorem eachCommandGetsOneResponseInOrder : Obligations.EachCommandGetsOneResponseInOrder := by
  unfold Obligations.EachCommandGetsOneResponseInOrder
  intro s t h hs
  cases hin : s.inputs with
  | nil => rw [step_nil hin] at hs; injection hs with hs; exact hs ▸ h
  | cons ev rest => rw [step_cons hin] at hs; exact perform_protocol (s := { s with inputs := rest }) h hs

end Sys2Proof.Machine
end

section
/-! PROOFS. The accesses of a whole command and what it makes of memory (O17, O23, O24), and the accesses that have no
step (O26), from the closed forms of the two chunk loops. -/

namespace Sys2Proof.Machine

variable {s : State} {o v l : Word} {n : Count}

/-! ## Each byte of the span once (rules R39, R72 and R74) -/

/-- The chunks of a field are as many as the bytes of its span. -/
theorem spanFirst_add_chunkCount {o n : Nat} (h : 1 ≤ n) : spanFirst o + chunkCount o n = spanLast o n + 1 := by
  unfold spanFirst chunkCount spanLast; omega

/-- The span of a legal command lies below LEN (rule R94). -/
theorem spanLast_lt_len (hc : operandCode o n l = .ok) : spanLast o.toNat n.toNat < l.toNat := by
  obtain ⟨hn, -, hlen⟩ := (operandCode_eq_ok_iff o n l).mp hc
  unfold spanLast; omega

/-- Settles O24: the closed forms of the chunk loops say what is recorded, and a fault records nothing. -/
theorem commandsAccessTheirSpanOnceInOrder : Obligations.CommandsAccessTheirSpanOnceInOrder := by
  unfold Obligations.CommandsAccessTheirSpanOnceInOrder
  refine ⟨fun s o n l hp hw hs => ?_, fun s o n v l hwf hp hw hs => ?_, fun s t i hp hw he => ?_,
    fun o n => spanFirst_add_chunkCount, fun o n v l hw => ?_⟩
  · obtain ⟨w, he, -, -⟩ := execExtract_runs hp ((extract_wellFormed_iff o n l).mp hw) hs
    exact ⟨_, he, rfl⟩
  · obtain ⟨w, m, he, -⟩ := execInject_runs hwf hp ((inject_wellFormed_iff o n v l).mp hw) hs
    exact ⟨_, he, rfl⟩
  · have hc : i.operandCode ≠ .ok := fun hok => by simp [(wellFormed_iff i).mpr hok] at hw
    rw [exec_of_fault hp hc] at he
    injection he with he
    exact he ▸ ⟨rfl, rfl⟩
  · exact spanLast_lt_len (hw.elim (extract_wellFormed_iff o n l).mp (inject_wellFormed_iff o n v l).mp)

/-! ## A whole command, by what it makes of RESULT and memory -/

/-- A legal EXTRACT in memory returns its field and leaves memory alone (rules R78 and R79). -/
theorem exec_extract_fieldValue (hp : s.eng.phase = .idle) (hw : (Instr.extract o n l).wellFormed = true)
    (hs : spanLast o.toNat n.toNat < s.mem.size) :
    ∃ t, exec (.extract o n l) s = .next t ∧ t.eng.result.toNat = fieldValue s.mem o.toNat n.toNat ∧ t.mem = s.mem := by
  obtain ⟨w, he, hop, hacc⟩ := execExtract_runs hp ((extract_wellFormed_iff o n l).mp hw) hs
  exact ⟨_, he, by rw [finish_result]; simp only [hop, hacc], rfl⟩

/-- A legal INJECT in memory leaves it in canonical form, each bit of the field that of VALUE and every other bit as it
was (rule R84). -/
theorem exec_inject_bits (hwf : s.mem.wf = true) (hp : s.eng.phase = .idle)
    (hw : (Instr.inject o n v l).wellFormed = true) (hs : spanLast o.toNat n.toNat < s.mem.size) :
    ∃ t, exec (.inject o n v l) s = .next t ∧ t.mem.wf = true ∧ t.mem.size = s.mem.size ∧
      ∀ i q, q < 8 → (t.mem.read i).getLsbD q =
        if o.toNat ≤ 8 * i + (7 - q) ∧ 8 * i + (7 - q) < o.toNat + n.toNat
        then v.toNat.testBit (n.toNat - 1 - (8 * i + (7 - q) - o.toNat)) else (s.mem.read i).getLsbD q := by
  obtain ⟨w, m, he, -, hmwf, hsize, hbits⟩ :=
    execInject_runs hwf hp ((inject_wellFormed_iff o n v l).mp hw) hs
  exact ⟨_, he, hmwf, hsize, hbits⟩

/-! ## Byte-aligned fields (rule R35) -/

/-- A byte-aligned field of whole bytes is their big-endian value. -/
theorem fieldValue_aligned (m : Memory) {o : Nat} (ho : o % 8 = 0) (k : Nat) :
    fieldValue m o (8 * k) = (List.range k).foldl (fun acc j => acc * 256 + (m.read (o / 8 + j)).toNat) 0 := by
  induction k with
  | zero => rfl
  | succ k ih =>
    have hbyte : fieldValue m (o + 8 * k) 8 = (m.read (o / 8 + k)).toNat := by
      have hlt := (m.read (o / 8 + k)).isLt
      rw [fieldValue_in_byte m _ 8 (by omega), show (o + 8 * k) / 8 = o / 8 + k by omega,
        show 8 - (o + 8 * k) % 8 - 8 = 0 by omega, Nat.pow_zero, Nat.div_one, Nat.mod_eq_of_lt hlt]
    rw [Nat.mul_succ, fieldValue_add, hbyte, ih, List.range_succ, List.foldl_append]
    rfl

/-- Settles O17: RESULT is the field, and the field is the bytes big-endian. -/
theorem alignedExtractIsBigEndian : Obligations.AlignedExtractIsBigEndian := by
  unfold Obligations.AlignedExtractIsBigEndian
  intro s o n l m hp hw ho hn hs
  obtain ⟨t, he, hresult, -⟩ := exec_extract_fieldValue hp hw hs
  exact ⟨t, he, by rw [hresult, hn, fieldValue_aligned s.mem ho]⟩

/-! ## The same command twice (rule R41) -/

/-- Settles O23: the second EXTRACT reads the memory the first read, the second INJECT writes the bits the first wrote. -/
theorem repeatedCommandsAgree : Obligations.RepeatedCommandsAgree := by
  unfold Obligations.RepeatedCommandsAgree
  refine ⟨fun s o n l hp hw hs => ?_, fun s o n v l hwf hp hw hs => ?_⟩
  · obtain ⟨t, he, hresult, hmem⟩ := exec_extract_fieldValue hp hw hs
    obtain ⟨u, he', hresult', -⟩ := exec_extract_fieldValue (s := deliver t) rfl hw (by rwa [deliver_mem, hmem])
    refine ⟨t, u, he, he', BitVec.eq_of_toNat_eq ?_⟩
    rw [hresult', hresult, deliver_mem, hmem]
  · obtain ⟨t, he, htwf, hsize, hbits⟩ := exec_inject_bits hwf hp hw hs
    obtain ⟨u, he', huwf, hsize', hbits'⟩ :=
      exec_inject_bits (s := deliver t) htwf rfl hw (by rwa [deliver_mem, hsize])
    refine ⟨t, u, he, he', Memory.ext_read huwf htwf hsize' fun i => BitVec.eq_of_getLsbD_eq fun q hq => ?_⟩
    rw [hbits' i q hq, deliver_mem, hbits i q hq]
    split <;> rfl

/-! ## Beyond the memory (rule R43) -/

/-- The chunk step of an engine whose next byte is not in memory is not enabled. -/
theorem chunkMove_of_ge (h : s.mem.size ≤ s.eng.work.idx) : chunkMove s = .fault .beyondMemory := by
  unfold chunkMove
  split
  · rw [extractChunk_of_ge h]; rfl
  · rw [injectRead_of_ge h]; rfl
  · rw [injectWrite_of_ge h]; rfl

theorem moveEngine_of_run (hp : s.eng.phase = .run) (hrem : s.eng.work.rem ≠ 0) : moveEngine s = chunkMove s := by
  simp only [moveEngine, hp, if_neg hrem]

/-- A whole command on the port waits while the engine is busy: the step is the engine's own (log entry 8). -/
theorem runCommand_of_run (hp : s.eng.phase = .run) : runCommand s = moveEngine s := by
  simp only [runCommand, hp]

/-- The field that ACCEPT of a legal command starts on (rule R67). -/
theorem startRun_field (op : Op) (x : Word) (hc : operandCode o n l = .ok) (s : State) :
    (startRun op o n x l s).eng.work.pos.toNat = o.toNat ∧ (startRun op o n x l s).eng.work.rem ≠ 0 ∧
      o.toNat + n.toNat ≤ 2 ^ 32 - 1 + 32 := by
  obtain ⟨hn, hn32, -⟩ := (operandCode_eq_ok_iff o n l).mp hc
  have ho := o.isLt
  refine ⟨BitVec.toNat_setWidth_of_le (by omega), fun h0 => ?_, by omega⟩
  have hzero : n = 0 := h0
  simp [hzero] at hn

/-- Settles O26: the chunk loop over a span that reaches MEM_BYTES gets stuck, as does the chunk step at such a byte. -/
theorem engineIsStuckBeyondMemory : Obligations.EngineIsStuckBeyondMemory := by
  unfold Obligations.EngineIsStuckBeyondMemory
  refine ⟨fun s o n l hp hw hs => ?_, fun s o n v l hp hw hs => ?_, fun s ev rest hin hev hp hrem hidx => ?_⟩
  · have hc := (extract_wellFormed_iff o n l).mp hw
    obtain ⟨hpos, hrem, hend⟩ := startRun_field .extract 0 hc s
    rw [exec_extract_of_ok hp hc, startExtract,
      extractLoop_stuck n.toNat _ le_rfl (by rw [hpos]; exact hend) hrem (by rw [hpos]; exact hs)]
    rfl
  · have hc := (inject_wellFormed_iff o n v l).mp hw
    obtain ⟨hpos, hrem, hend⟩ := startRun_field .inject (maskedValue v n) hc s
    rw [exec_inject_of_ok hp hc, startInject,
      injectLoop_stuck n.toNat _ le_rfl (by rw [hpos]; exact hend) hrem (by rw [hpos]; exact hs)]
    rfl
  · have hmove : moveEngine { s with inputs := rest } = .fault .beyondMemory :=
      (moveEngine_of_run (s := { s with inputs := rest }) hp hrem).trans (chunkMove_of_ge hidx)
    rcases hev with rfl | rfl
    · rw [step_move_self hin, hmove]
    · rw [step_command_self hin, runCommand_of_run (s := { s with inputs := rest }) hp, hmove]

end Sys2Proof.Machine
end

section
/-! PROOFS. What another agent's write between the READ and the WRITE of an INJECT chunk comes to (O49, O50; rule R47),
and the step that runs a whole command (O27). -/

namespace Sys2Proof.Machine

variable {s : State}

/-! ## The steps of the lost update -/

theorem moveEngine_injectRead (hp : s.eng.phase = .run) (hrem : s.eng.work.rem ≠ 0) (hop : s.eng.work.op = .inject)
    (hst : s.eng.work.step = .read) : moveEngine s = orStuck (injectRead s) := by
  rw [moveEngine_of_run hp hrem]
  simp only [chunkMove, hop, hst]

theorem moveEngine_injectWrite (hp : s.eng.phase = .run) (hrem : s.eng.work.rem ≠ 0) (hop : s.eng.work.op = .inject)
    (hst : s.eng.work.step = .write) : moveEngine s = orStuck (injectWrite s) := by
  rw [moveEngine_of_run hp hrem]
  simp only [chunkMove, hop, hst]

/-- The READ step of an INJECT chunk in memory keeps the byte and goes on to WRITE (rule R89). -/
theorem step_injectRead {rest : List Event} (hin : s.inputs = .move s.self :: rest) (hp : s.eng.phase = .run)
    (hrem : s.eng.work.rem ≠ 0) (hop : s.eng.work.op = .inject) (hst : s.eng.work.step = .read)
    (hidx : s.eng.work.idx < s.mem.size) :
    ∃ t, step s = .next t ∧ t.self = s.self ∧ t.inputs = rest ∧ t.mem = s.mem ∧
      t.eng = { s.eng with work := { s.eng.work with byte := s.mem.read s.eng.work.idx, step := .write } } := by
  rw [step_move_self hin, moveEngine_injectRead (s := { s with inputs := rest }) hp hrem hop hst,
    injectRead_of_lt (s := { s with inputs := rest }) hidx]
  exact ⟨_, rfl, rfl, rfl, rfl, rfl⟩

/-- The WRITE step of an INJECT chunk in memory writes the byte kept, merged with VALUE (rules R82 and R89). -/
theorem step_injectWrite {rest : List Event} (hin : s.inputs = .move s.self :: rest) (hp : s.eng.phase = .run)
    (hrem : s.eng.work.rem ≠ 0) (hop : s.eng.work.op = .inject) (hst : s.eng.work.step = .write)
    (hidx : s.eng.work.idx < s.mem.size) :
    ∃ t, step s = .next t ∧ t.mem = s.mem.write s.eng.work.idx
      (mergedByte s.eng.work.pos.toNat s.eng.work.rem.toNat s.eng.work.val s.eng.work.byte) := by
  rw [step_move_self hin, moveEngine_injectWrite (s := { s with inputs := rest }) hp hrem hop hst,
    injectWrite_of_lt (s := { s with inputs := rest }) hidx]
  exact ⟨_, rfl, rfl⟩

/-- Another agent's write in memory (rules R37 and R46). -/
theorem step_store {rest : List Event} {i : Nat} {x : Byte} (hin : s.inputs = .store i x :: rest)
    (hi : i < s.mem.size) :
    ∃ t, step s = .next t ∧ t.self = s.self ∧ t.inputs = rest ∧ t.mem = s.mem.write i x ∧ t.eng = s.eng := by
  rw [step_cons hin, perform, memWrite_of_lt (s := { s with inputs := rest }) hi]
  exact ⟨_, rfl, rfl, rfl, rfl, rfl⟩

theorem steps_three {a b c : State} (ha : step s = .next a) (hb : step a = .next b) (hc : step b = .next c) :
    steps 3 s = .next c := by
  simp only [steps, ha, hb, hc]

/-- Settles O49: the WRITE step merges the byte that the READ step kept, whatever is in memory by then. -/
theorem updateBetweenReadAndWriteIsLost : Obligations.UpdateBetweenReadAndWriteIsLost := by
  unfold Obligations.UpdateBetweenReadAndWriteIsLost
  intro s x rest hwf hp hop hrem hst hidx hin
  obtain ⟨a, ha, haself, hain, hamem, haeng⟩ := step_injectRead hin hp hrem hop hst hidx
  obtain ⟨b, hb, hbself, hbin, hbmem, hbeng⟩ := step_store hain (hamem ▸ hidx)
  rw [← haself, ← hbself] at hbin
  rw [haeng] at hbeng
  rw [hamem] at hbmem
  obtain ⟨c, hc, hcmem⟩ := step_injectWrite hbin (by rw [hbeng]; exact hp) (by rw [hbeng]; exact hrem)
    (by rw [hbeng]; exact hop) (by rw [hbeng]) (by rw [hbeng, hbmem]; exact hidx)
  refine ⟨c, steps_three ha hb hc, ?_⟩
  rw [hcmem, hbeng, hbmem]
  exact Memory.read_write_self (Memory.wf_write hwf hidx x) _ _

/-- Settles O50: the six orders are six runs of one state of two engines on one byte. -/
theorem twoInjectsOfOneByteRace : Obligations.TwoInjectsOfOneByteRace := by
  unfold Obligations.TwoInjectsOfOneByteRace
  decide

/-! ## A whole command as one step (rules R50, R67 and R76) -/

/-- The word on the port of an IDLE engine, where it is a row of the opcode table, is taken and run. -/
theorem runCommand_of_decodeWord {cmd : CmdWord} {ws : List CmdWord} {i : Instr} (hp : s.eng.phase = .idle)
    (hport : s.eng.port = cmd :: ws) (hd : decodeWord cmd = .ok i) :
    runCommand s = exec i (takeWord cmd ws s) := by
  simp only [runCommand, hp, hport, hd]

/-- Settles O27: bringing the engine to the front, and the host's offer, leave only the word to be taken. -/
theorem stepRunsTheDecodedInstruction : Obligations.StepRunsTheDecodedInstruction := by
  unfold Obligations.StepRunsTheDecodedInstruction
  refine ⟨fun s n rest u cmd ws i hin hf hp hport hd => ?_, fun s w i hd => ?_⟩
  · obtain ⟨-, rfl, -⟩ := focus_eq_some hf
    rw [step_cons hin, perform, atEngine, hf]
    exact runCommand_of_decodeWord hp hport hd
  · have hw : s.withFetchWord 128 w.toNat = offerNext w s := by
      rw [State.withFetchWord, Nat.mod_eq_of_lt w.isLt, BitVec.ofNat_toNat, BitVec.setWidth_eq]
    rw [hw, step_command_self (s := offerNext w s) rfl]
    exact runCommand_of_decodeWord rfl rfl hd

end Sys2Proof.Machine
end

section
/-! PROOFS. The decoder, the encoder and the assembler (O1, O2, O3, O5, O6) and the response word (O12): what each field
of a word put together from its parts is, that a word is put together from its fields, and the fields as numbers. -/

namespace Sys2Proof

/-! ## The fields of a word put together from its parts (rules R52 and R53) -/

section
variable (op : BitVec 2) (n : Count) (w0 v o l : Word)

/-- A field of a command word below bit 32 is that field of CTRL. -/
theorem extractLsb'_cmdOfWords {i k : Nat} (h : i + k ≤ 32) :
    (cmdOfWords w0 v o l).extractLsb' i k = w0.extractLsb' i k :=
  BitVec.extractLsb'_append_eq_of_add_le h

@[simp] theorem cmdOp_cmdOfWords : cmdOp (cmdOfWords w0 v o l) = w0.extractLsb' 0 2 :=
  extractLsb'_cmdOfWords w0 v o l (by decide)

@[simp] theorem cmdRsvdA_cmdOfWords : cmdRsvdA (cmdOfWords w0 v o l) = w0.extractLsb' 2 6 :=
  extractLsb'_cmdOfWords w0 v o l (by decide)

@[simp] theorem cmdCount_cmdOfWords : cmdCount (cmdOfWords w0 v o l) = w0.extractLsb' 8 6 :=
  extractLsb'_cmdOfWords w0 v o l (by decide)

@[simp] theorem cmdRsvdB_cmdOfWords : cmdRsvdB (cmdOfWords w0 v o l) = w0.extractLsb' 14 18 :=
  extractLsb'_cmdOfWords w0 v o l (by decide)

@[simp] theorem cmdValue_cmdOfWords : cmdValue (cmdOfWords w0 v o l) = v := by
  rw [cmdValue, cmdOfWords, BitVec.extractLsb'_append_eq_of_le le_rfl,
    BitVec.extractLsb'_append_eq_of_add_le (by decide), BitVec.extractLsb'_eq_self]

@[simp] theorem cmdOffset_cmdOfWords : cmdOffset (cmdOfWords w0 v o l) = o := by
  rw [cmdOffset, cmdOfWords, BitVec.extractLsb'_append_eq_of_le (by decide),
    BitVec.extractLsb'_append_eq_of_le (by decide), BitVec.extractLsb'_append_eq_of_add_le (by decide),
    BitVec.extractLsb'_eq_self]

@[simp] theorem cmdLen_cmdOfWords : cmdLen (cmdOfWords w0 v o l) = l := by
  rw [cmdLen, cmdOfWords, BitVec.extractLsb'_append_eq_of_le (by decide),
    BitVec.extractLsb'_append_eq_of_le (by decide), BitVec.extractLsb'_append_eq_of_le (by decide),
    BitVec.extractLsb'_eq_self]

@[simp] theorem ctrlWord_op : (ctrlWord op n).extractLsb' 0 2 = op := by
  rw [ctrlWord, BitVec.extractLsb'_append_eq_of_add_le (by decide), BitVec.extractLsb'_eq_self]

@[simp] theorem ctrlWord_rsvdA : (ctrlWord op n).extractLsb' 2 6 = 0 := by
  rw [ctrlWord, BitVec.extractLsb'_append_eq_of_le le_rfl, BitVec.extractLsb'_append_eq_of_add_le (by decide),
    BitVec.extractLsb'_eq_self]

@[simp] theorem ctrlWord_count : (ctrlWord op n).extractLsb' 8 6 = n := by
  rw [ctrlWord, BitVec.extractLsb'_append_eq_of_le (by decide), BitVec.extractLsb'_append_eq_of_le (by decide),
    BitVec.extractLsb'_append_eq_of_add_le (by decide), BitVec.extractLsb'_eq_self]

@[simp] theorem ctrlWord_rsvdB : (ctrlWord op n).extractLsb' 14 18 = 0 := by
  rw [ctrlWord, BitVec.extractLsb'_append_eq_of_le (by decide), BitVec.extractLsb'_append_eq_of_le (by decide),
    BitVec.extractLsb'_append_eq_of_le (by decide), BitVec.extractLsb'_eq_self]

/-! ## Decoding such a word -/

/-- A word with OP 0 and the reserved bits clear matches EXTRACT, whatever its VALUE (rules R55 and R60). -/
theorem decodeWord_extract : decodeWord (cmdOfWords (ctrlWord 0 n) v o l) = .ok (.extract o n l) := by
  simp [decodeWord]

/-- A word with OP 1 and the reserved bits clear matches INJECT (rule R55). -/
theorem decodeWord_inject : decodeWord (cmdOfWords (ctrlWord 1 n) v o l) = .ok (.inject o n v l) := by
  simp [decodeWord]

end

/-- The row that the word of a command matches is that command's (rule R63). -/
theorem decodeWord_encode (i : Instr) : decodeWord (encode i) = .ok i := by
  cases i with
  | extract o n l => exact decodeWord_extract n 0 o l
  | inject o n v l => exact decodeWord_inject n v o l

/-! ## A word is put together from its fields -/

theorem cmdOfWords_fields (cmd : CmdWord) :
    cmdOfWords (cmd.extractLsb' 0 32) (cmdValue cmd) (cmdOffset cmd) (cmdLen cmd) = cmd := by
  rw [cmdOfWords, cmdValue, cmdOffset, cmdLen,
    BitVec.extractLsb'_append_extractLsb'_eq_extractLsb' (show 96 = 64 + 32 from rfl),
    BitVec.extractLsb'_append_extractLsb'_eq_extractLsb' (show 64 = 32 + 32 from rfl),
    BitVec.extractLsb'_append_extractLsb'_eq_extractLsb' (show 32 = 0 + 32 from rfl), BitVec.extractLsb'_eq_self]

/-- CTRL with its reserved bits clear is OP and COUNT (rule R53). -/
theorem ctrlWord_fields {cmd : CmdWord} (ha : cmdRsvdA cmd = 0) (hb : cmdRsvdB cmd = 0) :
    ctrlWord (cmdOp cmd) (cmdCount cmd) = cmd.extractLsb' 0 32 := by
  rw [ctrlWord, ← ha, ← hb, cmdRsvdA, cmdRsvdB, cmdOp, cmdCount,
    BitVec.extractLsb'_append_extractLsb'_eq_extractLsb' (show 14 = 8 + 6 from rfl),
    BitVec.extractLsb'_append_extractLsb'_eq_extractLsb' (show 8 = 2 + 6 from rfl),
    BitVec.extractLsb'_append_extractLsb'_eq_extractLsb' (show 2 = 0 + 2 from rfl)]

/-- What a word that matches a row is made of: OP and COUNT with the reserved bits clear, and the operands. -/
theorem decodeWord_ok {cmd : CmdWord} {i : Instr} (h : decodeWord cmd = .ok i) :
    (∃ o n l, i = .extract o n l ∧ cmd = cmdOfWords (ctrlWord 0 n) (cmdValue cmd) o l) ∨
    (∃ o n v l, i = .inject o n v l ∧ cmd = cmdOfWords (ctrlWord 1 n) v o l) := by
  unfold decodeWord at h
  split at h
  · cases h
  next hop =>
  split at h
  · cases h
  next hrsvd =>
  obtain ⟨ha, hb⟩ : cmdRsvdA cmd = 0 ∧ cmdRsvdB cmd = 0 := by simpa using hrsvd
  have hctrl := ctrlWord_fields ha hb
  have hcmd := cmdOfWords_fields cmd
  split at h
  · next h0 =>
    injection h with h
    exact .inl ⟨_, _, _, h.symm, by rw [← h0, hctrl, hcmd]⟩
  · next h0 =>
    have h1 : cmdOp cmd = 1 := by
      have hne : (cmdOp cmd).toNat ≠ 0 := fun hz => h0 (BitVec.eq_of_toNat_eq hz)
      exact BitVec.eq_of_toNat_eq (show (cmdOp cmd).toNat = 1 by omega)
    injection h with h
    exact .inr ⟨_, _, _, _, h.symm, by rw [← h1, hctrl, hcmd]⟩

/-- Masking bits 63:32 out of a word clears its VALUE field and nothing else (rule R52). -/
theorem cmdOfWords_clear_value (w0 v o l : Word) :
    cmdOfWords w0 v o l &&& ~~~ (0xFFFFFFFF#128 <<< 32) = cmdOfWords w0 0 o l := by
  have hmask : ∀ p < 128, (~~~ (0xFFFFFFFF#128 <<< 32)).getLsbD p = decide (p < 32 ∨ 64 ≤ p) := by decide
  refine BitVec.eq_of_getLsbD_eq fun p hp => ?_
  rw [BitVec.getLsbD_and, hmask p hp, cmdOfWords_getLsbD, cmdOfWords_getLsbD]
  by_cases h0 : p < 32
  · simp [h0]
  · by_cases h1 : p < 64
    · simp [h0, h1]
    · simp [h0, h1, show 64 ≤ p by omega]

/-! ## The fields as numbers -/

section
variable (cmd : CmdWord)

@[simp] theorem cmdOp_toNat : (cmdOp cmd).toNat = cmd.toNat % 4 := by
  rw [cmdOp, BitVec.extractLsb'_toNat, Nat.shiftRight_zero]

@[simp] theorem cmdRsvdA_toNat : (cmdRsvdA cmd).toNat = cmd.toNat / 4 % 64 := by
  rw [cmdRsvdA, BitVec.extractLsb'_toNat, Nat.shiftRight_eq_div_pow]

@[simp] theorem cmdCount_toNat : (cmdCount cmd).toNat = cmd.toNat / 2 ^ 8 % 64 := by
  rw [cmdCount, BitVec.extractLsb'_toNat, Nat.shiftRight_eq_div_pow]

@[simp] theorem cmdRsvdB_toNat : (cmdRsvdB cmd).toNat = cmd.toNat / 2 ^ 14 % 2 ^ 18 := by
  rw [cmdRsvdB, BitVec.extractLsb'_toNat, Nat.shiftRight_eq_div_pow]

@[simp] theorem cmdValue_toNat : (cmdValue cmd).toNat = cmd.toNat / 2 ^ 32 % 2 ^ 32 := by
  rw [cmdValue, BitVec.extractLsb'_toNat, Nat.shiftRight_eq_div_pow]

@[simp] theorem cmdOffset_toNat : (cmdOffset cmd).toNat = cmd.toNat / 2 ^ 64 % 2 ^ 32 := by
  rw [cmdOffset, BitVec.extractLsb'_toNat, Nat.shiftRight_eq_div_pow]

@[simp] theorem cmdLen_toNat : (cmdLen cmd).toNat = cmd.toNat / 2 ^ 96 % 2 ^ 32 := by
  rw [cmdLen, BitVec.extractLsb'_toNat, Nat.shiftRight_eq_div_pow]

end

/-- The operand checks of rule R58 as numbers. -/
theorem operandCode_eq_toNat (o : Word) (n : Count) (l : Word) :
    operandCode o n l =
      if n.toNat = 0 ∨ 32 < n.toNat then .badCount
      else if l.toNat * 8 < o.toNat + n.toNat then .range else .ok := by
  have hcount : countLegal n = decide (¬ (n.toNat = 0 ∨ 32 < n.toNat)) := by
    rw [countLegal, Config.countMin, Config.countMax, ← Bool.decide_and]
    exact decide_eq_decide.mpr (by omega)
  have hrange : rangeLegal o n l = decide (¬ l.toNat * 8 < o.toNat + n.toNat) :=
    decide_eq_decide.mpr Nat.not_lt.symm
  simp only [operandCode, hcount, hrange, decide_eq_true_eq, ite_not]

/-- The row a word matches, by its fields as numbers (rules R55 and R56). -/
theorem decodeWord_eq_toNat (cmd : CmdWord) : decodeWord cmd =
    if 2 ≤ cmd.toNat % 4 then .error .illegalOp
    else if cmd.toNat / 4 % 64 ≠ 0 ∨ cmd.toNat / 2 ^ 14 % 2 ^ 18 ≠ 0 then .error .rsvd
    else if cmd.toNat % 4 = 0 then .ok (.extract (cmdOffset cmd) (cmdCount cmd) (cmdLen cmd))
    else .ok (.inject (cmdOffset cmd) (cmdCount cmd) (cmdValue cmd) (cmdLen cmd)) := by
  simp only [decodeWord, ne_eq, BitVec.toNat_eq, BitVec.ofNat_eq_ofNat, BitVec.toNat_ofNat, Nat.zero_mod,
    cmdOp_toNat, cmdRsvdA_toNat, cmdRsvdB_toNat]

/-! ## The whole decode, from the row (rule R58) -/

theorem decode_of_error {cmd : CmdWord} {c : Code} (h : decodeWord cmd = .error c) : decode cmd = .error c := by
  simp only [decode, h]

/-- Words that match the same row with the same operands decode to the same. -/
theorem decode_congr {cmd cmd' : CmdWord} (h : decodeWord cmd = decodeWord cmd') : decode cmd = decode cmd' := by
  simp only [decode, h]

/-- What a word that matches a row decodes to, by the two operand checks in their order. -/
theorem decode_of_checks {cmd : CmdWord} {i : Instr} {count range : Prop} [Decidable count] [Decidable range]
    (h : decodeWord cmd = .ok i)
    (hc : i.operandCode = if count then .badCount else if range then .range else .ok) :
    decode cmd = if count then .error .badCount else if range then .error .range else .ok i := by
  rw [Machine.decode_of_decodeWord h, hc]
  by_cases hcount : count
  · simp [hcount]
  · by_cases hrange : range <;> simp [hcount, hrange]

/-! ## The word as one number (rules R52 and R53) -/

theorem ctrlWord_toNat (op : BitVec 2) (n : Count) : (ctrlWord op n).toNat = n.toNat * 2 ^ 8 + op.toNat := by
  simp only [ctrlWord, Machine.toNat_append_eq, BitVec.ofNat_eq_ofNat, BitVec.toNat_ofNat]
  omega

theorem cmdOfWords_toNat (w0 v o l : Word) :
    (cmdOfWords w0 v o l).toNat = w0.toNat + v.toNat * 2 ^ 32 + o.toNat * 2 ^ 64 + l.toNat * 2 ^ 96 := by
  simp only [cmdOfWords, Machine.toNat_append_eq]
  omega

end Sys2Proof

namespace Sys2Proof.Machine

/-! ## The assembler (rules R62 and R63) -/

theorem shiftLeft_or_one (c : Nat) : c <<< 8 ||| 1 = c * 2 ^ 8 + 1 := by
  rw [← Nat.shiftLeft_add_eq_or_of_lt (by decide), Nat.shiftLeft_eq]

/-- CTRL of an EXTRACT line is OP 0 below COUNT. -/
theorem ofNat_shiftLeft {c : Nat} (hc : c < 64) : BitVec.ofNat 32 (c <<< 8) = ctrlWord 0 (BitVec.ofNat 6 c) := by
  refine BitVec.eq_of_toNat_eq ?_
  simp only [ctrlWord_toNat, Nat.shiftLeft_eq, BitVec.ofNat_eq_ofNat, BitVec.toNat_ofNat]
  omega

/-- CTRL of an INJECT line is OP 1 below COUNT. -/
theorem ofNat_shiftLeft_or_one {c : Nat} (hc : c < 64) :
    BitVec.ofNat 32 (c <<< 8 ||| 1) = ctrlWord 1 (BitVec.ofNat 6 c) := by
  refine BitVec.eq_of_toNat_eq ?_
  simp only [ctrlWord_toNat, shiftLeft_or_one, BitVec.ofNat_eq_ofNat, BitVec.toNat_ofNat]
  omega

/-- A line whose operands fit their fields is assembled to the word of its command. -/
theorem encodeLine_extract {o c l : Nat} (ho : o < 2 ^ 32) (hc : c < 64) (hl : l < 2 ^ 32) :
    encodeLine (.extract o c l) =
      some (encode (.extract (BitVec.ofNat 32 o) (BitVec.ofNat 6 c) (BitVec.ofNat 32 l))) := by
  rw [encodeLine, if_pos ⟨ho, hc, hl⟩, ofNat_shiftLeft hc, encode]

theorem encodeLine_inject {o c v l : Nat} (ho : o < 2 ^ 32) (hc : c < 64) (hv : v < 2 ^ 32) (hl : l < 2 ^ 32) :
    encodeLine (.inject o c v l) =
      some (encode (.inject (BitVec.ofNat 32 o) (BitVec.ofNat 6 c) (BitVec.ofNat 32 v) (BitVec.ofNat 32 l))) := by
  rw [encodeLine, if_pos ⟨ho, hc, hv, hl⟩, ofNat_shiftLeft_or_one hc, encode]

/-! ## The two directions (rules R58, R59, R60 and R63) -/

/-- Settles O1: each field of the word of a command is that command's, so the row comes back and with it its checks. -/
theorem decodeOfEncodeIsTheCommand : Obligations.DecodeOfEncodeIsTheCommand := by
  unfold Obligations.DecodeOfEncodeIsTheCommand
  intro i
  have hrow := decodeWord_encode i
  refine ⟨hrow, fun hw => ?_, fun hw => ?_⟩
  · rw [decode_of_decodeWord hrow, if_pos ((wellFormed_iff i).mp hw)]
  · have hc : i.operandCode ≠ .ok := fun hok => by simp [(wellFormed_iff i).mpr hok] at hw
    refine ⟨by rw [decode_of_decodeWord hrow, if_neg hc], ?_⟩
    cases i with
    | extract o n l => exact operandCode_ne_ok hc
    | inject o n v l => exact operandCode_ne_ok hc

/-- Settles O2: a word is put together from its fields, and EXTRACT has no operand in VALUE. -/
theorem encodeOfDecodeIsTheWord : Obligations.EncodeOfDecodeIsTheWord := by
  unfold Obligations.EncodeOfDecodeIsTheWord
  refine fun cmd o n v l => ⟨fun h => ?_, fun h => ?_⟩
  · rcases decodeWord_ok h with ⟨_, _, _, hi, -⟩ | ⟨_, _, _, _, hi, hcmd⟩
    · cases hi
    · cases hi; exact hcmd.symm
  · rcases decodeWord_ok h with ⟨_, _, _, hi, hcmd⟩ | ⟨_, _, _, _, hi, -⟩
    · cases hi; rw [hcmd, cmdOfWords_clear_value]; rfl
    · cases hi

/-- Settles O3: the checks of the row and of the operands, on the fields as numbers. -/
theorem decodeFollowsTheCheckOrder : Obligations.DecodeFollowsTheCheckOrder := by
  unfold Obligations.DecodeFollowsTheCheckOrder
  intro cmd x count value offset len
  have hrow := decodeWord_eq_toNat cmd
  have hcode : operandCode (cmdOffset cmd) (cmdCount cmd) (cmdLen cmd) =
      if count = 0 ∨ 32 < count then .badCount else if len * 8 < offset + count then .range else .ok := by
    rw [operandCode_eq_toNat, cmdOffset_toNat, cmdCount_toNat, cmdLen_toNat]
  have hfields : BitVec.ofNat 32 offset = cmdOffset cmd ∧ BitVec.ofNat 6 count = cmdCount cmd ∧
      BitVec.ofNat 32 value = cmdValue cmd ∧ BitVec.ofNat 32 len = cmdLen cmd := by
    simp only [← cmdOffset_toNat, ← cmdCount_toNat, ← cmdValue_toNat, ← cmdLen_toNat, BitVec.ofNat_toNat,
      BitVec.setWidth_eq, and_self, offset, count, value, len, x]
  obtain ⟨ho, hn, hv, hl⟩ := hfields
  rw [ho, hn, hv, hl]
  by_cases hop : 2 ≤ x % 4
  · rw [if_pos hop] at hrow ⊢
    exact decode_of_error hrow
  rw [if_neg hop] at hrow ⊢
  by_cases hrsvd : x / 4 % 64 ≠ 0 ∨ x / 2 ^ 14 % 2 ^ 18 ≠ 0
  · rw [if_pos hrsvd] at hrow ⊢
    exact decode_of_error hrow
  rw [if_neg hrsvd] at hrow ⊢
  by_cases h0 : x % 4 = 0
  · rw [if_pos h0] at hrow ⊢
    exact decode_of_checks hrow hcode
  · rw [if_neg h0] at hrow ⊢
    exact decode_of_checks hrow hcode

/-- Settles O5: the row of a word with OP 0 has no operand from VALUE, and the assembler puts 0 there. -/
theorem extractIgnoresTheValueField : Obligations.ExtractIgnoresTheValueField := by
  unfold Obligations.ExtractIgnoresTheValueField
  refine ⟨fun w0 v v' o l hop => ?_, fun o c l cmd hcmd => ?_⟩
  · have hrow : decodeWord (cmdOfWords w0 v o l) = decodeWord (cmdOfWords w0 v' o l) := by
      simp [decodeWord, hop]
    exact ⟨hrow, decode_congr hrow⟩
  · rw [encodeLine] at hcmd
    split at hcmd
    · injection hcmd with hcmd
      rw [← hcmd, cmdValue_cmdOfWords]
    · cases hcmd

/-- Settles O6: the assembled word is that of the line's command, which decodes to it. -/
theorem assemblerEncodesEachLine : Obligations.AssemblerEncodesEachLine := by
  unfold Obligations.AssemblerEncodesEachLine
  refine ⟨fun o c l ho hc hl => ⟨_, encodeLine_extract ho hc hl, ?_, decodeWord_encode _⟩,
    fun o c v l ho hc hv hl => ⟨_, encodeLine_inject ho hc hv hl, ?_, decodeWord_encode _⟩,
    fun o c l h => if_neg (by omega), fun o c v l h => if_neg (by omega)⟩
  · simp only [encode, cmdOfWords_toNat, ctrlWord_toNat, Nat.shiftLeft_eq, BitVec.ofNat_eq_ofNat, BitVec.toNat_ofNat]
    omega
  · simp only [encode, cmdOfWords_toNat, ctrlWord_toNat, shiftLeft_or_one, BitVec.ofNat_eq_ofNat, BitVec.toNat_ofNat]
    omega

/-- Settles O12: the response word is its parts side by side, RESULT the last. -/
theorem responseWordHoldsResultAndCode : Obligations.ResponseWordHoldsResultAndCode := by
  unfold Obligations.ResponseWordHoldsResultAndCode
  intro r
  simp only [Rsp.word, toNat_append_eq, BitVec.ofNat_eq_ofNat, BitVec.toNat_ofNat]
  omega

end Sys2Proof.Machine
end

section
/-! PROOFS. The words a host has offered, run one after another (O39): one whole command and the taking of its response,
then the list of words. -/

namespace Sys2Proof.Machine

variable {s t : State}

/-! ## Responses in a record -/

theorem responses_append (n : Nat) (acts acts' : List Act) :
    responses n (acts ++ acts') = responses n acts ++ responses n acts' :=
  List.filter_append ..

@[simp] theorem responses_response_self (n : Nat) (w : RspWord) (acts : List Act) :
    responses n (.response n w :: acts) = .response n w :: responses n acts := by simp [responses]

@[simp] theorem responses_loadsFrom (n : Nat) (who : Agent) (m : Memory) (b k : Nat) :
    responses n (loadsFrom who m b k) = [] := by
  induction k with
  | zero => rfl
  | succ k ih => exact ih

@[simp] theorem responses_loadsAndStoresFrom (n : Nat) (who : Agent) (m m' : Memory) (b k : Nat) :
    responses n (loadsAndStoresFrom who m m' b k) = [] := by
  induction k with
  | zero => rfl
  | succ k ih => exact ih

/-! ## A whole command completes -/

/-- A command that faults, or whose span is in memory, completes and delivers no response on the way (rules R43, R76
and R95). -/
theorem exec_completes {i : Instr} (hwf : s.mem.wf = true) (hp : s.eng.phase = .idle)
    (hs : i.operandCode = .ok → spanInMemory s.mem i = true) (n : Nat) :
    ∃ t acts, exec i s = .next t ∧ t.trace = acts ++ s.trace ∧ responses n acts = [] := by
  by_cases hc : i.operandCode = .ok
  · cases i with
    | extract o c l =>
      obtain ⟨w, he, -⟩ := execExtract_runs hp hc (of_decide_eq_true (hs hc))
      exact ⟨_, _, he, rfl, responses_loadsFrom ..⟩
    | inject o c v l =>
      obtain ⟨w, m, he, -⟩ := execInject_runs hwf hp hc (of_decide_eq_true (hs hc))
      exact ⟨_, _, he, rfl, responses_loadsAndStoresFrom ..⟩
  · exact ⟨_, [], exec_of_fault hp hc, rfl, rfl⟩

theorem runCommand_of_error {cmd : CmdWord} {ws : List CmdWord} {c : Code} (hp : s.eng.phase = .idle)
    (hport : s.eng.port = cmd :: ws) (hd : decodeWord cmd = .error c) :
    runCommand s = .next (raiseFault c (takeWord cmd ws s)) := by
  simp only [runCommand, hp, hport, hd]

/-- The word at the head of the port, rejected, faulting or with its span in memory, is run to its response. -/
theorem runCommand_completes {cmd : CmdWord} {ws : List CmdWord} (hwf : s.mem.wf = true) (hp : s.eng.phase = .idle)
    (hport : s.eng.port = cmd :: ws) (hs : ∀ i, decode cmd = .ok i → spanInMemory s.mem i = true) (n : Nat) :
    ∃ t acts, runCommand s = .next t ∧ t.eng.phase = .resp ∧ t.eng.port = ws ∧
      t.trace = acts ++ s.trace ∧ responses n acts = [] := by
  cases hd : decodeWord cmd with
  | error c => exact ⟨_, [_], runCommand_of_error hp hport hd, rfl, rfl, rfl, rfl⟩
  | ok i =>
    obtain ⟨t, acts, he, htrace, hnone⟩ := exec_completes (s := takeWord cmd ws s) hwf hp
      (fun hc => hs i (by rw [decode_of_decodeWord hd, if_pos hc])) n
    obtain ⟨-, -, -, -, hport', hphase, -⟩ := exec_frame (s := takeWord cmd ws s) hp he
    refine ⟨t, acts ++ [.command s.self cmd], ?_, hphase, hport', ?_, ?_⟩
    · rw [runCommand_of_decodeWord hp hport hd, he]
    · rw [htrace, takeWord_trace, List.append_assoc, List.singleton_append]
    · rw [responses_append, hnone]; rfl

/-! ## A command and the taking of its response, as two steps -/

theorem step_take_self {rest : List Event} (h : s.inputs = .take s.self :: rest) :
    step s = .next (takeResponse { s with inputs := rest }) := by
  rw [step_cons h]; exact atEngine_self { s with inputs := rest } _

theorem takeResponse_of_resp (h : s.eng.phase = .resp) : takeResponse s = deliver s := by
  simp only [takeResponse, h]

/-- Between two commands: memory in canonical form, the engine in front IDLE, and every legal word on its port with its
span in memory (the host's duty of rule R119). -/
abbrev State.ReadyToRun (s : State) : Prop :=
  s.mem.wf = true ∧ s.eng.phase = .idle ∧
    ∀ cmd ∈ s.eng.port, ∀ i, decode cmd = .ok i → spanInMemory s.mem i = true

theorem spanInMemory_of_size {m m' : Memory} (h : m'.size = m.size) (i : Instr) :
    spanInMemory m' i = spanInMemory m i := by
  cases i <;> simp only [spanInMemory, h]

/-- From `s` to `t` the record shows `k` more responses of the engine in front. -/
abbrev Answers (k : Nat) (s t : State) : Prop :=
  t.self = s.self ∧ ∃ acts, t.trace = acts ++ s.trace ∧ (responses s.self acts).length = k

theorem Answers.trans {j k : Nat} {u : State} (h : Answers j s t) (h' : Answers k t u) : Answers (k + j) s u := by
  obtain ⟨hself, acts, htrace, hcount⟩ := h
  obtain ⟨hself', acts', htrace', hcount'⟩ := h'
  refine ⟨hself'.trans hself, acts' ++ acts, by rw [htrace', htrace, List.append_assoc], ?_⟩
  rw [responses_append, List.length_append, hcount, ← hself, hcount']

/-- One word, run and its response taken: the next word stands at the head of the port (rules R57 and R69). -/
theorem command_take_completes {cmd : CmdWord} {ws : List CmdWord} {rest : List Event} (h : s.ReadyToRun)
    (hport : s.eng.port = cmd :: ws) (hin : s.inputs = .command s.self :: .take s.self :: rest) :
    ∃ t u, step s = .next t ∧ step t = .next u ∧ u.ReadyToRun ∧ u.eng.port = ws ∧ u.inputs = rest ∧
      lastAnswered u.self u.trace = true ∧ Answers 1 s u := by
  obtain ⟨hwf, hp, hs⟩ := h
  rw [hport] at hs
  obtain ⟨t, acts, hrun, hphase, hport', htrace, hnone⟩ := runCommand_completes
    (s := { s with inputs := .take s.self :: rest }) hwf hp hport (hs cmd (by simp)) s.self
  obtain ⟨hb, -, hin', hsize⟩ := runCommand_frame hrun
  have hwf' : t.mem.wf = true :=
    runCommand_mem_wf (s := { s with inputs := .take s.self :: rest }) hwf hrun
  have hself : t.self = s.self := congrArg List.length hb
  rw [← hself] at hin'
  have htake : step t = .next (deliver { t with inputs := rest }) := by
    rw [step_take_self hin', takeResponse_of_resp (s := { t with inputs := rest }) hphase]
  refine ⟨t, deliver { t with inputs := rest }, (step_command_self hin).trans hrun, htake,
    ⟨hwf', rfl, fun cmd' hcmd' i hi => ?_⟩, hport', rfl, lastAnswered_response_self .., hself,
    .response t.self t.eng.rsp.word :: acts, congrArg (_ :: ·) htrace, ?_⟩
  · rw [spanInMemory_of_size (m' := (deliver { t with inputs := rest }).mem) hsize]
    exact hs cmd' (List.mem_cons_of_mem _ (hport' ▸ hcmd')) i hi
  · rw [hself, responses_response_self, hnone]; rfl

/-! ## The list of words (rules R57 and R113) -/

/-- The engine at position `n` told to run a command, and its host to take the response, once for each word. -/
def commandsAndTakes (n : Nat) (ws : List CmdWord) : List Event :=
  (ws.map fun _ => [Event.command n, .take n]).flatten

theorem commandsAndTakes_cons (n : Nat) (cmd : CmdWord) (ws : List CmdWord) :
    commandsAndTakes n (cmd :: ws) = .command n :: .take n :: commandsAndTakes n ws := rfl

theorem steps_two_add {u : State} (k : Nat) (hs : step s = .next t) (ht : step t = .next u) :
    steps (k + 2) s = steps k u := by
  simp only [steps, hs, ht]

/-- The engine in front, IDLE and answered with nothing offered or to be offered, has ended its run (log entry 20). -/
theorem ended_self (hp : s.eng.phase = .idle) (hport : s.eng.port = []) (hin : s.inputs = [])
    (hlast : lastAnswered s.self s.trace = true) : ended s.self s = true := by
  simp [ended, hp, hport, hin, hlast, noOffer]

/-- Every word on the port is run and answered, which ends the run. -/
theorem commandsAndTakes_complete (ws : List CmdWord) (s : State) (h : s.ReadyToRun) (hport : s.eng.port = ws)
    (hin : s.inputs = commandsAndTakes s.self ws) (hlast : ws = [] → lastAnswered s.self s.trace = true) :
    ∃ t, steps (2 * ws.length) s = .next t ∧ ended t.self t = true ∧ Answers ws.length s t := by
  induction ws generalizing s with
  | nil =>
    obtain ⟨-, hp, -⟩ := h
    exact ⟨s, rfl, ended_self hp hport hin (hlast rfl), rfl, [], rfl, rfl⟩
  | cons cmd ws ih =>
    obtain ⟨t, u, hst, htu, hu, hport', hin', hlast', hone⟩ :=
      command_take_completes h hport (hin.trans (commandsAndTakes_cons ..))
    obtain ⟨v, hsteps, hended, hrest⟩ := ih u hu hport' (by rw [hin', hone.1]) fun _ => hlast'
    exact ⟨v, (steps_two_add _ hst htu).trans hsteps, hended, hone.trans hrest⟩

/-- Settles O39, by induction on the words on the port: a command and the taking of its response leave the engine ready
for the next word, with one response more in the record. -/
theorem runEndsWithOneResponsePerCommand : Obligations.RunEndsWithOneResponsePerCommand := by
  unfold Obligations.RunEndsWithOneResponsePerCommand
  intro s hwf hp hs hlast
  obtain ⟨t, hsteps, hended, hself, acts, htrace, hcount⟩ := commandsAndTakes_complete s.eng.port
    { s with inputs := commandsAndTakes s.self s.eng.port } ⟨hwf, hp, hs⟩ rfl rfl hlast
  have hts : t.self = s.self := hself
  refine ⟨t, hsteps, hts ▸ hended, ?_⟩
  rw [since_append (s := s) htrace]
  exact hcount

end Sys2Proof.Machine
end

section
/-! PROOFS. The datapath (40_datapath.md): the shape of a chunk (O33), ACCEPT, FINISH and DELIVER as steps (O28, O29,
O30), and the fine-grained steps of a command against the command as one step (O37). -/

namespace Sys2Proof.Machine

variable {s t : State}

/-! ## The shape of a chunk (rules R70 and R75) -/

/-- The mask of a chunk does not overflow its byte, since the chunk lies in it. -/
theorem chunkMask_toNat (pos rem : Nat) :
    (chunkMask pos rem).toNat = (2 ^ chunkSize pos rem - 1) * 2 ^ chunkShift pos rem := by
  have hle : 2 ^ (chunkShift pos rem + chunkSize pos rem) ≤ 2 ^ 8 :=
    Nat.pow_le_pow_right (by decide) (chunkShift_add_size pos rem ▸ (chunkLeft_bounds pos).2)
  have hsh := Nat.two_pow_pos (chunkShift pos rem)
  rw [chunkMask, BitVec.toNat_ofNat, mask, Nat.shiftLeft_eq]
  refine Nat.mod_eq_of_lt ?_
  rw [Nat.pow_add, Nat.mul_comm] at hle
  rw [Nat.sub_mul]
  omega

/-- An aligned chunk with 8 or more bits left is its whole byte. -/
theorem chunk_of_aligned {pos rem : Nat} (hpos : pos % 8 = 0) (hrem : 8 ≤ rem) :
    chunkSize pos rem = 8 ∧ chunkShift pos rem = 0 := by
  unfold chunkShift chunkSize chunkLeft
  omega

/-- Settles O33: the chunk is at most what is left of its byte, so its mask fits there. -/
theorem chunkLiesInItsByte : Obligations.ChunkLiesInItsByte := by
  unfold Obligations.ChunkLiesInItsByte
  intro pos rem hrem
  refine ⟨chunkSize_pos pos hrem, chunkShift_add_size pos rem, (chunkLeft_bounds pos).2, chunkMask_toNat pos rem,
    fun hpos h8 => ?_, chunk_ends_byte⟩
  obtain ⟨hk, hsh⟩ := chunk_of_aligned hpos h8
  exact ⟨hk, hsh, BitVec.eq_of_toNat_eq (by rw [chunkMask_toNat, hk, hsh]; rfl)⟩

/-! ## ACCEPT, FINISH and DELIVER as moves (rules R67 to R69) -/

theorem moveEngine_of_idle {cmd : CmdWord} {ws : List CmdWord} (hp : s.eng.phase = .idle)
    (hport : s.eng.port = cmd :: ws) : moveEngine s = .next (accept cmd (takeWord cmd ws s)) := by
  simp only [moveEngine, hp, hport]

theorem moveEngine_of_done (hp : s.eng.phase = .run) (hrem : s.eng.work.rem = 0) :
    moveEngine s = .next (finish s) := by
  simp only [moveEngine, hp, if_pos hrem]

theorem moveEngine_of_resp (hp : s.eng.phase = .resp) : moveEngine s = .next s := by
  simp only [moveEngine, hp]

theorem runCommand_of_resp (hp : s.eng.phase = .resp) : runCommand s = .next s := by
  simp only [runCommand, hp, moveEngine_of_resp]

/-- A word that no row of the table matches has a code of its own, never that of a completed command. -/
theorem decodeWord_error_ne_ok {cmd : CmdWord} {c : Code} (h : decodeWord cmd = .error c) : c ≠ .ok := by
  unfold decodeWord at h
  split at h
  · cases h; decide
  · split at h
    · cases h; decide
    · split at h <;> cases h

theorem decode_error_ne_ok {cmd : CmdWord} {c : Code} (h : decode cmd = .error c) : c ≠ .ok := by
  cases hd : decodeWord cmd with
  | error c' =>
    rw [decode_of_error hd] at h
    injection h with h
    exact h ▸ decodeWord_error_ne_ok hd
  | ok i =>
    rw [decode_of_decodeWord hd] at h
    split at h
    · cases h
    · next hc => injection h with h; exact h ▸ hc

/-- Settles O28: the step is ACCEPT of the word taken, and a legal word has a COUNT in 1..32. -/
theorem acceptSetsTheWorkingRegisters : Obligations.AcceptSetsTheWorkingRegisters := by
  unfold Obligations.AcceptSetsTheWorkingRegisters
  intro s cmd ws rest hin hp hport
  have hstep : step s = .next (accept cmd (takeWord cmd ws { s with inputs := rest })) :=
    (step_move_self hin).trans (moveEngine_of_idle (s := { s with inputs := rest }) hp hport)
  refine ⟨_, hstep, ?_⟩
  cases hd : decode cmd with
  | error c =>
    rw [accept_error hd]
    refine ⟨rfl, rfl, rfl, rfl, rfl, rfl, ?_⟩
    rw [← errAfter_of_ne_ok s.eng.err (decode_error_ne_ok hd)]
    rfl
  | ok i =>
    have hc := (decode_ok hd).2
    cases i with
    | extract o n l =>
      obtain ⟨hn, hn32, -⟩ := (operandCode_eq_ok_iff o n l).mp hc
      rw [accept_extract hd]
      exact ⟨rfl, rfl, rfl, rfl, rfl, rfl, rfl, rfl, rfl, (startRun_field .extract 0 hc _).1, rfl, hn, hn32, rfl, rfl,
        rfl, rfl, rfl, rfl⟩
    | inject o n v l =>
      obtain ⟨hn, hn32, -⟩ := (operandCode_eq_ok_iff o n l).mp hc
      rw [accept_inject hd]
      exact ⟨rfl, rfl, rfl, rfl, rfl, rfl, rfl, rfl, maskedValue_toNat v n hn32, (startRun_field .inject _ hc _).1,
        rfl, hn, hn32, rfl, rfl, rfl, rfl, rfl, rfl⟩

theorem finish_result_eq_ite (s : State) :
    (finish s).eng.result = if s.eng.work.op = .extract then s.eng.work.acc else 0 := by
  rw [finish_result]
  cases s.eng.work.op <;> rfl

/-- Settles O29: the step is FINISH, whose result is chosen by `op`. -/
theorem finishRespondsWithTheResult : Obligations.FinishRespondsWithTheResult := by
  unfold Obligations.FinishRespondsWithTheResult
  intro s rest hin hp hrem
  have hstep : step s = .next (finish { s with inputs := rest }) :=
    (step_move_self hin).trans (moveEngine_of_done (s := { s with inputs := rest }) hp hrem)
  exact ⟨_, hstep, rfl, finish_result_eq_ite _, rfl, rfl, finish_err _, rfl, rfl, rfl, rfl, rfl, rfl⟩

/-- The response word as rule R69 writes it. -/
theorem Rsp.word_eq_or (r : Rsp) : r.word = r.result.setWidth 64 ||| (r.code.setWidth 64 <<< 32) := by
  have hcode := r.code.isLt
  have hresult : r.result.toNat < 2 ^ 32 := r.result.isLt
  refine BitVec.eq_of_toNat_eq ?_
  rw [responseWordHoldsResultAndCode r, BitVec.toNat_or, BitVec.toNat_shiftLeft,
    BitVec.toNat_setWidth_of_le (by decide), BitVec.toNat_setWidth_of_le (by decide),
    Nat.mod_eq_of_lt (by rw [Nat.shiftLeft_eq]; omega), Nat.or_comm,
    shiftLeft_or_chunk _ _ hresult, Nat.add_comm]

/-- Settles O30: taking the response is DELIVER, and neither a move nor a command does anything in RESP. -/
theorem responseIsHeldUntilTaken : Obligations.ResponseIsHeldUntilTaken := by
  unfold Obligations.ResponseIsHeldUntilTaken
  refine fun s rest hp => ⟨fun hin => ?_, fun ev hin hev => ?_⟩
  · have hstep : step s = .next (deliver { s with inputs := rest }) := by
      rw [step_take_self hin, takeResponse_of_resp (s := { s with inputs := rest }) hp]
    exact ⟨_, _, hstep, rfl, Rsp.word_eq_or s.eng.rsp, rfl, rfl, rfl, rfl, rfl, rfl, rfl, rfl, rfl⟩
  · rcases hev with rfl | rfl
    · exact (step_move_self hin).trans (moveEngine_of_resp (s := { s with inputs := rest }) hp)
    · exact (step_command_self hin).trans (runCommand_of_resp (s := { s with inputs := rest }) hp)

/-! ## A run of moves of the engine in front -/

/-- `s` with `k` moves of its engine in front to come before its other events. -/
def State.withMoves (k : Nat) (s : State) : State :=
  { s with inputs := List.replicate k (.move s.self) ++ s.inputs }

/-- A run of moves is its first move, then the others from where that leads. -/
theorem steps_withMoves_of_next {k : Nat} (h : moveEngine (s.withMoves k) = .next (t.withMoves k)) :
    steps (k + 1) (s.withMoves (k + 1)) = steps k (t.withMoves k) := by
  have hstep : step (s.withMoves (k + 1)) = .next (t.withMoves k) :=
    (step_move_self (s := s.withMoves (k + 1)) rfl).trans h
  simp only [steps, hstep]

theorem steps_withMoves_of_fault {k : Nat} {r : Fault} (h : moveEngine (s.withMoves k) = .fault r) :
    steps (k + 1) (s.withMoves (k + 1)) = .fault r := by
  have hstep : step (s.withMoves (k + 1)) = .fault r := (step_move_self (s := s.withMoves (k + 1)) rfl).trans h
  simp only [steps, hstep]

/-- A run of one move or more stops where the engine is stuck (rule R43). -/
theorem steps_withMoves_of_stuck (k : Nat) (hp : s.eng.phase = .run) (hrem : s.eng.work.rem ≠ 0)
    (h : s.mem.size ≤ s.eng.work.idx) : steps (k + 1) (s.withMoves (k + 1)) = .fault .beyondMemory :=
  steps_withMoves_of_fault ((moveEngine_of_run (s := s.withMoves k) hp hrem).trans (chunkMove_of_ge h))

/-- The move of an engine with no bits left is FINISH (rule R68). -/
theorem steps_withMoves_of_done (hp : s.eng.phase = .run) (hrem : s.eng.work.rem = 0) :
    steps 1 (s.withMoves 1) = .next (finish s) :=
  steps_withMoves_of_next (k := 0) (t := finish s) (moveEngine_of_done (s := s.withMoves 0) hp hrem)

/-- The move of an EXTRACT whose next byte is in memory is one chunk (rule R81). -/
theorem steps_withMoves_extractChunk (k : Nat) (hp : s.eng.phase = .run) (hop : s.eng.work.op = .extract)
    (hrem : s.eng.work.rem ≠ 0) (hidx : s.eng.work.idx < s.mem.size) :
    steps (k + 1) (s.withMoves (k + 1)) = steps k ((afterExtractChunk s).withMoves k) := by
  have hchunk : extractChunk (s.withMoves k) = some ((afterExtractChunk s).withMoves k) := extractChunk_of_lt hidx
  refine steps_withMoves_of_next ?_
  rw [moveEngine_of_run (s := s.withMoves k) hp hrem, chunkMove, show (s.withMoves k).eng.work.op = .extract from hop,
    hchunk]
  rfl

/-- The state after the READ step of an INJECT chunk that is in memory. -/
def afterInjectRead (s : State) : State :=
  { s with
    trace := .load (.engine s.self) s.eng.work.idx (s.mem.read s.eng.work.idx) :: s.trace
    eng := { s.eng with work := { s.eng.work with byte := s.mem.read s.eng.work.idx, step := .write } } }

/-- The two moves of a whole INJECT chunk whose byte is in memory: READ, then WRITE (rule R89). -/
theorem steps_withMoves_injectChunk (k : Nat) (hp : s.eng.phase = .run) (hop : s.eng.work.op = .inject)
    (hst : s.eng.work.step = .read) (hrem : s.eng.work.rem ≠ 0) (hidx : s.eng.work.idx < s.mem.size) :
    steps (k + 2) (s.withMoves (k + 2)) = steps k ((afterInjectChunk s).withMoves k) := by
  have hread : injectRead (s.withMoves (k + 1)) = some ((afterInjectRead s).withMoves (k + 1)) :=
    injectRead_of_lt hidx
  have hwrite : injectWrite ((afterInjectRead s).withMoves k) = some ((afterInjectChunk s).withMoves k) :=
    injectWrite_of_lt hidx
  calc steps (k + 2) (s.withMoves (k + 2))
    _ = steps (k + 1) ((afterInjectRead s).withMoves (k + 1)) := by
      refine steps_withMoves_of_next ?_
      rw [moveEngine_injectRead (s := s.withMoves (k + 1)) hp hrem hop hst, hread]
      rfl
    _ = steps k ((afterInjectChunk s).withMoves k) := by
      refine steps_withMoves_of_next ?_
      rw [moveEngine_injectWrite (s := (afterInjectRead s).withMoves k) hp hrem hop rfl, hwrite]
      rfl

/-! ## The chunk loop as moves (rules R72, R81 and R89) -/

/-- The engine in front runs a command with this `op` and is about to begin a chunk, or to FINISH; `pos` does not wrap
before its field ends (rule R17). -/
abbrev State.BetweenChunks (s : State) (op : Op) : Prop :=
  s.eng.phase = .run ∧ s.eng.work.op = op ∧ s.eng.work.step = .read ∧
    s.eng.work.pos.toNat + s.eng.work.rem.toNat ≤ 2 ^ 32 - 1 + 32

/-- How many chunks the working registers leave to be done (rule R72). -/
def Work.chunks (w : Work) : Nat := chunksLeft w.pos.toNat w.rem.toNat

theorem Work.chunks_of_done {w : Work} (h : w.rem = 0) : w.chunks = 0 := by
  rw [Work.chunks, h]; exact chunksLeft_zero _

/-- A chunk takes one from the chunks left, and bits from the rest of the field, which ends where it did (rule R71). -/
theorem Work.advance_chunks {w : Work} (hrem : w.rem ≠ 0) (hend : w.pos.toNat + w.rem.toNat ≤ 2 ^ 32 - 1 + 32) :
    w.chunks = w.advance.chunks + 1 ∧ w.advance.rem.toNat < w.rem.toNat ∧
      w.advance.pos.toNat + w.advance.rem.toNat = w.pos.toNat + w.rem.toNat := by
  have h1 := rem_toNat_pos hrem
  have hk := chunkSize_le_rem w.pos.toNat w.rem.toNat
  have hk1 := chunkSize_pos w.pos.toNat h1
  rw [Work.chunks, Work.chunks, advance_rem_toNat, advance_pos_toNat hend]
  exact ⟨(chunksLeft_step h1).1, by omega, by omega⟩

/-- The moves of an EXTRACT in RUN, one for each chunk and FINISH, have the outcome of its chunk loop and FINISH. -/
theorem steps_extract (fuel : Nat) (s : State) (h : s.BetweenChunks .extract) (hf : s.eng.work.rem.toNat ≤ fuel) :
    steps (s.eng.work.chunks + 1) (s.withMoves (s.eng.work.chunks + 1)) = afterLoop (extractLoop fuel s) := by
  obtain ⟨hp, hop, hst, hend⟩ := h
  induction fuel generalizing s with
  | zero =>
    have h0 : s.eng.work.rem = 0 := BitVec.eq_of_toNat_eq (Nat.le_zero.mp hf)
    rw [Work.chunks_of_done h0, steps_withMoves_of_done hp h0]; rfl
  | succ fuel ih =>
    by_cases h0 : s.eng.work.rem = 0
    · rw [Work.chunks_of_done h0, steps_withMoves_of_done hp h0, extractLoop, if_pos h0]; rfl
    · obtain ⟨hchunks, hrem, hfield⟩ := Work.advance_chunks h0 hend
      rw [hchunks, extractLoop, if_neg h0]
      by_cases hidx : s.eng.work.idx < s.mem.size
      · rw [steps_withMoves_extractChunk _ hp hop h0 hidx, extractChunk_of_lt hidx]
        exact ih (afterExtractChunk s) (Nat.le_of_lt_succ (hrem.trans_le hf)) hp hop hst (hfield.trans_le hend)
      · rw [steps_withMoves_of_stuck _ hp h0 (by omega), extractChunk_of_ge (by omega)]; rfl

/-- The moves of an INJECT in RUN, two for each chunk and FINISH, have the outcome of its chunk loop and FINISH. -/
theorem steps_inject (fuel : Nat) (s : State) (h : s.BetweenChunks .inject) (hf : s.eng.work.rem.toNat ≤ fuel) :
    steps (2 * s.eng.work.chunks + 1) (s.withMoves (2 * s.eng.work.chunks + 1)) =
      afterLoop (injectLoop fuel s) := by
  obtain ⟨hp, hop, hst, hend⟩ := h
  induction fuel generalizing s with
  | zero =>
    have h0 : s.eng.work.rem = 0 := BitVec.eq_of_toNat_eq (Nat.le_zero.mp hf)
    rw [Work.chunks_of_done h0, steps_withMoves_of_done hp h0]; rfl
  | succ fuel ih =>
    by_cases h0 : s.eng.work.rem = 0
    · rw [Work.chunks_of_done h0, steps_withMoves_of_done hp h0, injectLoop, if_pos h0]; rfl
    · obtain ⟨hchunks, hrem, hfield⟩ := Work.advance_chunks h0 hend
      rw [hchunks, show 2 * (s.eng.work.advance.chunks + 1) + 1 = 2 * s.eng.work.advance.chunks + 1 + 2 by omega,
        injectLoop, if_neg h0]
      by_cases hidx : s.eng.work.idx < s.mem.size
      · rw [steps_withMoves_injectChunk _ hp hop hst h0 hidx, injectChunk_of_lt hidx]
        exact ih (afterInjectChunk s) (Nat.le_of_lt_succ (hrem.trans_le hf)) hp hop rfl (hfield.trans_le hend)
      · rw [steps_withMoves_of_stuck _ hp h0 (by omega), injectChunk_of_ge (by omega)]; rfl

/-! ## A whole command as moves (rules R73, R76 and R121) -/

/-- A word that the decode rejects is answered by the whole command with its code (rules R58 and R95). -/
theorem runCommand_of_decode_error {cmd : CmdWord} {ws : List CmdWord} {c : Code} (hp : s.eng.phase = .idle)
    (hport : s.eng.port = cmd :: ws) (hd : decode cmd = .error c) :
    runCommand s = .next (raiseFault c (takeWord cmd ws s)) := by
  cases hw : decodeWord cmd with
  | error c' =>
    rw [decode_of_error hw] at hd
    injection hd with hd
    rw [runCommand_of_error hp hport hw, hd]
  | ok i =>
    rw [decode_of_decodeWord hw] at hd
    split at hd
    · cases hd
    · next hc =>
      injection hd with hd
      rw [runCommand_of_decodeWord hp hport hw, exec_of_fault (s := takeWord cmd ws s) hp hc, hd]

/-- ACCEPT of a legal command begins its first chunk, with all the chunks of its field left (rules R67 and R72). -/
theorem startRun_betweenChunks (op : Op) {o l : Word} {n : Count} (x : Word) (hc : operandCode o n l = .ok)
    (s : State) : (startRun op o n x l s).BetweenChunks op ∧
      (startRun op o n x l s).eng.work.chunks = chunkCount o.toNat n.toNat := by
  obtain ⟨hpos, hrem, hend⟩ := startRun_field op x hc s
  refine ⟨⟨rfl, rfl, rfl, by rw [hpos]; exact hend⟩, ?_⟩
  rw [Work.chunks, hpos, chunksLeft, if_neg (Nat.ne_of_gt (rem_toNat_pos hrem))]
  rfl

/-- The first of the moves of an IDLE engine takes the word on its port (rule R67). -/
theorem steps_withMoves_accept {cmd : CmdWord} {ws : List CmdWord} (k : Nat) (hp : s.eng.phase = .idle)
    (hport : s.eng.port = cmd :: ws) :
    steps (k + 1) (s.withMoves (k + 1)) = steps k ((accept cmd (takeWord cmd ws s)).withMoves k) := by
  refine steps_withMoves_of_next ((moveEngine_of_idle (s := s.withMoves k) hp hport).trans (congrArg _ ?_))
  unfold accept
  split <;> rfl

theorem moveCount_of_error {cmd : CmdWord} {c : Code} (h : decode cmd = .error c) : moveCount cmd = 1 := by
  simp only [moveCount, h]

theorem moveCount_of_extract {cmd : CmdWord} {o l : Word} {n : Count} (h : decode cmd = .ok (.extract o n l)) :
    moveCount cmd = chunkCount o.toNat n.toNat + 2 := by
  simp only [moveCount, h]

theorem moveCount_of_inject {cmd : CmdWord} {o v l : Word} {n : Count} (h : decode cmd = .ok (.inject o n v l)) :
    moveCount cmd = 2 * chunkCount o.toNat n.toNat + 2 := by
  simp only [moveCount, h]

/-- The fine-grained steps of the word on the port have the one outcome of the whole command. -/
theorem steps_moveCount {cmd : CmdWord} {ws : List CmdWord} (hp : s.eng.phase = .idle)
    (hport : s.eng.port = cmd :: ws) : steps (moveCount cmd) (s.withMoves (moveCount cmd)) = runCommand s := by
  cases hd : decode cmd with
  | error c =>
    rw [moveCount_of_error hd, runCommand_of_decode_error hp hport hd]
    exact (steps_withMoves_accept 0 hp hport).trans (by rw [accept_error hd]; rfl)
  | ok i =>
    obtain ⟨hw, hc⟩ := decode_ok hd
    cases i with
    | extract o n l =>
      obtain ⟨hstart, hchunks⟩ := startRun_betweenChunks .extract 0 hc (takeWord cmd ws s)
      calc steps (moveCount cmd) (s.withMoves (moveCount cmd))
        _ = steps (chunkCount o.toNat n.toNat + 1)
            ((startExtract o n l (takeWord cmd ws s)).withMoves (chunkCount o.toNat n.toNat + 1)) := by
          rw [moveCount_of_extract hd, ← accept_extract hd, steps_withMoves_accept _ hp hport]
        _ = afterLoop (extractLoop n.toNat (startExtract o n l (takeWord cmd ws s))) := by
          rw [← hchunks]; exact steps_extract n.toNat _ hstart le_rfl
        _ = runCommand s := by
          rw [runCommand_of_decodeWord hp hport hw, exec_extract_of_ok (s := takeWord cmd ws s) hp hc]
    | inject o n v l =>
      obtain ⟨hstart, hchunks⟩ := startRun_betweenChunks .inject (maskedValue v n) hc (takeWord cmd ws s)
      calc steps (moveCount cmd) (s.withMoves (moveCount cmd))
        _ = steps (2 * chunkCount o.toNat n.toNat + 1)
            ((startInject o n v l (takeWord cmd ws s)).withMoves (2 * chunkCount o.toNat n.toNat + 1)) := by
          rw [moveCount_of_inject hd, ← accept_inject hd, steps_withMoves_accept _ hp hport]
        _ = afterLoop (injectLoop n.toNat (startInject o n v l (takeWord cmd ws s))) := by
          rw [← hchunks]; exact steps_inject n.toNat _ hstart le_rfl
        _ = runCommand s := by
          rw [runCommand_of_decodeWord hp hport hw, exec_inject_of_ok (s := takeWord cmd ws s) hp hc]

/-- A field of `n` bits has at most ceil(n / 8) + 1 chunks (rule R73). -/
theorem chunkCount_le (o n : Nat) : chunkCount o n ≤ (n + 7) / 8 + 1 := by
  unfold chunkCount; omega

/-- Settles O37: ACCEPT, then, by induction on the chunk loop's fuel, one move or two for each chunk, then FINISH. -/
theorem fineGrainedRunEqualsTheCommand : Obligations.FineGrainedRunEqualsTheCommand := by
  unfold Obligations.FineGrainedRunEqualsTheCommand
  refine ⟨fun s cmd ws rest hp hport => ?_, fun cmd => ?_⟩
  · rw [step_command_self (s := { s with inputs := .command s.self :: rest }) rfl]
    exact steps_moveCount (s := { s with inputs := rest }) hp hport
  · cases hd : decode cmd with
    | error c => exact (moveCount_of_error hd).le
    | ok i =>
      cases i with
      | extract o n l =>
        exact (moveCount_of_extract hd).trans_le (Nat.add_le_add_right (chunkCount_le ..) 2)
      | inject o n v l =>
        exact (moveCount_of_inject hd).trans_le (Nat.add_le_add_right (Nat.mul_le_mul_left 2 (chunkCount_le ..)) 2)

end Sys2Proof.Machine
end

section
/-! PROOFS. EXTRACT as a whole command (O14, O15, O16) and chunk by chunk (O16, O31): its RESULT, the memory it leaves
alone, and the exact next state of its chunk step. -/

namespace Sys2Proof.Machine

variable {s t : State} {o l : Word} {n : Count}

/-! ## The whole command (rules R78 to R80) -/

/-- Settles O14: the closed form of the chunk loop gives the state that FINISH ends in. -/
theorem extractCompletesWithTheField : Obligations.ExtractCompletesWithTheField := by
  unfold Obligations.ExtractCompletesWithTheField
  intro s o n l hp hw hs
  obtain ⟨w, he, hop, hacc⟩ := execExtract_runs hp ((extract_wellFormed_iff o n l).mp hw) hs
  refine ⟨_, he, rfl, ?_, rfl, finish_err _, rfl, rfl, rfl, rfl, rfl, rfl⟩
  rw [finish_result]
  simp only [hop, hacc]

/-- A legal EXTRACT that answers at all had its span in memory (rule R43), and returns its field. -/
theorem exec_extract_result (hp : s.eng.phase = .idle) (hc : (Instr.extract o n l).operandCode = .ok)
    (he : exec (.extract o n l) s = .next t) : t.eng.result.toNat = fieldValue s.mem o.toNat n.toNat := by
  have hw : (Instr.extract o n l).wellFormed = true := (wellFormed_iff _).mpr hc
  by_cases hs : spanLast o.toNat n.toNat < s.mem.size
  · obtain ⟨t', he', hresult, -⟩ := exec_extract_fieldValue hp hw hs
    rw [he] at he'
    injection he' with he'
    rw [he', hresult]
  · obtain ⟨hstuck, -, -⟩ := engineIsStuckBeyondMemory
    have hfault := hstuck s o n l hp hw (Nat.le_of_not_lt hs)
    rw [he] at hfault
    cases hfault

/-- Settles O15: RESULT is a field of COUNT bits, or the 0 of a fault. -/
theorem extractResultIsBelowTwoToTheCount : Obligations.ExtractResultIsBelowTwoToTheCount := by
  unfold Obligations.ExtractResultIsBelowTwoToTheCount
  intro s t o n l hp he
  by_cases hc : (Instr.extract o n l).operandCode = .ok
  · rw [exec_extract_result hp hc he]
    exact fieldValue_lt ..
  · rw [exec_of_fault hp hc] at he
    injection he with he
    rw [← he]
    exact Nat.two_pow_pos _

/-! ## The steps of an EXTRACT in RUN (rules R79 and R81) -/

theorem moveEngine_extractChunk (hp : s.eng.phase = .run) (hrem : s.eng.work.rem ≠ 0)
    (hop : s.eng.work.op = .extract) : moveEngine s = orStuck (extractChunk s) := by
  rw [moveEngine_of_run hp hrem]
  simp only [chunkMove, hop]

/-- A move of an EXTRACT in RUN is FINISH or one chunk. -/
theorem moveEngine_extract_next (hp : s.eng.phase = .run) (hop : s.eng.work.op = .extract)
    (hm : moveEngine s = .next t) :
    (s.eng.work.rem = 0 ∧ t = finish s) ∨ (s.eng.work.rem ≠ 0 ∧ t = afterExtractChunk s) := by
  by_cases hrem : s.eng.work.rem = 0
  · rw [moveEngine_of_done hp hrem] at hm
    injection hm with hm
    exact .inl ⟨hrem, hm.symm⟩
  · rw [moveEngine_extractChunk hp hrem hop] at hm
    by_cases hidx : s.eng.work.idx < s.mem.size
    · rw [extractChunk_of_lt hidx] at hm
      injection hm with hm
      exact .inr ⟨hrem, hm.symm⟩
    · rw [extractChunk_of_ge (Nat.le_of_not_lt hidx)] at hm
      cases hm

/-- In RUN both events that let an engine go on are its move (log entry 8). -/
theorem step_of_run {ev : Event} {rest : List Event} (hin : s.inputs = ev :: rest)
    (hev : ev = .move s.self ∨ ev = .command s.self) (hp : s.eng.phase = .run) :
    step s = moveEngine { s with inputs := rest } := by
  rcases hev with rfl | rfl
  · exact step_move_self hin
  · exact (step_command_self hin).trans (runCommand_of_run (s := { s with inputs := rest }) hp)

/-- Settles O16: the whole command keeps memory, and so do FINISH and the chunk step. -/
theorem extractNeverWritesMemory : Obligations.ExtractNeverWritesMemory := by
  unfold Obligations.ExtractNeverWritesMemory
  refine ⟨fun s t o n l he => ?_, fun s t ev rest hin hev hp hop hs => ?_⟩
  · by_cases hp : s.eng.phase = .idle
    · exact exec_extract_mem hp he
    · rw [exec_of_busy hp] at he
      injection he with he
      rw [he]
  · rw [step_of_run hin hev hp] at hs
    rcases moveEngine_extract_next (s := { s with inputs := rest }) hp hop hs with ⟨-, rfl⟩ | ⟨-, rfl⟩ <;> rfl

/-- Settles O31: the chunk step is `afterExtractChunk`, its `acc` written as arithmetic. -/
theorem extractChunkStepReadsOneByte : Obligations.ExtractChunkStepReadsOneByte := by
  unfold Obligations.ExtractChunkStepReadsOneByte
  intro s rest hin hp hop hrem
  have hstep : step s = orStuck (extractChunk { s with inputs := rest }) :=
    (step_move_self hin).trans (moveEngine_extractChunk (s := { s with inputs := rest }) hp hrem hop)
  refine ⟨fun hidx => ?_, fun hidx => ?_⟩
  · rw [hstep, extractChunk_of_lt (s := { s with inputs := rest }) hidx, afterExtractChunk, accumulated_eq,
      chunkOfByte_eq]
    rfl
  · rw [hstep, extractChunk_of_ge (s := { s with inputs := rest }) hidx]
    rfl

end Sys2Proof.Machine
end

section
/-! PROOFS. Runs of several steps: the record only grows, the platform keeps its engines, and what every step keeps while
engine `n` has exclusive access to a span (rules R116 and R117), the whole run keeps. -/

namespace Sys2Proof.Machine

variable {s t u : State} {n lo hi : Nat}

/-! ## The record only grows -/

theorem takeResponse_trace_suffix (s : State) : s.trace <:+ (takeResponse s).trace := by
  rcases takeResponse_cases s with ⟨-, ht⟩ | ⟨-, ht⟩ <;> rw [ht]
  exact List.suffix_cons ..

theorem accept_trace (cmd : CmdWord) (s : State) : (accept cmd s).trace = s.trace := by
  unfold accept; split <;> rfl

theorem extractChunk_trace_suffix (hc : extractChunk s = some t) : s.trace <:+ t.trace := by
  obtain ⟨-, rfl⟩ := extractChunk_some hc
  exact List.suffix_cons ..

theorem injectRead_trace_suffix (hc : injectRead s = some t) : s.trace <:+ t.trace := by
  obtain ⟨-, rfl⟩ := injectRead_some hc
  exact List.suffix_cons ..

theorem injectWrite_trace_suffix (hc : injectWrite s = some t) : s.trace <:+ t.trace := by
  obtain ⟨-, rfl⟩ := injectWrite_some hc
  exact List.suffix_cons ..

theorem exec_trace_suffix {i : Instr} (hp : s.eng.phase = .idle) (he : exec i s = .next t) : s.trace <:+ t.trace := by
  rcases exec_next hp he with ⟨-, rfl⟩ | ⟨-, x, rfl, hx⟩
  · exact List.suffix_rfl
  · refine hx (fun x => s.trace <:+ x.trace) ?_
    cases i with
    | extract o c l => exact ⟨List.suffix_rfl, fun _ _ h hc => h.trans (extractChunk_trace_suffix hc)⟩
    | inject o c v l =>
      exact ⟨List.suffix_rfl, fun _ _ h hc => h.trans (injectRead_trace_suffix hc),
        fun _ _ h hc => h.trans (injectWrite_trace_suffix hc)⟩

theorem moveEngine_trace_suffix (hs : moveEngine s = .next t) : s.trace <:+ t.trace := by
  rcases moveEngine_next hs with ⟨rfl, -⟩ | ⟨cmd, ws, -, -, rfl⟩ | ⟨-, -, rfl⟩ | ⟨-, -, hchunk⟩
  · exact List.suffix_rfl
  · rw [accept_trace]; exact List.suffix_cons ..
  · exact List.suffix_rfl
  · rcases hchunk with ⟨-, hc⟩ | ⟨-, -, hc⟩ | ⟨-, -, hc⟩
    · exact extractChunk_trace_suffix hc
    · exact injectRead_trace_suffix hc
    · exact injectWrite_trace_suffix hc

theorem runCommand_trace_suffix (hs : runCommand s = .next t) : s.trace <:+ t.trace := by
  rcases runCommand_next hs with ⟨cmd, ws, c, -, -, -, rfl⟩ | ⟨cmd, ws, i, hp, -, -, he⟩ | ⟨-, hm⟩
  · exact List.suffix_cons ..
  · exact (List.suffix_cons ..).trans (exec_trace_suffix (s := takeWord cmd ws s) hp he)
  · exact moveEngine_trace_suffix hm

theorem EngineEvent.trace_suffix {ev : Event} (hev : EngineEvent ev n s t) : s.trace <:+ t.trace := by
  rcases hev with ⟨cmd, -, rfl⟩ | ⟨-, hc⟩ | ⟨-, hm⟩ | ⟨-, rfl⟩ | ⟨-, rfl⟩ | ⟨-, rfl⟩ | ⟨-, rfl⟩
  · exact List.suffix_rfl
  · exact runCommand_trace_suffix hc
  · exact moveEngine_trace_suffix hm
  · exact takeResponse_trace_suffix s
  · exact List.suffix_cons ..
  · exact List.suffix_cons ..
  · exact List.suffix_cons ..

theorem perform_trace_suffix {ev : Event} (hs : perform ev s = .next t) : s.trace <:+ t.trace := by
  rcases perform_next hs with ⟨m, u, hf, hev⟩ | ⟨i, -, -, rfl⟩ | ⟨i, v, -, -, rfl⟩
  · obtain ⟨-, -, -, -, -, htrace, -⟩ := focus_eq_some hf
    exact htrace ▸ EngineEvent.trace_suffix hev
  · exact List.suffix_cons ..
  · exact List.suffix_cons ..

theorem step_trace_suffix (hs : step s = .next t) : s.trace <:+ t.trace := by
  cases hin : s.inputs with
  | nil => rw [step_nil hin] at hs; injection hs with hs; exact hs ▸ List.suffix_rfl
  | cons ev rest => rw [step_cons hin] at hs; exact perform_trace_suffix (s := { s with inputs := rest }) hs

/-- A run of one step or more is its first step, then the others from where that leads. -/
theorem steps_succ_next {k : Nat} (h : steps (k + 1) s = .next t) : ∃ u, step s = .next u ∧ steps k u = .next t := by
  rw [steps] at h
  cases hs : step s with
  | next u => rw [hs] at h; exact ⟨u, rfl, h⟩
  | fault r | refused r => rw [hs] at h; cases h

theorem steps_trace_suffix {k : Nat} (h : steps k s = .next t) : s.trace <:+ t.trace := by
  induction k generalizing s with
  | zero => injection h with h; exact h ▸ List.suffix_rfl
  | succ k ih =>
    obtain ⟨u, hs, hrest⟩ := steps_succ_next h
    exact (step_trace_suffix hs).trans (ih hrest)

/-- What two runs, one after the other, record. -/
theorem since_trans (h : s.trace <:+ u.trace) (h' : u.trace <:+ t.trace) : since s t = since u t ++ since s u := by
  obtain ⟨acts, hu⟩ := h
  obtain ⟨acts', ht⟩ := h'
  rw [since_append hu.symm, since_append ht.symm]
  exact since_append (by rw [← ht, ← hu, List.append_assoc])

/-! ## The engines of the platform stay -/

theorem step_engines_length (hs : step s = .next t) : t.engines.length = s.engines.length := by
  cases hin : s.inputs with
  | nil => rw [step_nil hin] at hs; injection hs with hs; rw [hs]
  | cons ev rest =>
    rw [step_cons hin] at hs
    rcases perform_next hs with ⟨m, u, hf, hev⟩ | ⟨i, -, -, rfl⟩ | ⟨i, v, -, -, rfl⟩
    · obtain ⟨hengines, -⟩ := focus_eq_some hf
      obtain ⟨hb, ha, -⟩ := EngineEvent.frame hev
      calc t.engines.length
        _ = u.engines.length := by simp [State.engines, hb, ha]
        _ = s.engines.length := by rw [hengines]; rfl
    · rfl
    · rfl

theorem step_engine_exists {a : Engine} (hs : step s = .next t) (ha : s.engines[n]? = some a) :
    ∃ b, t.engines[n]? = some b := by
  obtain ⟨hn, -⟩ := List.getElem?_eq_some_iff.mp ha
  exact ⟨_, List.getElem?_eq_getElem (step_engines_length hs ▸ hn)⟩

/-! ## Exclusive access to a span (rules R116, R117 and R123) -/

section
variable {acts acts' : List Act}

theorem exclusive_append :
    exclusive n lo hi (acts ++ acts') = true ↔ exclusive n lo hi acts = true ∧ exclusive n lo hi acts' = true := by
  simp [exclusive]

theorem response_not_mem_of_exclusive (h : exclusive n lo hi acts = true) (w : RspWord) : Act.response n w ∉ acts :=
  fun hmem => by simpa using List.all_eq_true.mp h _ hmem

theorem reset_not_mem_of_exclusive (h : exclusive n lo hi acts = true) : Act.reset n ∉ acts :=
  fun hmem => by simpa using List.all_eq_true.mp h _ hmem

/-- Only engine `n` has written in the span. -/
theorem storer_of_exclusive (h : exclusive n lo hi acts = true) {who : Agent} {i : Nat} {v : Byte}
    (hmem : Act.store who i v ∈ acts) (hlo : lo ≤ i) (hhi : i ≤ hi) : who = .engine n := by
  have hact := List.all_eq_true.mp h _ hmem
  simp only [Bool.or_eq_true, decide_eq_true_eq] at hact
  rcases hact with (hwho | hbelow) | habove
  · exact hwho
  · omega
  · omega
end

/-- What every step keeps while engine `n` has exclusive access to a span, a run of steps keeps. -/
theorem steps_keeps_of_exclusive {P : State → Prop}
    (hP : ∀ s t, P s → step s = .next t → exclusive n lo hi (since s t) = true → P t) {k : Nat} (hs : P s)
    (h : steps k s = .next t) (hex : exclusive n lo hi (since s t) = true) : P t := by
  induction k generalizing s with
  | zero => injection h with h; exact h ▸ hs
  | succ k ih =>
    obtain ⟨u, hstep, hrest⟩ := steps_succ_next h
    rw [since_trans (step_trace_suffix hstep) (steps_trace_suffix hrest), exclusive_append] at hex
    exact ih (hP s u hs hstep hex.2) hrest hex.1

/-- A step of a platform on which engine `n` has exclusive access to a span leaves each byte of it, unless engine `n` itself
writes there (rule R28). -/
theorem step_keeps_span {a : Engine} (ha : s.engines[n]? = some a) (hno : ∀ i ev, ¬ a.Stores n i ev)
    (hs : step s = .next t) (hex : exclusive n lo hi (since s t) = true) {i : Nat} (hlo : lo ≤ i) (hhi : i ≤ hi) :
    t.mem.read i = s.mem.read i := by
  cases hin : s.inputs with
  | nil => rw [step_nil hin] at hs; injection hs with hs; rw [hs]
  | cons ev rest =>
    by_contra hne
    rcases memoryChangesOnlyByStores s t ev rest i hin hs hne with ⟨v, -, hv⟩ | ⟨m, b, v, hb, hv, hstores⟩
    · cases storer_of_exclusive hex hv hlo hhi
    · cases storer_of_exclusive hex hv hlo hhi
      rw [ha] at hb
      cases hb
      exact hno i ev hstores

end Sys2Proof.Machine
end

section
/-! PROOFS. EXTRACT with other agents on its memory (O47): the invariant of the engine that runs it, over the memory as it
was at the start; each event keeps it while no other agent writes in the span. -/

namespace Sys2Proof.Machine

variable {m m' : Memory} {s t u : State} {n : Nat} {cmd : CmdWord} {o l : Word} {c : Count} {a : Engine}

/-! ## The bytes a field lies in (rules R74 and R76) -/

/-- The two memories have the same bytes in the span of a field. -/
abbrev SameInSpan (o c : Nat) (m m' : Memory) : Prop :=
  ∀ i, spanFirst o ≤ i → i ≤ spanLast o c → m'.read i = m.read i

theorem bitAt_congr {p : Nat} (h : m'.read (p / 8) = m.read (p / 8)) : bitAt m' p = bitAt m p := by
  rw [bitAt, h, bitAt]

/-- A field depends on the bytes of its span only. -/
theorem fieldValue_congr {o c : Nat} (h : SameInSpan o c m m') : fieldValue m' o c = fieldValue m o c := by
  unfold fieldValue
  refine congrArg List.sum (List.map_congr_left fun i hi => ?_)
  have hic := List.mem_range.mp hi
  rw [bitAt_congr (h _ (by unfold spanFirst; omega) (by unfold spanLast; omega))]

/-! ## The invariant of the engine -/

/-- The working registers of an EXTRACT of the field `[o, o + c)` of the memory `m`: `acc` holds the bits read so far. -/
abbrev Work.HoldsField (m : Memory) (o c : Nat) (w : Work) : Prop :=
  w.op = .extract ∧
    ∃ j, w.pos.toNat = o + j ∧ j + w.rem.toNat = c ∧ w.acc.toNat = fieldValue m o j

/-- The engine has the word `cmd` next on its port, or runs the EXTRACT of the field `[o, o + c)` of the memory `m`, or
holds its response. -/
abbrev Engine.Extracting (m : Memory) (cmd : CmdWord) (o c : Nat) (e : Engine) : Prop :=
  (e.phase = .idle ∧ ∃ ws, e.port = cmd :: ws) ∨
  (e.phase = .run ∧ e.work.HoldsField m o c) ∨
  (e.phase = .resp ∧ e.rsp.code = 0 ∧ e.rsp.result.toNat = fieldValue m o c ∧ e.result = e.rsp.result)

/-- ACCEPT starts with no bits read (rule R67). -/
theorem startExtract_holdsField (m : Memory) (hc : operandCode o c l = .ok) (s : State) :
    (startExtract o c l s).eng.work.HoldsField m o.toNat c.toNat :=
  ⟨rfl, 0, (startRun_field .extract 0 hc s).1, Nat.zero_add _, rfl⟩

/-- A chunk appends the bits of its byte to those read so far (rules R70, R71 and R77). -/
theorem afterExtractChunk_holdsField (hc : operandCode o c l = .ok) (hspan : SameInSpan o.toNat c.toNat m s.mem)
    (hrem : s.eng.work.rem ≠ 0) (h : s.eng.work.HoldsField m o.toNat c.toNat) :
    (afterExtractChunk s).eng.work.HoldsField m o.toNat c.toNat := by
  obtain ⟨hop, j, hpos, hend, hacc⟩ := h
  obtain ⟨-, hc32, -⟩ := (operandCode_eq_ok_iff o c l).mp hc
  have ho := o.isLt
  have hrem1 := rem_toNat_pos hrem
  have hk := chunkSize_le_rem s.eng.work.pos.toNat s.eng.work.rem.toNat
  have hbyte : s.mem.read s.eng.work.idx = m.read (chunkIdx s.eng.work.pos.toNat) :=
    hspan _ (by unfold spanFirst Work.idx chunkIdx; omega) (by unfold spanLast Work.idx chunkIdx; omega)
  have hlt : s.eng.work.acc.toNat < 2 ^ (32 - s.eng.work.rem.toNat) :=
    hacc ▸ (fieldValue_lt m o.toNat j).trans_le (Nat.pow_le_pow_right (by decide) (by omega))
  refine ⟨hop, j + chunkSize s.eng.work.pos.toNat s.eng.work.rem.toNat, ?_, ?_, ?_⟩
  · rw [← Nat.add_assoc, ← hpos]
    exact advance_pos_toNat (by omega)
  · have hrem' : (afterExtractChunk s).eng.work.rem.toNat = _ := advance_rem_toNat s.eng.work
    omega
  · calc (afterExtractChunk s).eng.work.acc.toNat
      _ = (accumulated s.eng.work.pos.toNat s.eng.work.rem.toNat s.eng.work.acc
            (m.read (chunkIdx s.eng.work.pos.toNat))).toNat := by rw [← hbyte]; rfl
      _ = fieldValue m o.toNat j * 2 ^ chunkSize s.eng.work.pos.toNat s.eng.work.rem.toNat +
            fieldValue m (o.toNat + j) (chunkSize s.eng.work.pos.toNat s.eng.work.rem.toNat) := by
          rw [(accumulated_toNat (m := m) (by omega) hlt).1, hacc, hpos]
      _ = fieldValue m o.toNat (j + chunkSize s.eng.work.pos.toNat s.eng.work.rem.toNat) :=
          (fieldValue_add ..).symm

/-- FINISH answers with the field, all its bits read (rule R68). -/
theorem finish_extracting {c : Nat} (h : s.eng.work.HoldsField m o.toNat c) (hrem : s.eng.work.rem = 0) :
    (finish s).eng.Extracting m cmd o.toNat c := by
  obtain ⟨hop, j, -, hend, hacc⟩ := h
  have hj : j = c := by simpa [hrem] using hend
  refine .inr (.inr ⟨rfl, rfl, ?_, rfl⟩)
  rw [← hj, ← hacc, finish_rsp, finish_result]
  simp only [hop]

/-! ## The events of the engine -/

theorem Engine.Extracting.move (hd : decode cmd = .ok (.extract o c l))
    (hspan : SameInSpan o.toNat c.toNat m s.mem) (h : s.eng.Extracting m cmd o.toNat c.toNat)
    (hm : moveEngine s = .next t) : t.eng.Extracting m cmd o.toNat c.toNat := by
  have hc : operandCode o c l = .ok := (decode_ok hd).2
  rcases h with ⟨hp, ws, hport⟩ | ⟨hp, hw⟩ | hresp
  · rw [moveEngine_of_idle hp hport, accept_extract hd] at hm
    injection hm with hm
    exact hm ▸ .inr (.inl ⟨rfl, startExtract_holdsField m hc _⟩)
  · rcases moveEngine_extract_next hp hw.1 hm with ⟨hrem, rfl⟩ | ⟨hrem, rfl⟩
    · exact finish_extracting hw hrem
    · exact .inr (.inl ⟨hp, afterExtractChunk_holdsField hc hspan hrem hw⟩)
  · rw [moveEngine_of_resp hresp.1] at hm
    injection hm with hm
    exact hm ▸ .inr (.inr hresp)

/-- The whole command answers with the field of the memory as it is (rule R78), which is that at the start. -/
theorem Engine.Extracting.command (hd : decode cmd = .ok (.extract o c l))
    (hspan : SameInSpan o.toNat c.toNat m s.mem) (h : s.eng.Extracting m cmd o.toNat c.toNat)
    (hm : runCommand s = .next t) : t.eng.Extracting m cmd o.toNat c.toNat := by
  rcases id h with ⟨hp, ws, hport⟩ | ⟨hp, -⟩ | ⟨hp, -⟩
  · obtain ⟨hw, hc⟩ := decode_ok hd
    have hp' : (takeWord cmd ws s).eng.phase = .idle := hp
    rw [runCommand_of_decodeWord hp hport hw] at hm
    have hresult := exec_extract_result hp' hc hm
    obtain ⟨-, -, -, -, -, hphase, hrsp, -⟩ := exec_frame hp' hm
    refine .inr (.inr ⟨hphase, by rw [hrsp, hc]; rfl, ?_, by rw [hrsp]⟩)
    rw [hrsp, hresult, takeWord_mem, fieldValue_congr hspan]
  · exact h.move hd hspan (runCommand_of_run hp ▸ hm)
  · rw [runCommand_of_resp hp] at hm
    injection hm with hm
    exact hm ▸ h

/-- The engine has no store to make: it is at an EXTRACT (rule R79). -/
theorem Engine.Extracting.no_store (hd : decode cmd = .ok (.extract o c l)) (h : a.Extracting m cmd o.toNat c.toNat)
    (i : Nat) (ev : Event) : ¬ a.Stores n i ev := by
  rintro (⟨hp, hop, -⟩ | ⟨hp, -, cmd', ws', o', c', x, l', hport', hd', -⟩)
  · rcases h with ⟨hp', -⟩ | ⟨-, hop', -⟩ | ⟨hp', -⟩
    · cases hp.symm.trans hp'
    · cases hop.symm.trans hop'
    · cases hp.symm.trans hp'
  · rcases h with ⟨-, ws, hport⟩ | ⟨hp', -⟩ | ⟨hp', -⟩
    · cases hport.symm.trans hport'
      cases hd.symm.trans hd'
    · cases hp.symm.trans hp'
    · cases hp.symm.trans hp'

/-- Every event of the engine keeps the invariant, its reset and the taking of its response being shut out. -/
theorem EngineEvent.extracting {ev : Event} {lo hi : Nat} (hev : EngineEvent ev n s t) (hn : s.self = n)
    (hd : decode cmd = .ok (.extract o c l)) (hspan : SameInSpan o.toNat c.toNat m s.mem)
    (hex : exclusive n lo hi (since s t) = true) (h : s.eng.Extracting m cmd o.toNat c.toNat) :
    t.eng.Extracting m cmd o.toNat c.toNat := by
  subst hn
  rcases hev with ⟨w, -, rfl⟩ | ⟨-, hc⟩ | ⟨-, hm⟩ | ⟨-, rfl⟩ | ⟨-, rfl⟩ | ⟨-, rfl⟩ | ⟨-, rfl⟩
  · rcases h with ⟨hp, ws, hport⟩ | hrun | hresp
    · exact .inl ⟨hp, ws ++ [w], by rw [setEng_eng, hport, List.cons_append]⟩
    · exact .inr (.inl hrun)
    · exact .inr (.inr hresp)
  · exact h.command hd hspan hc
  · exact h.move hd hspan hm
  · rcases takeResponse_cases s with ⟨-, ht⟩ | ⟨-, ht⟩
    · exact absurd (mem_since_of_cons (by rw [ht, deliver_trace])) (response_not_mem_of_exclusive hex _)
    · rw [ht]; exact h
  · exact h
  · exact h
  · exact absurd (mem_since_of_cons (resetEngine_trace ..)) (reset_not_mem_of_exclusive hex)

/-! ## The run -/

/-- Engine `n` meets the invariant, and the span of its field is as in the memory `m`. -/
abbrev State.Extracting (n : Nat) (m : Memory) (cmd : CmdWord) (o c : Nat) (s : State) : Prop :=
  SameInSpan o c m s.mem ∧ ∃ a, s.engines[n]? = some a ∧ a.Extracting m cmd o c

theorem step_extracting (hd : decode cmd = .ok (.extract o c l)) (h : s.Extracting n m cmd o.toNat c.toNat)
    (hs : step s = .next t)
    (hex : exclusive n (spanFirst o.toNat) (spanLast o.toNat c.toNat) (since s t) = true) :
    t.Extracting n m cmd o.toNat c.toNat := by
  obtain ⟨hspan, a, ha, hext⟩ := h
  obtain ⟨b, hb⟩ := step_engine_exists hs ha
  refine ⟨fun i hlo hhi => ?_, b, hb, ?_⟩
  · rw [step_keeps_span ha (hext.no_store hd) hs hex hlo hhi, hspan i hlo hhi]
  · cases hin : s.inputs with
    | nil =>
      rw [step_nil hin] at hs
      injection hs with hs
      rw [← hs, ha] at hb
      cases hb
      exact hext
    | cons ev rest =>
      rcases step_at_engine hin hs ha hb with ⟨-, rfl⟩ | ⟨u, rfl, hn, rfl, -, hmem, htrace, -, -, hev⟩
      · exact hext
      · have hsince : since u t = since s t := by rw [since, since, htrace]
        exact EngineEvent.extracting hev hn hd (hmem ▸ hspan) (hsince ▸ hex) hext

/-- Settles O47, by induction on the run: the engine is before, in, or past its EXTRACT, and the bits it has read are those
that were in the span at the start. -/
theorem interleavedExtractReturnsTheField : Obligations.InterleavedExtractReturnsTheField := by
  unfold Obligations.InterleavedExtractReturnsTheField
  intro k s t n a b cmd ws o c l ha hp hport hd hsteps hex hb hresp
  obtain ⟨-, b', hb', hext⟩ : t.Extracting n s.mem cmd o.toNat c.toNat :=
    steps_keeps_of_exclusive (fun x y hx hxy => step_extracting hd hx hxy)
      ⟨fun _ _ _ => rfl, a, ha, .inl ⟨hp, ws, hport⟩⟩ hsteps hex
  cases hb.symm.trans hb'
  rcases hext with ⟨hidle, -⟩ | ⟨hrun, -⟩ | ⟨-, hanswer⟩
  · cases hresp.symm.trans hidle
  · cases hresp.symm.trans hrun
  · exact hanswer

end Sys2Proof.Machine
end

section
/-! PROOFS. INJECT as a whole command (O18 to O22): its memory bit by bit, and what an EXTRACT makes of a field that an
INJECT has written. -/

namespace Sys2Proof.Machine

variable {m m' : Memory} {s t : State} {o v l : Word} {n : Count}

/-! ## Bytes and memories by their bits (rule R76) -/

theorem getLsbD_eq_bitAt (m : Memory) (i : Nat) {q : Nat} (hq : q < 8) :
    (m.read i).getLsbD q = decide (bitAt m (8 * i + (7 - q)) = 1) := by
  rw [bitAt_eq_testBit, show (8 * i + (7 - q)) / 8 = i by omega, show 7 - (8 * i + (7 - q)) % 8 = q by omega]
  simp

/-- A byte whose eight bits are as before is as before. -/
theorem read_eq_of_bitAt {i : Nat} (h : ∀ p, p / 8 = i → bitAt m' p = bitAt m p) : m'.read i = m.read i :=
  BitVec.eq_of_getLsbD_eq fun q hq => by
    rw [getLsbD_eq_bitAt m' i hq, getLsbD_eq_bitAt m i hq, h _ (by omega)]

/-- Memories in canonical form are the same where they have the same size and the same bits. -/
theorem Memory.ext_bitAt (hwf : m.wf = true) (hwf' : m'.wf = true) (hsize : m'.size = m.size)
    (h : ∀ p, bitAt m' p = bitAt m p) : m' = m :=
  Memory.ext_read hwf' hwf hsize fun _ => read_eq_of_bitAt fun p _ => h p

/-- A field depends on its own bits only, not on what else its bytes hold. -/
theorem fieldValue_congr_bitAt {o n : Nat} (h : ∀ p, o ≤ p → p < o + n → bitAt m' p = bitAt m p) :
    fieldValue m' o n = fieldValue m o n := by
  unfold fieldValue
  refine congrArg List.sum (List.map_congr_left fun i hi => ?_)
  have hin := List.mem_range.mp hi
  rw [h (o + i) (by omega) (by omega)]

/-- Each bit of a field's value is that of the buffer (rule R34: the first bit is the most significant). -/
theorem testBit_fieldValue (m : Memory) (o : Nat) {n i : Nat} (hi : i < n) :
    ((fieldValue m o n).testBit (n - 1 - i)).toNat = bitAt m (o + i) := by
  induction n with
  | zero => omega
  | succ n ih =>
    have hbit := bitAt_le_one m (o + n)
    rw [fieldValue_succ]
    rcases Nat.lt_succ_iff_lt_or_eq.mp hi with hlt | rfl
    · rw [← ih hlt, show n + 1 - 1 - i = (n - 1 - i) + 1 by omega, Nat.testBit_succ,
        show (fieldValue m o n * 2 + bitAt m (o + n)) / 2 = fieldValue m o n by omega]
    · rw [show i + 1 - 1 - i = 0 by omega, Nat.toNat_testBit, Nat.pow_zero, Nat.div_one]
      omega

/-- A field that has the low bits of a number holds that number modulo 2^(its width). -/
theorem fieldValue_of_testBit {o n v : Nat} (h : ∀ i < n, bitAt m (o + i) = (v.testBit (n - 1 - i)).toNat) :
    fieldValue m o n = v % 2 ^ n := by
  induction n generalizing v with
  | zero => rw [fieldValue_zero, Nat.pow_zero, Nat.mod_one]
  | succ n ih =>
    have hlast : bitAt m (o + n) = v % 2 := by
      rw [h n (Nat.lt_succ_self n), show n + 1 - 1 - n = 0 by omega, Nat.toNat_testBit, Nat.pow_zero, Nat.div_one]
    have hrest : fieldValue m o n = v / 2 % 2 ^ n := ih fun i hi => by
      rw [h i (by omega), show n + 1 - 1 - i = (n - 1 - i) + 1 by omega, Nat.testBit_succ]
    rw [fieldValue_succ, hlast, hrest, Nat.pow_succ', Nat.mod_mul]
    omega

/-! ## The memory an INJECT makes (rule R84) -/

/-- The buffer bit at `p` after the first `j` bits of the field `[o, o + n)` of the memory `m` have been made those of
`v`. -/
def injectedBit (m : Memory) (o n v j p : Nat) : Nat :=
  if o ≤ p ∧ p < o + j then (v >>> (n - 1 - (p - o))) &&& 1 else bitAt m p

section
variable {o n v j p : Nat}

theorem injectedBit_of_mem (hlo : o ≤ p) (hhi : p < o + j) :
    injectedBit m o n v j p = (v >>> (n - 1 - (p - o))) &&& 1 := if_pos ⟨hlo, hhi⟩

theorem injectedBit_of_not_mem (h : p < o ∨ o + j ≤ p) : injectedBit m o n v j p = bitAt m p := if_neg (by omega)

theorem shiftRight_and_one (x k : Nat) : (x >>> k) &&& 1 = (x.testBit k).toNat := by
  rw [Nat.toNat_testBit, Nat.and_one_is_mod, Nat.shiftRight_eq_div_pow]

/-- The memory `m'` is the memory `m` with the field `[o, o + n)` made the low `n` bits of `v`: `Inject(m, o, n, v)`. -/
abbrev Injected (o n v : Nat) (m m' : Memory) : Prop := ∀ p, bitAt m' p = injectedBit m o n v n p

/-- Writing back what the field holds changes nothing (rule R86). -/
theorem Injected.of_fieldValue (h : Injected o n (fieldValue m o n) m m') (p : Nat) : bitAt m' p = bitAt m p := by
  rw [h p]
  by_cases hp : o ≤ p ∧ p < o + n
  · rw [injectedBit_of_mem hp.1 hp.2, shiftRight_and_one, testBit_fieldValue m o (by omega), Nat.add_sub_cancel' hp.1]
  · exact injectedBit_of_not_mem (by omega)

/-- The field written holds the value masked to its width (rule R87). -/
theorem Injected.fieldValue_eq (h : Injected o n v m m') : fieldValue m' o n = v % 2 ^ n :=
  fieldValue_of_testBit fun i hi => by
    rw [h, injectedBit_of_mem (by omega) (by omega), shiftRight_and_one, Nat.add_sub_cancel_left]
end

/-- A legal INJECT in memory turns it into `Inject(M, o, n, v)`, in canonical form. -/
theorem exec_inject_injected (hwf : s.mem.wf = true) (hp : s.eng.phase = .idle)
    (hw : (Instr.inject o n v l).wellFormed = true) (hs : spanLast o.toNat n.toNat < s.mem.size) :
    ∃ t, exec (.inject o n v l) s = .next t ∧ t.mem.wf = true ∧ t.mem.size = s.mem.size ∧
      Injected o.toNat n.toNat v.toNat s.mem t.mem := by
  obtain ⟨t, he, htwf, hsize, hbits⟩ := exec_inject_bits hwf hp hw hs
  refine ⟨t, he, htwf, hsize, fun p => ?_⟩
  have hpos : 8 * (p / 8) + (7 - (7 - p % 8)) = p := by omega
  rw [bitAt_eq_testBit, hbits _ _ (by omega), hpos]
  by_cases hin : o.toNat ≤ p ∧ p < o.toNat + n.toNat
  · rw [if_pos hin, injectedBit_of_mem hin.1 hin.2, shiftRight_and_one]
  · rw [if_neg hin, injectedBit_of_not_mem (by omega), bitAt_eq_testBit]

/-- RESULT after an INJECT is 0, whether it completes or faults (rules R82 and R95). -/
theorem exec_inject_result (hp : s.eng.phase = .idle) (he : exec (.inject o n v l) s = .next t) :
    t.eng.result = 0 := by
  rcases exec_next hp he with ⟨-, rfl⟩ | ⟨-, u, rfl, hu⟩
  · rfl
  · have hop : u.eng.work.op = .inject := hu (·.eng.work.op = .inject)
      ⟨rfl, fun x y hx hc => by obtain ⟨-, rfl⟩ := injectRead_some hc; exact hx,
        fun x y hx hc => by obtain ⟨-, rfl⟩ := injectWrite_some hc; exact hx⟩
    rw [finish_result, hop]

/-- Settles O18: the field and every other bit from the closed form, the registers and the frame from `exec_frame`. -/
theorem injectCompletesWithTheField : Obligations.InjectCompletesWithTheField := by
  unfold Obligations.InjectCompletesWithTheField
  intro s o n v l hwf hp hw hs
  obtain ⟨t, he, -, hsize, hinj⟩ := exec_inject_injected hwf hp hw hs
  have hc : (Instr.inject o n v l).operandCode = .ok := (wellFormed_iff _).mp hw
  obtain ⟨hb, ha, hin, -, hport, hphase, hrsp, hcode, herr, -⟩ := exec_frame hp he
  have hresult := exec_inject_result hp he
  rw [hc] at hrsp hcode herr
  rw [hresult] at hrsp
  refine ⟨t, he, hphase, hresult, hcode, herr.trans (errAfter_ok _), hrsp, hport, fun p hlo hhi => ?_, fun p hout => ?_,
    fun i hi => read_eq_of_bitAt fun p hpi => ?_, hsize, hb, ha, hin⟩
  · rw [hinj p, injectedBit_of_mem hlo hhi]
  · rw [hinj p, injectedBit_of_not_mem hout]
  · rw [hinj p, injectedBit_of_not_mem (by unfold spanFirst spanLast at hi; omega)]

/-! ## VALUE above COUNT (rule R83) -/

/-- Settles O19: a legal command runs on the masked VALUE, a faulting one or a busy engine on none. -/
theorem injectUsesOnlyTheLowValueBits : Obligations.InjectUsesOnlyTheLowValueBits := by
  unfold Obligations.InjectUsesOnlyTheLowValueBits
  intro s o n v v' l hv
  by_cases hp : s.eng.phase = .idle
  · by_cases hc : operandCode o n l = .ok
    · obtain ⟨-, hn, -⟩ := (operandCode_eq_ok_iff o n l).mp hc
      have hmasked : maskedValue v n = maskedValue v' n :=
        BitVec.eq_of_toNat_eq (by rw [maskedValue_toNat v n hn, maskedValue_toNat v' n hn, hv])
      rw [exec_inject_of_ok hp hc, exec_inject_of_ok hp hc, startInject, startInject, hmasked]
    · rw [exec_of_fault (i := .inject o n v l) hp hc, exec_of_fault (i := .inject o n v' l) hp hc]
      rfl
  · rw [exec_of_busy hp, exec_of_busy hp]

/-! ## Reading and writing one field (rules R86 and R87) -/

/-- Settles O20: what the EXTRACT returned are the bits the field has, so the INJECT writes them as they were. -/
theorem readThenWriteBackLeavesMemory : Obligations.ReadThenWriteBackLeavesMemory := by
  unfold Obligations.ReadThenWriteBackLeavesMemory
  intro s o n l hwf hp hw hs
  obtain ⟨t, het, hresult, hmem⟩ := exec_extract_fieldValue hp hw hs
  have hmem' : (deliver t).mem = s.mem := hmem
  obtain ⟨u, heu, huwf, husize, hinj⟩ := exec_inject_injected (s := deliver t) (v := t.eng.result) (hmem' ▸ hwf) rfl hw
    (hmem' ▸ hs)
  have hc : (Instr.inject o n t.eng.result l).operandCode = .ok := (wellFormed_iff _).mp hw
  obtain ⟨-, -, -, -, -, hphase, hrsp, -⟩ := exec_frame (s := deliver t) rfl heu
  rw [hmem', hresult] at hinj
  exact ⟨t, u, het, heu, hphase, by rw [hrsp, hc]; rfl,
    Memory.ext_bitAt hwf huwf (husize.trans (congrArg _ hmem')) hinj.of_fieldValue⟩

/-- Settles O21: the EXTRACT returns the field of the memory that the INJECT made. -/
theorem writeThenReadReturnsTheMaskedValue : Obligations.WriteThenReadReturnsTheMaskedValue := by
  unfold Obligations.WriteThenReadReturnsTheMaskedValue
  intro s o n v l hwf hp hw hs
  obtain ⟨t, het, -, hsize, hinj⟩ := exec_inject_injected hwf hp hw hs
  obtain ⟨u, heu, -, hresult, -, -, hrsp, -⟩ := extractCompletesWithTheField (deliver t) o n l rfl hw (hsize ▸ hs)
  exact ⟨t, u, het, heu, by rw [hrsp], by rw [hresult, deliver_mem, hinj.fieldValue_eq]⟩

/-! ## Fields packed one after another (rule R88) -/

/-- A field, as the OFFSET, the COUNT and the VALUE of its INJECT. -/
abbrev PackedField := Word × Count × Word

/-- The INJECT of a field into a buffer of `l` bytes. -/
abbrev PackedField.inject (l : Word) (f : PackedField) : Instr := .inject f.1 f.2.1 f.2.2 l

/-- The EXTRACT of a field from a buffer of `l` bytes. -/
abbrev PackedField.extract (l : Word) (f : PackedField) : Instr := .extract f.1 f.2.1 l

/-- The field is legal in a buffer of `l` bytes, and its span lies in a memory of `size` bytes. -/
abbrev PackedField.Fits (l : Word) (size : Nat) (f : PackedField) : Prop :=
  (f.inject l).wellFormed = true ∧ spanLast f.1.toNat f.2.1.toNat < size

/-- The two fields have no bit in common (they may have a byte). -/
abbrev PackedField.Disjoint (f g : PackedField) : Prop :=
  f.1.toNat + f.2.1.toNat ≤ g.1.toNat ∨ g.1.toNat + g.2.1.toNat ≤ f.1.toNat

/-- The field read from memory is its value, masked to its width. -/
abbrev PackedField.StoredIn (m : Memory) (f : PackedField) : Prop :=
  fieldValue m f.1.toNat f.2.1.toNat = f.2.2.toNat % 2 ^ f.2.1.toNat

theorem serve_cons {i : Instr} {rest : List Instr} (h : exec i s = .next t) :
    serve (i :: rest) s = serve rest (deliver t) := by
  simp only [serve, h]

/-- INJECTs of fields that are disjoint complete: every field is stored, and each bit outside them all is as before. -/
theorem serve_injects (fields : List PackedField) (hwf : s.mem.wf = true) (hp : s.eng.phase = .idle)
    (hfit : ∀ f ∈ fields, f.Fits l s.mem.size) (hdisj : fields.Pairwise PackedField.Disjoint) :
    ∃ t, serve (fields.map (PackedField.inject l)) s = .next t ∧ t.eng.phase = .idle ∧ t.mem.size = s.mem.size ∧
      (∀ f ∈ fields, f.StoredIn t.mem) ∧
      ∀ p, (∀ f ∈ fields, p < f.1.toNat ∨ f.1.toNat + f.2.1.toNat ≤ p) → bitAt t.mem p = bitAt s.mem p := by
  induction fields generalizing s with
  | nil => exact ⟨s, rfl, hp, rfl, nofun, fun _ _ => rfl⟩
  | cons f fields ih =>
    rw [List.forall_mem_cons] at hfit
    obtain ⟨⟨hw, hs⟩, hfits⟩ := hfit
    obtain ⟨hhead, htail⟩ := List.pairwise_cons.mp hdisj
    obtain ⟨u, he, huwf, husize, hinj⟩ := exec_inject_injected hwf hp hw hs
    obtain ⟨t, hserve, htp, hsize, hstored, hother⟩ := ih (s := deliver u) huwf rfl
      (by rwa [deliver_mem, husize]) htail
    refine ⟨t, (serve_cons he).trans hserve, htp, hsize.trans husize, List.forall_mem_cons.mpr ⟨?_, hstored⟩,
      fun p hout => ?_⟩
    · calc fieldValue t.mem f.1.toNat f.2.1.toNat
        _ = fieldValue u.mem f.1.toNat f.2.1.toNat := fieldValue_congr_bitAt fun p hlo hhi =>
            hother p fun g hg => by have := hhead g hg; omega
        _ = f.2.2.toNat % 2 ^ f.2.1.toNat := hinj.fieldValue_eq
    · rw [List.forall_mem_cons] at hout
      calc bitAt t.mem p
        _ = bitAt u.mem p := hother p hout.2
        _ = bitAt s.mem p := by rw [hinj p, injectedBit_of_not_mem hout.1]

/-- EXTRACTs of legal fields complete and leave the memory alone (rule R79). -/
theorem serve_extracts (reads : List PackedField) (hp : s.eng.phase = .idle)
    (hfit : ∀ f ∈ reads, f.Fits l s.mem.size) :
    ∃ t, serve (reads.map (PackedField.extract l)) s = .next t ∧ t.eng.phase = .idle ∧ t.mem = s.mem := by
  induction reads generalizing s with
  | nil => exact ⟨s, rfl, hp, rfl⟩
  | cons f reads ih =>
    rw [List.forall_mem_cons] at hfit
    obtain ⟨⟨hw, hs⟩, hfits⟩ := hfit
    obtain ⟨u, he, -, hmem⟩ := exec_extract_fieldValue (o := f.1) (n := f.2.1) hp hw hs
    obtain ⟨t, hserve, htp, htmem⟩ := ih (s := deliver u) rfl (by rwa [deliver_mem, hmem])
    exact ⟨t, (serve_cons he).trans hserve, htp, htmem.trans hmem⟩

/-- Settles O22, by induction on the fields: the later INJECTs leave every bit of the field written before them. -/
theorem packedFieldsReadBack : Obligations.PackedFieldsReadBack := by
  unfold Obligations.PackedFieldsReadBack
  intro s l fields reads hwf hp hfit hdisj hreads
  obtain ⟨t, hinjects, htp, hsize, hstored, -⟩ := serve_injects fields hwf hp hfit hdisj
  rw [← hsize] at hfit
  obtain ⟨u, hextracts, hup, hmem⟩ := serve_extracts reads htp fun f hf => hfit f (hreads f hf)
  refine ⟨t, u, hinjects, hextracts, fun f hf => ?_⟩
  obtain ⟨hw, hs⟩ := hfit f hf
  obtain ⟨x, he, -, hresult, -, -, hrsp, -⟩ := extractCompletesWithTheField u f.1 f.2.1 l hup hw (hmem ▸ hs)
  exact ⟨x, he, by rw [hrsp], by rw [hresult, hmem]; exact hstored f hf⟩

end Sys2Proof.Machine
end

section
/-! PROOFS. INJECT chunk by chunk: the exact next state of its READ and of its WRITE step (O32). -/

namespace Sys2Proof.Machine

/-- The byte INJECT writes back, as arithmetic (rule R82). -/
theorem mergedByte_eq (pos rem : Nat) (v : Word) (b : Byte) :
    mergedByte pos rem v b =
      (b &&& ~~~ (BitVec.ofNat 8 ((2 ^ chunkSize pos rem - 1) * 2 ^ chunkShift pos rem) : Byte)) |||
        BitVec.ofNat 8 (v.toNat / 2 ^ (rem - chunkSize pos rem) % 2 ^ chunkSize pos rem * 2 ^ chunkShift pos rem) := by
  rw [mergedByte, chunkMask, mask, chunkOfValue_eq, Nat.shiftLeft_eq, Nat.shiftLeft_eq]

/-- Settles O32: each of the two is the chunk step that `step` names, its byte written as arithmetic. -/
theorem injectChunkIsAReadAndAWrite : Obligations.InjectChunkIsAReadAndAWrite := by
  unfold Obligations.InjectChunkIsAReadAndAWrite
  intro s rest hin hp hop hrem
  have hread (hst : s.eng.work.step = .read) : step s = orStuck (injectRead { s with inputs := rest }) :=
    (step_move_self hin).trans (moveEngine_injectRead (s := { s with inputs := rest }) hp hrem hop hst)
  have hwrite (hst : s.eng.work.step = .write) : step s = orStuck (injectWrite { s with inputs := rest }) :=
    (step_move_self hin).trans (moveEngine_injectWrite (s := { s with inputs := rest }) hp hrem hop hst)
  refine ⟨fun hst hidx => ?_, fun hst hidx => ?_, fun hst hidx => ?_⟩
  · rw [hread hst, injectRead_of_lt (s := { s with inputs := rest }) hidx]
    rfl
  · rw [hread hst, injectRead_of_ge (s := { s with inputs := rest }) hidx]
    rfl
  · rw [hwrite hst, injectWrite_of_lt (s := { s with inputs := rest }) hidx, mergedByte_eq]
    rfl

end Sys2Proof.Machine
end

section
/-! PROOFS. INJECT with other agents on its memory (O48): the invariant of the engine that runs it says which bits of
the field it has written by now; each event keeps it while no other agent writes in the span. -/

namespace Sys2Proof.Machine

variable {m now now' : Memory} {s t : State} {n : Nat} {cmd : CmdWord} {o v l : Word} {c : Count} {a : Engine}

/-! ## The bits of the span, chunk by chunk -/

/-- Writing back the merged byte makes the bits of the chunk those of the value, and no other (rule R82). -/
theorem bitAt_write_mergedByte (hwf : m.wf = true) (pos rem : Nat) (x : Word) (p : Nat) :
    bitAt (m.write (chunkIdx pos) (mergedByte pos rem x (m.read (chunkIdx pos)))) p =
      injectedBit m pos rem x.toNat (chunkSize pos rem) p := by
  have hk := chunkSize_le_rem pos rem
  have hsh : chunkShift pos rem + chunkSize pos rem = 8 - pos % 8 := chunkShift_add_size pos rem
  have hidx : chunkIdx pos = pos / 8 := rfl
  rw [bitAt_eq_testBit, Memory.read_write hwf]
  by_cases hin : pos ≤ p ∧ p < pos + chunkSize pos rem
  · rw [if_pos (by omega), mergedByte_getLsbD _ _ _ _ _ (by omega), if_pos (by omega),
      injectedBit_of_mem hin.1 hin.2, shiftRight_and_one]
    congr 2
    omega
  · rw [injectedBit_of_not_mem (by omega), bitAt_eq_testBit]
    by_cases hp : chunkIdx pos = p / 8
    · rw [if_pos hp, mergedByte_getLsbD _ _ _ _ _ (by omega), if_neg (by omega), hp]
    · rw [if_neg hp]

/-- In the bytes of the span, `now` is the memory `m` with the first `j` bits of the field made those of `v`. -/
abbrev InjectedInSpan (o n v j : Nat) (m now : Memory) : Prop :=
  ∀ p, spanFirst o ≤ p / 8 → p / 8 ≤ spanLast o n → bitAt now p = injectedBit m o n v j p

/-- The next `k` bits of the field, after its first `j` (rule R71). -/
theorem injectedBit_add {o n v j k p : Nat} (hjk : j + k ≤ n) (hj : bitAt now p = injectedBit m o n v j p) :
    injectedBit now (o + j) (n - j) (v % 2 ^ n) k p = injectedBit m o n v (j + k) p := by
  by_cases hin : o + j ≤ p ∧ p < o + j + k
  · rw [injectedBit_of_mem hin.1 hin.2, injectedBit_of_mem (by omega) (by omega), shiftRight_and_one,
      shiftRight_and_one, Nat.testBit_mod_two_pow, decide_eq_true (by omega), Bool.true_and,
      show n - j - 1 - (p - (o + j)) = n - 1 - (p - o) by omega]
  · rw [injectedBit_of_not_mem (by omega), hj]
    by_cases hfirst : o ≤ p ∧ p < o + j
    · rw [injectedBit_of_mem hfirst.1 hfirst.2, injectedBit_of_mem (by omega) (by omega)]
    · rw [injectedBit_of_not_mem (by omega), injectedBit_of_not_mem (by omega)]

/-- What other agents do outside the span does not matter to it. -/
theorem InjectedInSpan.congr {o n v j : Nat} (h : InjectedInSpan o n v j m now) (hsame : SameInSpan o n now now') :
    InjectedInSpan o n v j m now' :=
  fun p hlo hhi => (bitAt_congr (hsame _ hlo hhi)).trans (h p hlo hhi)

/-- A whole INJECT on a span that is as at the start writes the whole field (rule R84). -/
theorem Injected.inSpan {o n v : Nat} (h : Injected o n v now now') (h0 : InjectedInSpan o n v 0 m now) :
    InjectedInSpan o n v n m now' := by
  intro p hlo hhi
  rw [h p]
  by_cases hin : o ≤ p ∧ p < o + n
  · rw [injectedBit_of_mem hin.1 hin.2, injectedBit_of_mem hin.1 hin.2]
  · rw [injectedBit_of_not_mem (by omega), injectedBit_of_not_mem (by omega), h0 p hlo hhi,
      injectedBit_of_not_mem (by omega)]

/-! ## The invariant of the engine -/

/-- The working registers of an INJECT of `v` to the field `[o, o + c)`: the bits before `pos` are written, and a byte
that waits to be written is the one now in memory. -/
abbrev Work.WritesField (m now : Memory) (o c v : Nat) (w : Work) : Prop :=
  w.op = .inject ∧ w.val.toNat = v % 2 ^ c ∧ (w.step = .write → w.rem ≠ 0 ∧ w.byte = now.read w.idx) ∧
    ∃ j, w.pos.toNat = o + j ∧ j + w.rem.toNat = c ∧ InjectedInSpan o c v j m now

/-- The engine has the word `cmd` next on its port, or runs the INJECT of `v` to the field `[o, o + c)`, or holds its
response; `m` is the memory at the start. -/
abbrev Engine.Injecting (m now : Memory) (cmd : CmdWord) (o c v : Nat) (e : Engine) : Prop :=
  (e.phase = .idle ∧ (∃ ws, e.port = cmd :: ws) ∧ InjectedInSpan o c v 0 m now) ∨
  (e.phase = .run ∧ e.work.WritesField m now o c v) ∨
  (e.phase = .resp ∧ e.rsp = { code := 0, result := 0 } ∧ InjectedInSpan o c v c m now)

/-- ACCEPT starts with no bits written (rule R67). -/
theorem startInject_writesField (hc : operandCode o c l = .ok)
    (h : InjectedInSpan o.toNat c.toNat v.toNat 0 m now) (s : State) :
    (startInject o c v l s).eng.work.WritesField m now o.toNat c.toNat v.toNat := by
  obtain ⟨-, hc32, -⟩ := (operandCode_eq_ok_iff o c l).mp hc
  exact ⟨rfl, maskedValue_toNat v c hc32, nofun, 0, (startRun_field .inject _ hc s).1, Nat.zero_add _, h⟩

section
variable {o c v : Nat}

/-- READ keeps the byte as it is in memory (rule R89). -/
theorem injectRead_writesField (hrem : s.eng.work.rem ≠ 0) (hr : injectRead s = some t)
    (h : s.eng.work.WritesField m s.mem o c v) : t.eng.work.WritesField m t.mem o c v := by
  obtain ⟨-, rfl⟩ := injectRead_some hr
  obtain ⟨hop, hval, -, hwritten⟩ := h
  exact ⟨hop, hval, fun _ => ⟨hrem, rfl⟩, hwritten⟩

/-- WRITE adds the bits of the chunk to those written, since the byte kept is still the one in memory (rule R89). -/
theorem injectWrite_writesField (hwf : s.mem.wf = true) (hfield : o + c ≤ 2 ^ 32 - 1 + 32)
    (hst : s.eng.work.step = .write) (hw : injectWrite s = some t) (h : s.eng.work.WritesField m s.mem o c v) :
    t.eng.work.WritesField m t.mem o c v := by
  obtain ⟨-, rfl⟩ := injectWrite_some hw
  obtain ⟨hop, hval, hbyte, j, hpos, hend, hwritten⟩ := h
  obtain ⟨-, hbyte⟩ := hbyte hst
  have hk := chunkSize_le_rem s.eng.work.pos.toNat s.eng.work.rem.toNat
  have hrem := advance_rem_toNat s.eng.work
  have hrest : s.eng.work.rem.toNat = c - j := by omega
  refine ⟨hop, hval, nofun, j + chunkSize s.eng.work.pos.toNat s.eng.work.rem.toNat, ?_, ?_, fun p hlo hhi => ?_⟩
  · rw [← Nat.add_assoc, ← hpos]
    exact advance_pos_toNat (by omega)
  · show j + _ + s.eng.work.advance.rem.toNat = c
    omega
  · calc bitAt (s.mem.write s.eng.work.idx
          (mergedByte s.eng.work.pos.toNat s.eng.work.rem.toNat s.eng.work.val s.eng.work.byte)) p
      _ = injectedBit s.mem s.eng.work.pos.toNat s.eng.work.rem.toNat s.eng.work.val.toNat
            (chunkSize s.eng.work.pos.toNat s.eng.work.rem.toNat) p := by
          rw [hbyte]; exact bitAt_write_mergedByte hwf ..
      _ = injectedBit s.mem (o + j) (c - j) (v % 2 ^ c)
            (chunkSize s.eng.work.pos.toNat s.eng.work.rem.toNat) p := by
          rw [← hpos, ← hrest, ← hval]
      _ = injectedBit m o c v (j + chunkSize s.eng.work.pos.toNat s.eng.work.rem.toNat) p :=
          injectedBit_add (by omega) (hwritten p hlo hhi)

/-- FINISH answers with code 0 and RESULT 0, all bits of the field written (rule R68). -/
theorem finish_injecting (h : s.eng.work.WritesField m s.mem o c v) (hrem : s.eng.work.rem = 0) :
    (finish s).eng.Injecting m (finish s).mem cmd o c v := by
  obtain ⟨hop, -, -, j, -, hend, hwritten⟩ := h
  have hj : j = c := by simpa [hrem] using hend
  refine .inr (.inr ⟨rfl, ?_, hj ▸ hwritten⟩)
  rw [finish_rsp, finish_result, hop]

/-- The byte that waits to be written lies in the span, so the engine sees nothing of what others do outside it. -/
theorem Engine.Injecting.congr (h : a.Injecting m now cmd o c v) (hsame : SameInSpan o c now now') :
    a.Injecting m now' cmd o c v := by
  rcases h with ⟨hp, hport, h0⟩ | ⟨hp, hop, hval, hbyte, j, hpos, hend, hwritten⟩ | ⟨hp, hrsp, hall⟩
  · exact .inl ⟨hp, hport, h0.congr hsame⟩
  · refine .inr (.inl ⟨hp, hop, hval, fun hst => ?_, j, hpos, hend, hwritten.congr hsame⟩)
    obtain ⟨hrem, hbyte⟩ := hbyte hst
    have hrem1 := rem_toNat_pos hrem
    refine ⟨hrem, hbyte.trans (hsame _ ?_ ?_).symm⟩
    · unfold spanFirst Work.idx chunkIdx; omega
    · unfold spanLast Work.idx chunkIdx; omega
  · exact .inr (.inr ⟨hp, hrsp, hall.congr hsame⟩)

end

/-! ## The events of the engine -/

/-- A move of an INJECT in RUN is FINISH, READ or WRITE. -/
theorem moveEngine_inject_next (hp : s.eng.phase = .run) (hop : s.eng.work.op = .inject)
    (hm : moveEngine s = .next t) :
    (s.eng.work.rem = 0 ∧ t = finish s) ∨
    (s.eng.work.rem ≠ 0 ∧ s.eng.work.step = .read ∧ injectRead s = some t) ∨
    (s.eng.work.rem ≠ 0 ∧ s.eng.work.step = .write ∧ injectWrite s = some t) := by
  rcases moveEngine_next hm with ⟨-, ⟨hp', -⟩ | hp'⟩ | ⟨-, -, hp', -⟩ | ⟨-, hrem, ht⟩ | ⟨-, hrem, hchunk⟩
  · cases hp.symm.trans hp'
  · cases hp.symm.trans hp'
  · cases hp.symm.trans hp'
  · exact .inl ⟨hrem, ht⟩
  · rcases hchunk with ⟨hop', -⟩ | ⟨-, hread⟩ | ⟨-, hwrite⟩
    · cases hop.symm.trans hop'
    · exact .inr (.inl ⟨hrem, hread⟩)
    · exact .inr (.inr ⟨hrem, hwrite⟩)

theorem Engine.Injecting.move (hwf : s.mem.wf = true) (hd : decode cmd = .ok (.inject o c v l))
    (h : s.eng.Injecting m s.mem cmd o.toNat c.toNat v.toNat) (hm : moveEngine s = .next t) :
    t.eng.Injecting m t.mem cmd o.toNat c.toNat v.toNat := by
  have hc : operandCode o c l = .ok := (decode_ok hd).2
  rcases h with ⟨hp, ⟨ws, hport⟩, h0⟩ | ⟨hp, hw⟩ | hresp
  · rw [moveEngine_of_idle hp hport, accept_inject hd] at hm
    injection hm with hm
    exact hm ▸ .inr (.inl ⟨rfl, startInject_writesField hc h0 _⟩)
  · rcases moveEngine_inject_next hp hw.1 hm with ⟨hrem, rfl⟩ | ⟨hrem, -, hread⟩ | ⟨-, hst, hwrite⟩
    · exact finish_injecting hw hrem
    · refine .inr (.inl ⟨?_, injectRead_writesField hrem hread hw⟩)
      exact (injectRead_frame hread).1.phase.trans hp
    · obtain ⟨-, -, hfield⟩ := startRun_field .inject 0 hc s
      refine .inr (.inl ⟨?_, injectWrite_writesField hwf hfield hst hwrite hw⟩)
      exact (injectWrite_frame hwrite).phase.trans hp
  · rw [moveEngine_of_resp hresp.1] at hm
    injection hm with hm
    exact hm ▸ .inr (.inr hresp)

/-- A legal INJECT that answers at all had its span in memory (rule R43), and has written its field (rule R84). -/
theorem exec_inject_next (hwf : s.mem.wf = true) (hp : s.eng.phase = .idle)
    (hc : (Instr.inject o c v l).operandCode = .ok) (he : exec (.inject o c v l) s = .next t) :
    Injected o.toNat c.toNat v.toNat s.mem t.mem := by
  have hw : (Instr.inject o c v l).wellFormed = true := (wellFormed_iff _).mpr hc
  by_cases hs : spanLast o.toNat c.toNat < s.mem.size
  · obtain ⟨t', he', -, -, hinj⟩ := exec_inject_injected hwf hp hw hs
    rw [he] at he'
    injection he' with he'
    exact he' ▸ hinj
  · obtain ⟨-, hstuck, -⟩ := engineIsStuckBeyondMemory
    have hfault := hstuck s o c v l hp hw (Nat.le_of_not_lt hs)
    rw [he] at hfault
    cases hfault

/-- The whole command writes the field at once (rules R76 and R84). -/
theorem Engine.Injecting.command (hwf : s.mem.wf = true) (hd : decode cmd = .ok (.inject o c v l))
    (h : s.eng.Injecting m s.mem cmd o.toNat c.toNat v.toNat) (hm : runCommand s = .next t) :
    t.eng.Injecting m t.mem cmd o.toNat c.toNat v.toNat := by
  rcases id h with ⟨hp, ⟨ws, hport⟩, h0⟩ | ⟨hp, -⟩ | ⟨hp, -⟩
  · obtain ⟨hw, hc⟩ := decode_ok hd
    have hp' : (takeWord cmd ws s).eng.phase = .idle := hp
    rw [runCommand_of_decodeWord hp hport hw] at hm
    obtain ⟨-, -, -, -, -, hphase, hrsp, -⟩ := exec_frame hp' hm
    refine .inr (.inr ⟨hphase, ?_, (exec_inject_next (s := takeWord cmd ws s) hwf hp hc hm).inSpan h0⟩)
    rw [hrsp, hc, exec_inject_result hp' hm]
    rfl
  · exact h.move hwf hd (runCommand_of_run hp ▸ hm)
  · rw [runCommand_of_resp hp] at hm
    injection hm with hm
    exact hm ▸ h

/-- Every event of the engine keeps the invariant, its reset and the taking of its response being shut out. -/
theorem EngineEvent.injecting {ev : Event} {lo hi : Nat} (hev : EngineEvent ev n s t) (hn : s.self = n)
    (hwf : s.mem.wf = true) (hd : decode cmd = .ok (.inject o c v l))
    (hex : exclusive n lo hi (since s t) = true)
    (h : s.eng.Injecting m s.mem cmd o.toNat c.toNat v.toNat) :
    t.eng.Injecting m t.mem cmd o.toNat c.toNat v.toNat := by
  subst hn
  rcases hev with ⟨w, -, rfl⟩ | ⟨-, hc⟩ | ⟨-, hm⟩ | ⟨-, rfl⟩ | ⟨-, rfl⟩ | ⟨-, rfl⟩ | ⟨-, rfl⟩
  · rcases h with ⟨hp, ⟨ws, hport⟩, h0⟩ | hrun | hresp
    · exact .inl ⟨hp, ⟨ws ++ [w], by rw [setEng_eng, hport, List.cons_append]⟩, h0⟩
    · exact .inr (.inl hrun)
    · exact .inr (.inr hresp)
  · exact h.command hwf hd hc
  · exact h.move hwf hd hm
  · rcases takeResponse_cases s with ⟨-, ht⟩ | ⟨-, ht⟩
    · exact absurd (mem_since_of_cons (by rw [ht, deliver_trace])) (response_not_mem_of_exclusive hex _)
    · rw [ht]; exact h
  · exact h
  · exact h
  · exact absurd (mem_since_of_cons (resetEngine_trace ..)) (reset_not_mem_of_exclusive hex)

/-! ## The run -/

/-- A step keeps memory in canonical form, whatever the engines' registers are. -/
theorem step_mem_wf (h : s.mem.wf = true) (hs : step s = .next t) : t.mem.wf = true := by
  cases hin : s.inputs with
  | nil => rw [step_nil hin] at hs; injection hs with hs; exact hs ▸ h
  | cons ev rest =>
    rw [step_cons hin] at hs
    rcases perform_next hs with ⟨k, u, hf, hev⟩ | ⟨i, -, -, rfl⟩ | ⟨i, x, -, hi, rfl⟩
    · obtain ⟨-, -, -, hmem, -⟩ := focus_eq_some hf
      exact EngineEvent.mem_wf hev (hmem ▸ h)
    · exact h
    · exact Memory.wf_write h hi x

/-- A step that is no event of engine `n` leaves each byte of the span that engine `n` has exclusive access to. -/
theorem step_keeps_span_of_other {ev : Event} {rest : List Event} {lo hi : Nat} (hin : s.inputs = ev :: rest)
    (hev : ev.engine? ≠ some n) (hs : step s = .next t) (hex : exclusive n lo hi (since s t) = true) {i : Nat}
    (hlo : lo ≤ i) (hhi : i ≤ hi) : t.mem.read i = s.mem.read i := by
  by_contra hne
  rcases memoryChangesOnlyByStores s t ev rest i hin hs hne with ⟨x, -, hx⟩ | ⟨k, b, x, -, hx, hstores⟩
  · cases storer_of_exclusive hex hx hlo hhi
  · cases storer_of_exclusive hex hx hlo hhi
    rcases hstores with ⟨-, -, -, -, rfl | rfl⟩ | ⟨-, rfl, -⟩ <;> exact hev rfl

/-- Memory is in canonical form and engine `n` meets the invariant. -/
abbrev State.Injecting (n : Nat) (m : Memory) (cmd : CmdWord) (o c v : Nat) (s : State) : Prop :=
  s.mem.wf = true ∧ ∃ a, s.engines[n]? = some a ∧ a.Injecting m s.mem cmd o c v

theorem step_injecting (hd : decode cmd = .ok (.inject o c v l))
    (h : s.Injecting n m cmd o.toNat c.toNat v.toNat) (hs : step s = .next t)
    (hex : exclusive n (spanFirst o.toNat) (spanLast o.toNat c.toNat) (since s t) = true) :
    t.Injecting n m cmd o.toNat c.toNat v.toNat := by
  obtain ⟨hwf, a, ha, hinj⟩ := h
  obtain ⟨b, hb⟩ := step_engine_exists hs ha
  refine ⟨step_mem_wf hwf hs, b, hb, ?_⟩
  cases hin : s.inputs with
  | nil =>
    rw [step_nil hin] at hs
    injection hs with hs
    subst hs
    cases ha.symm.trans hb
    exact hinj
  | cons ev rest =>
    rcases step_at_engine hin hs ha hb with ⟨hev, rfl⟩ | ⟨u, rfl, hn, rfl, -, hmem, htrace, -, -, hev⟩
    · exact hinj.congr fun i hlo hhi => step_keeps_span_of_other hin hev hs hex hlo hhi
    · have hsince : since u t = since s t := by rw [since, since, htrace]
      exact EngineEvent.injecting hev hn (hmem ▸ hwf) hd (hsince ▸ hex) (hmem ▸ hinj)

/-- Settles O48, by induction on the run: the engine is before, in, or past its INJECT, and of the span just the bits of
the field before `pos` have changed. -/
theorem interleavedInjectWritesTheField : Obligations.InterleavedInjectWritesTheField := by
  unfold Obligations.InterleavedInjectWritesTheField
  intro k s t n a b cmd ws o c v l hwf ha hp hport hd hsteps hex hb hresp
  obtain ⟨-, b', hb', hinj⟩ : t.Injecting n s.mem cmd o.toNat c.toNat v.toNat :=
    steps_keeps_of_exclusive (fun x y hx hxy => step_injecting hd hx hxy)
      ⟨hwf, a, ha, .inl ⟨hp, ⟨ws, hport⟩, fun p _ _ => (injectedBit_of_not_mem (by omega)).symm⟩⟩ hsteps hex
  cases hb.symm.trans hb'
  rcases hinj with ⟨hidle, -⟩ | ⟨hrun, -⟩ | ⟨-, hrsp, hall⟩
  · cases hresp.symm.trans hidle
  · cases hresp.symm.trans hrun
  · obtain ⟨hn, -, -⟩ := (operandCode_eq_ok_iff o c l).mp (decode_ok hd).2
    refine ⟨hrsp, fun p hlo hhi => ?_, fun p hbyte hout => ?_⟩
    · rw [hall p (by unfold spanFirst; omega) (by unfold spanLast; omega), injectedBit_of_mem hlo hhi]
    · have hspan : spanFirst o.toNat ≤ p / 8 ∧ p / 8 ≤ spanLast o.toNat c.toNat := by
        unfold spanFirst spanLast at *; omega
      rw [hall p hspan.1 hspan.2, injectedBit_of_not_mem hout]

end Sys2Proof.Machine
end

section
/-! PROOFS. Faults and waiting: ACCEPT of a faulting word (O7, O8), exec of illegal operands (O25), an engine with
nothing to do (O36), and the engines that an event is not about (O45). -/

namespace Sys2Proof.Machine

variable {s : State} {cmd : CmdWord} {ws : List CmdWord} {ev : Event} {rest : List Event}

/-! ## The first failing check is what the decode answers (rules R58 and R96) -/

/-- A word decodes to a command where no check fails, and to the code of the first failing check else. -/
theorem decode_by_firstFailing (cmd : CmdWord) :
    (firstFailing cmd.toNat = .ok ∧ ∃ i, decode cmd = .ok i) ∨
    (firstFailing cmd.toNat ≠ .ok ∧ decode cmd = .error (firstFailing cmd.toNat)) := by
  have hlen : cmd.toNat / 2 ^ 96 % 2 ^ 32 = cmd.toNat / 2 ^ 96 := Nat.mod_eq_of_lt (by omega)
  rw [decodeFollowsTheCheckOrder cmd, firstFailing, hlen]
  split_ifs with illegalOp rsvd badCount range extract
  · exact .inr ⟨by decide, rfl⟩
  · exact .inr ⟨by decide, rfl⟩
  · exact .inr ⟨by decide, rfl⟩
  · exact .inr ⟨by decide, rfl⟩
  · exact .inl ⟨rfl, _, rfl⟩
  · exact .inl ⟨rfl, _, rfl⟩

theorem decode_of_firstFailing (h : firstFailing cmd.toNat ≠ .ok) : decode cmd = .error (firstFailing cmd.toNat) := by
  obtain ⟨hok, -⟩ | ⟨-, hd⟩ := decode_by_firstFailing cmd
  · exact absurd hok h
  · exact hd

/-! ## Taking a fault (rule R95) -/

/-- A fault writes the response registers, LAST_CODE, RESULT and ERR of the engine in front, and nothing else. -/
theorem raiseFault_eq {c : Code} (hc : c ≠ .ok) (s : State) :
    raiseFault c s = { s with eng := { s.eng with
      phase := .resp, rsp := { code := codeBits c, result := 0 },
      lastCode := codeBits c, result := 0, err := true } } := by
  rw [raiseFault, enterResp, errAfter_of_ne_ok _ hc]
  rfl

/-- A faulting word is taken and answered with its code, by a move as by a whole command (rules R67 and R76). -/
theorem step_takes_fault (hin : s.inputs = ev :: rest) (hev : ev = .move s.self ∨ ev = .command s.self)
    (hp : s.eng.phase = .idle) (hport : s.eng.port = cmd :: ws) (hc : firstFailing cmd.toNat ≠ .ok) :
    step s = .next (raiseFault (firstFailing cmd.toNat) (takeWord cmd ws { s with inputs := rest })) := by
  have hd := decode_of_firstFailing hc
  rcases hev with rfl | rfl
  · rw [step_move_self hin, moveEngine_of_idle (s := { s with inputs := rest }) hp hport, accept_error hd]
  · rw [step_command_self hin, runCommand_of_decode_error (s := { s with inputs := rest }) hp hport hd]

/-- Settles O7: the step takes the word and its fault, which is exactly the register writes of rule R95. -/
theorem acceptTakesTheFirstFailingCheck : Obligations.AcceptTakesTheFirstFailingCheck := by
  unfold Obligations.AcceptTakesTheFirstFailingCheck
  refine ⟨fun s cmd ws ev rest hin hev hp hport hc => ?_, fun cmd hok => ?_⟩
  · rw [step_takes_fault hin hev hp hport hc, raiseFault_eq hc]
    rfl
  · obtain ⟨-, hi⟩ | ⟨hne, -⟩ := decode_by_firstFailing cmd
    · exact hi
    · exact absurd hok hne

/-- Settles O8: the fault, then DELIVER of its response, and the engine is IDLE as before any other word. -/
theorem faultIsPreciseAndEndsWithItsResponse : Obligations.FaultIsPreciseAndEndsWithItsResponse := by
  unfold Obligations.FaultIsPreciseAndEndsWithItsResponse
  intro s cmd ws ev rest hin hev hp hport hc
  have hfault := step_takes_fault hin hev hp hport hc
  generalize firstFailing cmd.toNat = c at hc hfault ⊢
  have herr : errAfter s.eng.err c = true := errAfter_of_ne_ok _ hc
  let t := raiseFault c (takeWord cmd ws { s with inputs := .take s.self :: rest })
  have hdeliver : step t = .next (deliver { t with inputs := rest }) := by
    rw [step_take_self rfl, takeResponse_of_resp rfl]
  have hword : (Rsp.word { code := codeBits c, result := 0 }).toNat = (codeBits c).toNat * 2 ^ 32 :=
    (responseWordHoldsResultAndCode _).trans (Nat.zero_add _)
  refine ⟨t, deliver { t with inputs := rest }, hfault, hdeliver, rfl, rfl, rfl, rfl, rfl, rfl, herr, rfl, rfl, rfl,
    ⟨_, hword, rfl⟩, rfl, rfl, rfl, rfl, rfl, rfl, rfl, rfl, herr, fun cmd' ws' hws => ?_⟩
  exact (step_move_self rfl).trans (moveEngine_of_idle rfl hws)

/-- BAD_COUNT is the code of the operand checks exactly where COUNT is out of range (rules R93 and R96). -/
theorem operandCode_eq_badCount_iff (o : Word) (n : Count) (l : Word) :
    operandCode o n l = .badCount ↔ n.toNat = 0 ∨ 32 < n.toNat := by
  rw [operandCode_eq_toNat]
  split
  · next hcount => exact iff_of_true rfl hcount
  · next hcount =>
    refine iff_of_false ?_ hcount
    split <;> decide

/-- Settles O25: exec raises the fault of the operand check, COUNT before RANGE, and by a busy engine does nothing. -/
theorem execFaultsOnIllegalOperandsAndWaitsWhenBusy : Obligations.ExecFaultsOnIllegalOperandsAndWaitsWhenBusy := by
  unfold Obligations.ExecFaultsOnIllegalOperandsAndWaitsWhenBusy
  refine ⟨fun s i hp hw => ?_, fun s i hp => exec_of_busy hp i⟩
  have hc : i.operandCode ≠ .ok := fun hok => absurd ((wellFormed_iff i).mpr hok) (by simp [hw])
  refine ⟨i.operandCode, (exec_of_fault hp hc).trans (congrArg _ (raiseFault_eq hc s)), ?_⟩
  cases i with
  | extract o n l => exact ⟨operandCode_ne_ok hc, operandCode_eq_badCount_iff o n l⟩
  | inject o n v l => exact ⟨operandCode_ne_ok hc, operandCode_eq_badCount_iff o n l⟩

/-! ## Waiting (rule R108) -/

/-- An IDLE engine that is offered nothing waits, told to move or to run a command. -/
theorem moveEngine_of_no_offer (hp : s.eng.phase = .idle) (hport : s.eng.port = []) : moveEngine s = .next s := by
  simp only [moveEngine, hp, hport]

theorem runCommand_of_no_offer (hp : s.eng.phase = .idle) (hport : s.eng.port = []) : runCommand s = .next s := by
  simp only [runCommand, hp, hport, moveEngine_of_no_offer]

/-- ACCEPT leaves IDLE, for RUN or for RESP (rule R67). -/
theorem accept_phase_ne_idle (cmd : CmdWord) (s : State) : (accept cmd s).eng.phase ≠ .idle := by
  unfold accept
  split <;> exact Phase.noConfusion

/-- An offer to the engine in front puts the word behind those already on its port (log entry 10). -/
theorem step_offer_self (h : s.inputs = .offer s.self cmd :: rest) :
    step s = .next { s with inputs := rest, eng := { s.eng with port := s.eng.port ++ [cmd] } } := by
  rw [step_cons h]; exact atEngine_self { s with inputs := rest } _

/-- Settles O36: with nothing to do the step is the identity, and a word offered is accepted by the next move. -/
theorem waitingLosesNoState : Obligations.WaitingLosesNoState := by
  unfold Obligations.WaitingLosesNoState
  refine ⟨fun s ev rest hin hev hp hport => ?_, fun s cmd rest hin hp hport => ?_, fun s hin => step_nil hin⟩
  · rcases hev with rfl | rfl
    · exact (step_move_self hin).trans (moveEngine_of_no_offer (s := { s with inputs := rest }) hp hport)
    · exact (step_command_self hin).trans (runCommand_of_no_offer (s := { s with inputs := rest }) hp hport)
  · have hmove := moveEngine_of_idle (ws := [])
      (s := { s with inputs := rest, eng := { s.eng with port := s.eng.port ++ [cmd] } }) hp
      (congrArg (· ++ [cmd]) hport)
    exact ⟨_, steps_two_add 0 (step_offer_self hin) ((step_move_self rfl).trans hmove), accept_phase_ne_idle _ _⟩

/-- Settles O45: an event of an engine changes that engine only, brought to the front for it, and an access of another
agent changes none. -/
theorem stepTouchesOnlyTheNamedEngine : Obligations.StepTouchesOnlyTheNamedEngine := by
  unfold Obligations.StepTouchesOnlyTheNamedEngine
  intro s t ev rest hin hs
  have hlength := step_engines_length hs
  rw [step_cons hin] at hs
  rcases perform_next hs with ⟨n, u, hf, hev⟩ | ⟨i, -, -, rfl⟩ | ⟨i, v, -, -, rfl⟩
  · obtain ⟨hengines, hn, -, hmem, hinputs, -⟩ := focus_eq_some hf
    obtain ⟨hb, ha, hinputs', hsize, hname⟩ := EngineEvent.frame hev
    refine ⟨hlength, hsize.trans (congrArg Memory.size hmem), hinputs'.trans hinputs, fun m hm => ?_⟩
    have hmn : m ≠ u.self := fun h => hm (by rw [hname, h, hn])
    rw [engines_of_frame hb ha, if_neg hmn, hengines]
    rfl
  · exact ⟨hlength, rfl, rfl, fun _ _ => rfl⟩
  · exact ⟨hlength, rfl, rfl, fun _ _ => rfl⟩

end Sys2Proof.Machine
end

section
/-! PROOFS. A running engine reaches its response in a bounded number of its own moves (O38; rule R122): the closed
forms of the chunk loops as moves, from the start of a chunk and from the WRITE step of one. -/

namespace Sys2Proof.Machine

variable {s t : State}

/-! ## The bytes that remain -/

/-- The bytes of the rest of the field are in a memory of that size (the host's duty of rule R119). -/
abbrev Work.SpanIn (size : Nat) (w : Work) : Prop := w.rem = 0 ∨ spanLast w.pos.toNat w.rem.toNat < size

/-- The chunk that takes all the bits that remain leaves none (rule R71). -/
theorem Work.advance_rem_of_last {w : Work} (h : ¬ chunkSize w.pos.toNat w.rem.toNat < w.rem.toNat) :
    w.advance.rem = 0 :=
  BitVec.eq_of_toNat_eq ((advance_rem_toNat w).trans (Nat.sub_eq_zero_of_le (Nat.le_of_not_lt h)))

/-- After a chunk the rest of the field is in memory if it was before (rules R71 and R74). -/
theorem Work.SpanIn.advance {size : Nat} {w : Work} (h : w.SpanIn size) (hrem : w.rem ≠ 0)
    (hend : w.pos.toNat + w.rem.toNat ≤ 2 ^ 32 - 1 + 32) : w.advance.SpanIn size := by
  obtain ⟨-, -, hlast⟩ := chunksLeft_step (pos := w.pos.toNat) (rem_toNat_pos hrem)
  by_cases hmore : chunkSize w.pos.toNat w.rem.toNat < w.rem.toNat
  · right
    rw [advance_rem_toNat, advance_pos_toNat hend, hlast hmore]
    exact h.resolve_left hrem
  · exact .inl (Work.advance_rem_of_last hmore)

/-- At most 5 chunks remain of a field of at most 32 bits (rule R73). -/
theorem Work.chunks_le_five {w : Work} (h : w.rem.toNat ≤ 32) : w.chunks ≤ 5 := by
  have hle := chunkCount_le w.pos.toNat w.rem.toNat
  unfold Work.chunks chunksLeft
  split <;> omega

/-! ## To the response -/

/-- Told to make this many moves and no other event to come, the engine in front completes them and is in RESP. -/
abbrev RespondsAfter (k : Nat) (s : State) : Prop :=
  ∃ t, steps k (s.withMoves k) = .next t ∧ t.eng.phase = .resp

theorem extract_respondsAfter (h : s.BetweenChunks .extract) (hinv : s.eng.work.Inv s.mem.size)
    (hspan : s.eng.work.SpanIn s.mem.size) : RespondsAfter (s.eng.work.chunks + 1) s := by
  obtain ⟨hrem, -, hend, hacc, -⟩ := hinv
  obtain ⟨w, hloop, -⟩ := extractLoop_completes s.eng.work.rem.toNat s le_rfl hrem hend hacc hspan
  exact ⟨_, by rw [steps_extract _ s h le_rfl, hloop, afterLoop], rfl⟩

theorem inject_respondsAfter (h : s.BetweenChunks .inject) (hwf : s.mem.wf = true)
    (hspan : s.eng.work.SpanIn s.mem.size) : RespondsAfter (2 * s.eng.work.chunks + 1) s := by
  obtain ⟨-, -, -, hend⟩ := id h
  obtain ⟨w, m, hloop, -⟩ := injectLoop_completes s.eng.work.rem.toNat s hwf le_rfl hend hspan
  exact ⟨_, by rw [steps_inject _ s h le_rfl, hloop, afterLoop], rfl⟩

/-- The state after the WRITE step of an INJECT chunk that is in memory. -/
def afterInjectWrite (s : State) : State :=
  { s with
    mem := s.mem.write s.eng.work.idx
      (mergedByte s.eng.work.pos.toNat s.eng.work.rem.toNat s.eng.work.val s.eng.work.byte)
    trace := .store (.engine s.self) s.eng.work.idx
      (mergedByte s.eng.work.pos.toNat s.eng.work.rem.toNat s.eng.work.val s.eng.work.byte) :: s.trace
    eng := { s.eng with work := { s.eng.work.advance with step := .read } } }

/-- An engine about to write makes that move, and then those of the chunks after it (rule R89). -/
theorem injectWrite_respondsAfter {k : Nat} (hp : s.eng.phase = .run) (hop : s.eng.work.op = .inject)
    (hst : s.eng.work.step = .write) (hrem : s.eng.work.rem ≠ 0) (hidx : s.eng.work.idx < s.mem.size)
    (h : RespondsAfter k (afterInjectWrite s)) : RespondsAfter (k + 1) s := by
  obtain ⟨t, hsteps, ht⟩ := h
  refine ⟨t, ?_, ht⟩
  have hwrite : injectWrite (s.withMoves k) = some ((afterInjectWrite s).withMoves k) := injectWrite_of_lt hidx
  rw [← hsteps, steps_withMoves_of_next]
  rw [moveEngine_injectWrite (s := s.withMoves k) hp hrem hop hst, hwrite, orStuck]

/-- From anywhere in RUN the engine gets to RESP in at most 11 moves: 5 chunks, two moves each, and FINISH. -/
theorem run_respondsAfter (hwf : s.mem.wf = true) (hinv : s.eng.work.Inv s.mem.size) (hp : s.eng.phase = .run)
    (hspan : s.eng.work.SpanIn s.mem.size) : ∃ k ≤ 11, RespondsAfter k s := by
  obtain ⟨hrem32, -, hend, -, hextract, -, hwrite⟩ := id hinv
  have hchunks := Work.chunks_le_five hrem32
  cases hop : s.eng.work.op with
  | extract => exact ⟨_, by omega, extract_respondsAfter ⟨hp, hop, (hextract hop).2, hend⟩ hinv hspan⟩
  | inject =>
    cases hst : s.eng.work.step with
    | read => exact ⟨_, by omega, inject_respondsAfter ⟨hp, hop, hst, hend⟩ hwf hspan⟩
    | write =>
      obtain ⟨hrem, hidx⟩ := hwrite hst
      obtain ⟨hone, -, hfield⟩ := Work.advance_chunks hrem hend
      have hrest : RespondsAfter (2 * s.eng.work.advance.chunks + 1) (afterInjectWrite s) :=
        inject_respondsAfter ⟨hp, hop, rfl, hfield.trans_le hend⟩ (Memory.wf_write hwf hidx _)
          (hspan.advance hrem hend)
      exact ⟨_, by omega, injectWrite_respondsAfter hp hop hst hrem hidx hrest⟩

/-- Settles O38: at most 5 chunks remain, of which an INJECT makes two moves each, and FINISH is the last. -/
theorem runningCommandReachesItsResponse : Obligations.RunningCommandReachesItsResponse := by
  unfold Obligations.RunningCommandReachesItsResponse
  intro s hinv hp hspan
  obtain ⟨hwf, -⟩ := id hinv
  obtain ⟨-, -, -, hwork⟩ := hinv.front
  obtain ⟨k, hk, t, hsteps, ht⟩ := run_respondsAfter (s := { s with inputs := [] }) hwf (hwork hp) hp hspan
  refine ⟨k, t, hk, ?_, ht⟩
  rw [← hsteps, State.withMoves, List.append_nil]
  rfl

end Sys2Proof.Machine
end

section
/-! PROOFS. The port and the response of a busy engine (O35; rule R114), and what ends a run (O40; rule R113). -/

namespace Sys2Proof.Machine

variable {s t u : State} {ev : Event} {rest : List Event} {n : Nat} {a : Engine}

/-! ## A busy engine -/

/-- A move or a whole command takes no word from the port of a busy engine (rule R114). -/
theorem EngineAfterMove.port (h : EngineAfterMove u t) (hp : u.eng.phase ≠ .idle) : t.eng.port = u.eng.port := by
  rcases h with heng | ⟨hidle, -⟩ | ⟨hidle, -⟩ | ⟨-, -, rfl⟩ | ⟨-, heng⟩
  · rw [heng]
  · exact absurd hidle hp
  · exact absurd hidle hp
  · rfl
  · rw [heng]

theorem takeResponse_port (s : State) : (takeResponse s).eng.port = s.eng.port := by
  rcases takeResponse_cases s with ⟨-, ht⟩ | ⟨-, ht⟩ <;> rw [ht]
  rfl

/-- No event of a busy engine but an offer changes what waits on its port. -/
theorem EngineEvent.port (h : EngineEvent ev n u t) (hp : u.eng.phase ≠ .idle) (hoffer : ∀ cmd, ev ≠ .offer n cmd) :
    t.eng.port = u.eng.port := by
  rcases h with ⟨cmd, hev, -⟩ | ⟨-, hc⟩ | ⟨-, hm⟩ | ⟨-, rfl⟩ | ⟨-, rfl⟩ | ⟨-, rfl⟩ | ⟨-, rfl⟩
  · exact absurd hev (hoffer cmd)
  · exact (engine_after_command hc).port hp
  · exact (engine_after_move hm).port hp
  · exact takeResponse_port u
  · rfl
  · rfl
  · rfl

theorem EngineEvent.of_offer {cmd : CmdWord} (h : EngineEvent (.offer n cmd) n u t) :
    t = u.setEng { u.eng with port := u.eng.port ++ [cmd] } := by
  simpa [EngineEvent] using h

/-- In RESP only an offer, the taking of the response and a reset change the engine (rules R69 and R114). -/
theorem EngineEvent.of_resp (h : EngineEvent ev n u t) (hp : u.eng.phase = .resp) (htake : ev ≠ .take n)
    (hreset : ev ≠ .reset n) : t.eng = { u.eng with port := t.eng.port } := by
  rcases h with ⟨cmd, -, rfl⟩ | ⟨-, hc⟩ | ⟨-, hm⟩ | ⟨hev, -⟩ | ⟨-, rfl⟩ | ⟨-, rfl⟩ | ⟨hev, -⟩
  · rfl
  · rw [runCommand_of_resp hp] at hc
    injection hc with hc
    rw [hc]
  · rw [moveEngine_of_resp hp] at hm
    injection hm with hm
    rw [hm]
  · exact absurd hev htake
  · rfl
  · rfl
  · exact absurd hev hreset

/-- Settles O35: an event of another engine changes nothing of this one, and its own events each do as they are to. -/
theorem busyEngineLeavesTheCommandOnItsPort : Obligations.BusyEngineLeavesTheCommandOnItsPort := by
  unfold Obligations.BusyEngineLeavesTheCommandOnItsPort
  intro s t ev rest n a b hin hs ha hb
  rcases step_at_engine hin hs ha hb with ⟨hother, rfl⟩ | ⟨u, rfl, -, rfl, -, -, -, -, -, hev⟩
  · exact ⟨fun _ _ => rfl, fun cmd hoffer => absurd (congrArg Event.engine? hoffer) hother, fun _ _ _ => rfl⟩
  · refine ⟨fun hp hoffer => hev.port hp hoffer, fun cmd hoffer => ?_, fun hp => hev.of_resp hp⟩
    subst hoffer
    rw [hev.of_offer, setEng_eng]

/-! ## The end of a run -/

/-- When the run of an engine has ended (rule R113; log entry 20). -/
theorem ended_iff (ha : s.engines[n]? = some a) :
    ended n s = true ↔
      a.phase = .idle ∧ a.port = [] ∧ noOffer n s.inputs = true ∧ lastAnswered n s.trace = true := by
  simp [ended, ha, and_assoc]

theorem not_ended_of_unanswered (h : lastAnswered n s.trace = false) : ended n s = false := by
  unfold ended
  split
  · rfl
  · rw [h, Bool.and_false]

theorem noOffer_cons_reset (m : Nat) : noOffer n (.reset m :: rest) = noOffer n rest := rfl

/-- The step that resets an engine, and the engine after it. -/
theorem step_reset_of_getElem? (hin : s.inputs = .reset n :: rest) (ha : s.engines[n]? = some a) :
    ∃ t b, step s = .next t ∧ t.engines[n]? = some b ∧ b.phase = .idle ∧ b.port = a.port ∧ t.inputs = rest ∧
      t.trace = .reset n :: s.trace := by
  obtain ⟨u, rfl, rfl, -, -, hinputs, htrace, -, hat⟩ := atEngine_of_getElem? (s := { s with inputs := rest }) ha
  refine ⟨resetEngine u, _, (step_cons hin).trans (hat _), engines_self (resetEngine u), rfl, rfl, hinputs, ?_⟩
  rw [resetEngine_trace, htrace]

/-- The step that takes the response an engine holds, and the engine after it. -/
theorem step_take_of_getElem? (hin : s.inputs = .take n :: rest) (ha : s.engines[n]? = some a)
    (hp : a.phase = .resp) :
    ∃ t b, step s = .next t ∧ t.engines[n]? = some b ∧ b.phase = .idle ∧ b.port = a.port ∧ t.inputs = rest ∧
      t.trace = .response n a.rsp.word :: s.trace := by
  obtain ⟨u, rfl, rfl, -, -, hinputs, htrace, -, hat⟩ := atEngine_of_getElem? (s := { s with inputs := rest }) ha
  have htake : step s = .next (deliver u) := by
    rw [step_cons hin, ← takeResponse_of_resp hp]
    exact hat _
  refine ⟨deliver u, _, htake, engines_self (deliver u), rfl, rfl, hinputs, ?_⟩
  rw [deliver_trace, htrace]

/-- Settles O40: a reset leaves the last command as answered as it was, and the taking of a response answers it. -/
theorem runEndsOnlyWithItsLastResponse : Obligations.RunEndsOnlyWithItsLastResponse := by
  unfold Obligations.RunEndsOnlyWithItsLastResponse
  refine ⟨fun s n a ha hp => ?_, fun s n a rest hin ha hout => ?_, fun s n a rest hin ha hp => ?_,
    fun s t n rest hin hend hs => ?_⟩
  · exact Bool.eq_false_of_not_eq_true fun hend => hp ((ended_iff ha).mp hend).1
  · obtain ⟨t, -, hs, -, -, -, -, htrace⟩ := step_reset_of_getElem? hin ha
    refine ⟨t, hs, not_ended_of_unanswered ?_⟩
    rw [htrace, lastAnswered_reset, lastAnswered_of_outstanding hout]
  · obtain ⟨t, b, hs, hb, hidle, hport, hinputs, htrace⟩ := step_take_of_getElem? hin ha hp
    have hlast : lastAnswered n t.trace = true := by rw [htrace, lastAnswered_response_self]
    refine ⟨t, hs, hlast, ?_⟩
    rw [ended_iff hb, hport, hinputs]
    exact ⟨fun ⟨_, hnone, hoffer, _⟩ => ⟨hnone, hoffer⟩, fun ⟨hnone, hoffer⟩ => ⟨hidle, hnone, hoffer, hlast⟩⟩
  · cases ha : s.engines[n]? with
    | none => simp [ended, ha] at hend
    | some a =>
      obtain ⟨-, hnone, hoffer, hlast⟩ := (ended_iff ha).mp hend
      obtain ⟨t', b, hs', hb, hidle, hport, hinputs, htrace⟩ := step_reset_of_getElem? hin ha
      cases hs.symm.trans hs'
      rw [hin, noOffer_cons_reset] at hoffer
      rw [ended_iff hb, hport, hinputs, htrace, lastAnswered_reset]
      exact ⟨hidle, hnone, hoffer, hlast⟩

end Sys2Proof.Machine
end

section
/-! PROOFS. Chunk steps of two engines at different bytes commute (O51; rule R118): what a chunk step does as a function
of the engine and of the memory, then the two orders. -/

namespace Sys2Proof.Machine

variable {m : Memory} {s t u : State} {n : Nat} {a b : Engine}

/-! ## Two bytes of memory -/

/-- Writes to two bytes commute (rule R37). -/
theorem Memory.write_comm (hwf : m.wf = true) {i j : Nat} (hi : i < m.size) (hj : j < m.size) (hij : i ≠ j)
    (v w : Byte) : (m.write i v).write j w = (m.write j w).write i v := by
  have hwfi := Memory.wf_write hwf hi v
  have hwfj := Memory.wf_write hwf hj w
  refine Memory.ext_read (Memory.wf_write hwfi hj w) (Memory.wf_write hwfj hi v) rfl fun x => ?_
  rw [Memory.read_write hwfi, Memory.read_write hwf, Memory.read_write hwfj, Memory.read_write hwf]
  by_cases hx : j = x
  · rw [if_pos hx, if_pos hx, if_neg (hx ▸ hij)]
  · rw [if_neg hx, if_neg hx]

/-! ## A chunk step of an engine on a memory (rules R77, R81, R82 and R89) -/

/-- The engine after its next chunk step, the byte `b` being in memory at the index of the chunk. -/
def Engine.afterChunk (e : Engine) (b : Byte) : Engine :=
  match e.work.op, e.work.step with
  | .extract, _ =>
    { e with work := { e.work.advance with acc := accumulated e.work.pos.toNat e.work.rem.toNat e.work.acc b } }
  | .inject, .read => { e with work := { e.work with byte := b, step := .write } }
  | .inject, .write => { e with work := { e.work.advance with step := .read } }

/-- The memory after the engine's next chunk step: only a WRITE step changes it. -/
def Engine.storeChunk (e : Engine) (m : Memory) : Memory :=
  match e.work.op, e.work.step with
  | .inject, .write =>
    m.write e.work.idx (mergedByte e.work.pos.toNat e.work.rem.toNat e.work.val e.work.byte)
  | _, _ => m

/-- A chunk step leaves memory alone, or writes the byte at its index, whatever is in memory. -/
theorem Engine.storeChunk_cases (e : Engine) :
    (∀ m, e.storeChunk m = m) ∨ ∃ v, ∀ m, e.storeChunk m = m.write e.work.idx v := by
  unfold Engine.storeChunk
  cases e.work.op with
  | extract => exact .inl fun _ => rfl
  | inject =>
    cases e.work.step with
    | read => exact .inl fun _ => rfl
    | write => exact .inr ⟨_, fun _ => rfl⟩

@[simp] theorem Engine.storeChunk_size (e : Engine) (m : Memory) : (e.storeChunk m).size = m.size := by
  rcases e.storeChunk_cases with hkeep | ⟨v, hwrite⟩
  · rw [hkeep]
  · rw [hwrite, Memory.write_size]

/-- A chunk step leaves the bytes at other indices as they were. -/
theorem Engine.read_storeChunk_of_ne {e : Engine} {i : Nat} (h : e.work.idx ≠ i) (m : Memory) :
    (e.storeChunk m).read i = m.read i := by
  rcases e.storeChunk_cases with hkeep | ⟨v, hwrite⟩
  · rw [hkeep]
  · rw [hwrite, Memory.read_write_of_ne m h]

/-- What two engines store at different bytes does not depend on their order. -/
theorem Engine.storeChunk_comm (hwf : m.wf = true) (ha : a.work.idx < m.size) (hb : b.work.idx < m.size)
    (hne : a.work.idx ≠ b.work.idx) : b.storeChunk (a.storeChunk m) = a.storeChunk (b.storeChunk m) := by
  rcases a.storeChunk_cases with hkeep | ⟨v, hwrite⟩
  · rw [hkeep, hkeep]
  · rcases b.storeChunk_cases with hkeep' | ⟨w, hwrite'⟩
    · rw [hkeep', hkeep']
    · rw [hwrite, hwrite', hwrite', hwrite, Memory.write_comm hwf ha hb hne]

/-! ## The move of an engine in the middle of a command -/

/-- The engine is in RUN with bits left. -/
abbrev Engine.MidCommand (e : Engine) : Prop := e.phase = .run ∧ e.work.rem ≠ 0

/-- In the middle of a command a move is a chunk step, which has the byte at its index in memory. -/
theorem moveEngine_midCommand_next (h : u.eng.MidCommand) (hm : moveEngine u = .next t) :
    u.eng.work.idx < u.mem.size ∧ t.eng = u.eng.afterChunk (u.mem.read u.eng.work.idx) ∧
      t.mem = u.eng.storeChunk u.mem := by
  obtain ⟨hp, hrem⟩ := h
  rcases moveEngine_next hm with ⟨-, ⟨hp', -⟩ | hp'⟩ | ⟨-, -, hp', -⟩ | ⟨-, hrem', -⟩ | ⟨-, -, hchunk⟩
  · cases hp.symm.trans hp'
  · cases hp.symm.trans hp'
  · cases hp.symm.trans hp'
  · exact absurd hrem' hrem
  · rcases hchunk with ⟨hop, hc⟩ | ⟨hop, hst, hc⟩ | ⟨hop, hst, hc⟩
    · obtain ⟨hidx, rfl⟩ := extractChunk_some hc
      refine ⟨hidx, ?_, ?_⟩ <;> simp only [Engine.afterChunk, Engine.storeChunk, afterExtractChunk, hop]
    · obtain ⟨hidx, rfl⟩ := injectRead_some hc
      refine ⟨hidx, ?_, ?_⟩ <;> simp only [Engine.afterChunk, Engine.storeChunk, hop, hst]
    · obtain ⟨hidx, rfl⟩ := injectWrite_some hc
      refine ⟨hidx, ?_, ?_⟩ <;> simp only [Engine.afterChunk, Engine.storeChunk, hop, hst]

/-- A chunk step whose byte is in memory is possible (rules R81 and R89). -/
theorem chunkMove_of_lt (h : s.eng.work.idx < s.mem.size) : ∃ t, chunkMove s = .next t := by
  unfold chunkMove
  split
  · exact ⟨_, by rw [extractChunk_of_lt h, orStuck]⟩
  · exact ⟨_, by rw [injectRead_of_lt h, orStuck]⟩
  · exact ⟨_, by rw [injectWrite_of_lt h, orStuck]⟩

/-! ## The same, of an engine of the platform -/

/-- The engines of the platform, where only the one in front may have changed, as a list. -/
theorem engines_eq_set (hb : t.before = u.before) (ha : t.after = u.after) :
    t.engines = u.engines.set u.self t.eng := by
  simp [State.engines, State.self, hb, ha]

/-- The move of an engine that is in the middle of a command changes that engine, and memory at the byte of its
chunk. -/
theorem perform_move_midCommand (ha : s.engines[n]? = some a) (h : a.MidCommand)
    (hs : perform (.move n) s = .next t) :
    a.work.idx < s.mem.size ∧ t.engines = s.engines.set n (a.afterChunk (s.mem.read a.work.idx)) ∧
      t.mem = a.storeChunk s.mem := by
  obtain ⟨u, rfl, rfl, hengines, hmem, -, -, -, hat⟩ := atEngine_of_getElem? ha
  rw [perform, hat] at hs
  obtain ⟨hbefore, hafter, -⟩ := moveEngine_frame hs
  obtain ⟨hidx, heng, hstore⟩ := moveEngine_midCommand_next h hs
  rw [engines_eq_set hbefore hafter, hengines, heng, hstore, hmem]
  exact ⟨hmem ▸ hidx, rfl, rfl⟩

/-- It is possible where that byte is in memory. -/
theorem perform_move_of_lt (ha : s.engines[n]? = some a) (h : a.MidCommand) (hidx : a.work.idx < s.mem.size) :
    ∃ t, perform (.move n) s = .next t := by
  obtain ⟨u, rfl, -, -, hmem, -, -, -, hat⟩ := atEngine_of_getElem? ha
  obtain ⟨hp, hrem⟩ := h
  obtain ⟨t, ht⟩ := chunkMove_of_lt (hmem ▸ hidx)
  exact ⟨t, by rw [perform, hat, moveEngine_of_run hp hrem, ht]⟩

/-- After the chunk step of engine `m` the one of engine `n`, at another byte, is possible and does what it did
before. -/
theorem perform_move_after {m : Nat} {sa : State} (hmn : m ≠ n) (ha : s.engines[m]? = some a)
    (hb : s.engines[n]? = some b) (hma : a.MidCommand) (hmb : b.MidCommand) (hne : a.work.idx ≠ b.work.idx)
    (hidx : b.work.idx < s.mem.size) (hs : perform (.move m) s = .next sa) :
    ∃ t, perform (.move n) sa = .next t ∧
      t.engines = (s.engines.set m (a.afterChunk (s.mem.read a.work.idx))).set n
        (b.afterChunk (s.mem.read b.work.idx)) ∧
      t.mem = b.storeChunk (a.storeChunk s.mem) := by
  obtain ⟨-, hengines, hmem⟩ := perform_move_midCommand ha hma hs
  have hb' : sa.engines[n]? = some b := by rw [hengines, List.getElem?_set_ne hmn, hb]
  obtain ⟨t, ht⟩ := perform_move_of_lt hb' hmb (by rw [hmem, Engine.storeChunk_size]; exact hidx)
  obtain ⟨-, hengines', hmem'⟩ := perform_move_midCommand hb' hmb ht
  rw [hmem, Engine.read_storeChunk_of_ne hne, hengines] at hengines'
  exact ⟨t, ht, hengines', hmem ▸ hmem'⟩

/-- Settles O51: each chunk step is a function of its engine and of the one byte, which the other leaves alone. -/
theorem chunkStepsAtDifferentBytesCommute : Obligations.ChunkStepsAtDifferentBytesCommute := by
  unfold Obligations.ChunkStepsAtDifferentBytesCommute
  intro s sa sb m n a b hwf hmn ha hb hpa hpb hrema hremb hne hsa hsb
  obtain ⟨hidxa, -⟩ := perform_move_midCommand ha ⟨hpa, hrema⟩ hsa
  obtain ⟨hidxb, -⟩ := perform_move_midCommand hb ⟨hpb, hremb⟩ hsb
  obtain ⟨t, ht, hengines, hmem⟩ := perform_move_after hmn ha hb ⟨hpa, hrema⟩ ⟨hpb, hremb⟩ hne hidxb hsa
  obtain ⟨u, hu, hengines', hmem'⟩ :=
    perform_move_after hmn.symm hb ha ⟨hpb, hremb⟩ ⟨hpa, hrema⟩ hne.symm hidxa hsb
  refine ⟨t, u, ht, hu, ?_, ?_⟩
  · rw [hengines, hengines', List.set_comm _ _ hmn]
  · rw [hmem, hmem', Engine.storeChunk_comm hwf hidxa hidxb hne]

end Sys2Proof.Machine
end

section
/-! PROOFS. A reset after any number of moves of a command (O44; rule R110): moves complete while the next byte is in
memory and record no response, and of an INJECT the bytes of the chunks before `pos` are written whole. -/

namespace Sys2Proof.Machine

variable {m now full : Memory} {s t u : State} {cmd : CmdWord} {o v l : Word} {c : Count}

/-! ## No response is delivered -/

/-- From `s` to `t` the record grows, and by no response. -/
abbrev RecordsNoResponse (s t : State) : Prop :=
  ∃ acts, t.trace = acts ++ s.trace ∧ ∀ n w, Act.response n w ∉ acts

theorem RecordsNoResponse.trans (h : RecordsNoResponse s t) (h' : RecordsNoResponse t u) : RecordsNoResponse s u := by
  obtain ⟨acts, htrace, hnone⟩ := h
  obtain ⟨acts', htrace', hnone'⟩ := h'
  refine ⟨acts' ++ acts, by rw [htrace', htrace, List.append_assoc], fun n w hmem => ?_⟩
  exact (List.mem_append.mp hmem).elim (hnone' n w) (hnone n w)

theorem RecordsNoResponse.of_trace_eq (h : t.trace = s.trace) : RecordsNoResponse s t :=
  ⟨[], h, fun _ _ => List.not_mem_nil⟩

theorem RecordsNoResponse.of_trace_cons {act : Act} (h : t.trace = act :: s.trace)
    (hact : ∀ n w, act ≠ .response n w) : RecordsNoResponse s t :=
  ⟨[act], h, fun n w hmem => hact n w (List.mem_singleton.mp hmem).symm⟩

theorem RecordsNoResponse.since (h : RecordsNoResponse s t) (n : Nat) (w : RspWord) :
    Act.response n w ∉ since s t := by
  obtain ⟨acts, htrace, hnone⟩ := h
  rw [since_append htrace]
  exact hnone n w

/-- Only the host's taking of it delivers a response (rule R69), no move of the engine does. -/
theorem moveEngine_recordsNoResponse (hm : moveEngine s = .next t) : RecordsNoResponse s t := by
  rcases moveEngine_next hm with ⟨rfl, -⟩ | ⟨cmd, ws, -, -, rfl⟩ | ⟨-, -, rfl⟩ | ⟨-, -, hchunk⟩
  · exact .of_trace_eq rfl
  · exact .of_trace_cons (accept_trace ..) nofun
  · exact .of_trace_eq rfl
  · rcases hchunk with ⟨-, hc⟩ | ⟨-, -, hc⟩ | ⟨-, -, hc⟩
    · obtain ⟨-, rfl⟩ := extractChunk_some hc
      exact .of_trace_cons rfl nofun
    · obtain ⟨-, rfl⟩ := injectRead_some hc
      exact .of_trace_cons rfl nofun
    · obtain ⟨-, rfl⟩ := injectWrite_some hc
      exact .of_trace_cons rfl nofun

/-! ## Moves, then a reset -/

/-- A move of the engine in front completes unless it is a chunk step beyond the memory (rule R43). -/
theorem moveEngine_completes (h : s.eng.phase = .run → s.eng.work.rem ≠ 0 → s.eng.work.idx < s.mem.size) :
    ∃ t, moveEngine s = .next t := by
  cases hp : s.eng.phase with
  | idle =>
    cases hport : s.eng.port with
    | nil => exact ⟨s, moveEngine_of_no_offer hp hport⟩
    | cons cmd ws => exact ⟨_, moveEngine_of_idle hp hport⟩
  | run =>
    by_cases hrem : s.eng.work.rem = 0
    · exact ⟨_, moveEngine_of_done hp hrem⟩
    · obtain ⟨t, ht⟩ := chunkMove_of_lt (h hp hrem)
      exact ⟨t, (moveEngine_of_run hp hrem).trans ht⟩
  | resp => exact ⟨s, moveEngine_of_resp hp⟩

theorem step_reset_self {rest : List Event} (hin : s.inputs = .reset s.self :: rest) :
    step s = .next (resetEngine { s with inputs := rest }) := by
  rw [step_cons hin]; exact atEngine_self { s with inputs := rest } _

/-- What every move keeps while it completes, holds at the reset after any number of moves; no response is delivered. -/
theorem moves_then_reset {P : State → Prop} (hmove : ∀ x, P x → ∃ y, moveEngine x = .next y ∧ P y)
    (hinputs : ∀ x events, P x → P { x with inputs := events }) (k : Nat) (s : State) (h : P s)
    (hin : s.inputs = List.replicate k (.move s.self) ++ [.reset s.self]) :
    ∃ x, steps (k + 1) s = .next (resetEngine x) ∧ P x ∧ RecordsNoResponse s (resetEngine x) := by
  induction k generalizing s with
  | zero =>
    refine ⟨{ s with inputs := [] }, ?_, hinputs s [] h, .of_trace_cons rfl nofun⟩
    simp only [steps, step_reset_self hin]
  | succ k ih =>
    let events : List Event := List.replicate k (.move s.self) ++ [.reset s.self]
    obtain ⟨y, hy, hPy⟩ := hmove { s with inputs := events } (hinputs s events h)
    obtain ⟨hbefore, -, hin', -⟩ := moveEngine_frame hy
    have hself : y.self = s.self := congrArg List.length hbefore
    obtain ⟨x, hsteps, hPx, hrecords⟩ := ih y hPy (by rw [hin', hself])
    have hfirst : RecordsNoResponse s y := moveEngine_recordsNoResponse (s := { s with inputs := events }) hy
    refine ⟨x, ?_, hPx, hfirst.trans hrecords⟩
    rw [steps, step_move_self (s := s) (rest := events) hin, hy]
    exact hsteps

/-- The chunk of an engine that has done the first `j` bits of the field `[o, o + c)` lies in the span (rule R74). -/
theorem Work.idx_mem_span {w : Work} {o c j : Nat} (hpos : w.pos.toNat = o + j) (hend : j + w.rem.toNat = c)
    (hrem : w.rem ≠ 0) : spanFirst o ≤ w.idx ∧ w.idx ≤ spanLast o c := by
  have hrem1 := rem_toNat_pos hrem
  unfold Work.idx chunkIdx spanFirst spanLast
  omega

/-! ## The first chunk writes of an INJECT -/

/-- The memory `now` is the memory `m` with the first bits of the field made those of `v`, up to the end of a byte or of
the field. -/
abbrev InjectedPrefix (o n v : Nat) (m now : Memory) : Prop :=
  ∃ j ≤ n, (j = 0 ∨ j = n ∨ (o + j) % 8 = 0) ∧ ∀ p, bitAt now p = injectedBit m o n v j p

/-- The bits before the end of those written are as after the whole INJECT. -/
theorem injectedBit_eq_full {o n v j p : Nat} (hj : j ≤ n) (hp : p < o + j ∨ j = n) :
    injectedBit m o n v j p = injectedBit m o n v n p := by
  by_cases hin : o ≤ p ∧ p < o + j
  · rw [injectedBit_of_mem hin.1 hin.2, injectedBit_of_mem hin.1 (by omega)]
  · rw [injectedBit_of_not_mem (by omega), injectedBit_of_not_mem (by omega)]

/-- Byte by byte: the first bytes of the span are as after the whole INJECT, and every other byte is as before. -/
theorem InjectedPrefix.bytes {o n v : Nat} (h : InjectedPrefix o n v m now) (hfull : Injected o n v m full) :
    ∃ j ≤ chunkCount o n, ∀ i, now.read i =
      if spanFirst o ≤ i ∧ i < spanFirst o + j then full.read i else m.read i := by
  obtain ⟨j, hj, hbyte, hbits⟩ := h
  have hin {p : Nat} (hlo : spanFirst o ≤ p / 8) (hhi : p / 8 < spanFirst o + chunksLeft o j) : p < o + j ∨ j = n := by
    unfold spanFirst chunksLeft chunkCount at *
    split at hhi <;> omega
  have hout {p : Nat} (hp : ¬ (spanFirst o ≤ p / 8 ∧ p / 8 < spanFirst o + chunksLeft o j)) : p < o ∨ o + j ≤ p := by
    unfold spanFirst chunksLeft chunkCount at *
    split at hp <;> omega
  refine ⟨chunksLeft o j, ?_, fun i => ?_⟩
  · unfold chunksLeft chunkCount
    split <;> omega
  · by_cases hi : spanFirst o ≤ i ∧ i < spanFirst o + chunksLeft o j
    · rw [if_pos hi]
      refine read_eq_of_bitAt fun p hp => ?_
      rw [hbits p, hfull p, injectedBit_eq_full hj (hin (hp ▸ hi.1) (hp ▸ hi.2))]
    · rw [if_neg hi]
      refine read_eq_of_bitAt fun p hp => ?_
      rw [hbits p, injectedBit_of_not_mem (hout (hp ▸ hi))]

/-! ## The invariant of an INJECT with no other agent moving -/

/-- The working registers stand at the start of the field, at its end, or at the start of a byte (rule R75). -/
abbrev Work.AtBoundary (o : Nat) (w : Work) : Prop :=
  w.pos.toNat = o ∨ w.rem = 0 ∨ w.pos.toNat % 8 = 0

/-- A chunk ends at the end of its byte or of the field (rule R75). -/
theorem Work.advance_atBoundary {w : Work} (o : Nat) (hend : w.pos.toNat + w.rem.toNat ≤ 2 ^ 32 - 1 + 32) :
    w.advance.AtBoundary o := by
  by_cases hmore : chunkSize w.pos.toNat w.rem.toNat < w.rem.toNat
  · exact .inr (.inr (advance_pos_toNat hend ▸ chunk_ends_byte hmore))
  · exact .inr (.inl (Work.advance_rem_of_last hmore))

/-- The engine in front is before, in or past its INJECT of the word `cmd`, begun on the memory `m`: in RUN it stands at a
boundary, and the bytes outside the span are as they were. -/
abbrev State.InjectingAlone (m : Memory) (cmd : CmdWord) (o c v : Nat) (s : State) : Prop :=
  s.mem.wf = true ∧ s.mem.size = m.size ∧ s.eng.Injecting m s.mem cmd o c v ∧
    (s.eng.phase = .run → s.eng.work.AtBoundary o) ∧
    ∀ i, i < spanFirst o ∨ spanLast o c < i → s.mem.read i = m.read i

/-- Before the command nothing has changed. -/
theorem State.InjectingAlone.of_idle {ws : List CmdWord} {o c v : Nat} (hwf : s.mem.wf = true)
    (hp : s.eng.phase = .idle) (hport : s.eng.port = cmd :: ws) : s.InjectingAlone s.mem cmd o c v :=
  ⟨hwf, rfl, .inl ⟨hp, ⟨ws, hport⟩, fun _ _ _ => (injectedBit_of_not_mem (by omega)).symm⟩,
    fun hrun => absurd (hp.symm.trans hrun) nofun, fun _ _ => rfl⟩

theorem Engine.Injecting.move_atBoundary (hd : decode cmd = .ok (.inject o c v l))
    (h : s.eng.Injecting m s.mem cmd o.toNat c.toNat v.toNat)
    (hbound : s.eng.phase = .run → s.eng.work.AtBoundary o.toNat) (hm : moveEngine s = .next t) :
    t.eng.phase = .run → t.eng.work.AtBoundary o.toNat := by
  obtain ⟨hfield, -, hend⟩ := startRun_field .inject (maskedValue v c) (l := l) (n := c) (decode_ok hd).2 s
  rcases h with ⟨hp, ⟨ws, hport⟩, -⟩ | ⟨hp, hop, -, -, j, hpos, hrest, -⟩ | ⟨hp, -⟩
  · rw [moveEngine_of_idle hp hport, accept_inject hd] at hm
    injection hm with hm
    exact fun _ => hm ▸ .inl hfield
  · rcases moveEngine_inject_next hp hop hm with ⟨-, rfl⟩ | ⟨-, -, hread⟩ | ⟨-, -, hwrite⟩
    · exact nofun
    · obtain ⟨-, rfl⟩ := injectRead_some hread
      exact hbound
    · obtain ⟨-, rfl⟩ := injectWrite_some hwrite
      exact fun _ => Work.advance_atBoundary (w := s.eng.work) _ (by omega)
  · rw [moveEngine_of_resp hp] at hm
    injection hm with hm
    exact hm ▸ hbound

/-- The byte that an INJECT is about to write lies in its span. -/
theorem Engine.Injecting.idx_mem_span {a : Engine} {o c v : Nat} (h : a.Injecting m now cmd o c v)
    (hp : a.phase = .run) (hrem : a.work.rem ≠ 0) : spanFirst o ≤ a.work.idx ∧ a.work.idx ≤ spanLast o c := by
  rcases h with ⟨hp', -⟩ | ⟨-, -, -, -, j, hpos, hend, -⟩ | ⟨hp', -⟩
  · cases hp.symm.trans hp'
  · exact Work.idx_mem_span hpos hend hrem
  · cases hp.symm.trans hp'

/-- A byte is written only where one waits to be (rule R89). -/
theorem Engine.Injecting.rem_ne_zero {a : Engine} {o c v : Nat} (h : a.Injecting m now cmd o c v)
    (hp : a.phase = .run) (hst : a.work.step = .write) : a.work.rem ≠ 0 := by
  rcases h with ⟨hp', -⟩ | ⟨-, -, -, hbyte, -⟩ | ⟨hp', -⟩
  · cases hp.symm.trans hp'
  · exact (hbyte hst).1
  · cases hp.symm.trans hp'

theorem State.InjectingAlone.move (hd : decode cmd = .ok (.inject o c v l)) (hs : spanLast o.toNat c.toNat < m.size)
    (h : s.InjectingAlone m cmd o.toNat c.toNat v.toNat) :
    ∃ t, moveEngine s = .next t ∧ t.InjectingAlone m cmd o.toNat c.toNat v.toNat := by
  obtain ⟨hwf, hsize, hinj, hbound, houtside⟩ := h
  obtain ⟨t, ht⟩ := moveEngine_completes (s := s) fun hp hrem => by
    rw [hsize]; exact (hinj.idx_mem_span hp hrem).2.trans_lt hs
  obtain ⟨-, -, -, hsize'⟩ := moveEngine_frame ht
  refine ⟨t, ht, moveEngine_mem_wf hwf ht, hsize'.trans hsize, hinj.move hwf hd ht,
    hinj.move_atBoundary hd hbound ht, fun i hi => ?_⟩
  rw [← houtside i hi]
  by_contra hne
  obtain ⟨-, hp, -, hst, hidx⟩ := moveEngine_stores ht hne
  obtain ⟨hlo, hhi⟩ := hinj.idx_mem_span hp (hinj.rem_ne_zero hp hst)
  omega

/-- The invariant says which bits of memory have changed, inside the span and outside. -/
theorem State.InjectingAlone.injectedPrefix {o c v : Nat} (h : s.InjectingAlone m cmd o c v) :
    InjectedPrefix o c v m s.mem := by
  obtain ⟨-, -, hinj, hbound, houtside⟩ := h
  have hbits {j : Nat} (hj : j ≤ c) (hspan : InjectedInSpan o c v j m s.mem) (p : Nat) :
      bitAt s.mem p = injectedBit m o c v j p := by
    by_cases hp : spanFirst o ≤ p / 8 ∧ p / 8 ≤ spanLast o c
    · exact hspan p hp.1 hp.2
    · rw [bitAt_congr (houtside _ (by omega)), injectedBit_of_not_mem (by unfold spanFirst spanLast at hp; omega)]
  rcases hinj with ⟨-, -, h0⟩ | ⟨hp, -, -, -, j, hpos, hend, hspan⟩ | ⟨-, -, hall⟩
  · exact ⟨0, Nat.zero_le _, .inl rfl, hbits (Nat.zero_le _) h0⟩
  · refine ⟨j, by omega, ?_, hbits (by omega) hspan⟩
    rcases hbound hp with hstart | hdone | hbyte
    · exact .inl (by omega)
    · rw [hdone] at hend
      exact .inr (.inl hend)
    · exact .inr (.inr (hpos ▸ hbyte))
  · exact ⟨c, le_rfl, .inr (.inl rfl), hbits le_rfl hall⟩

/-! ## The invariant of an EXTRACT with no other agent moving -/

/-- The engine in front is before, in or past its EXTRACT of the word `cmd`, begun on the memory `m`, which has
not changed. -/
abbrev State.ExtractingAlone (m : Memory) (cmd : CmdWord) (o c : Nat) (s : State) : Prop :=
  s.mem = m ∧ s.eng.Extracting m cmd o c

theorem State.ExtractingAlone.move (hd : decode cmd = .ok (.extract o c l)) (hs : spanLast o.toNat c.toNat < m.size)
    (h : s.ExtractingAlone m cmd o.toNat c.toNat) :
    ∃ t, moveEngine s = .next t ∧ t.ExtractingAlone m cmd o.toNat c.toNat := by
  obtain ⟨rfl, hext⟩ := h
  obtain ⟨t, ht⟩ := moveEngine_completes (s := s) fun hp hrem => by
    rcases hext with ⟨hp', -⟩ | ⟨-, -, j, hpos, hend, -⟩ | ⟨hp', -⟩
    · cases hp.symm.trans hp'
    · exact (Work.idx_mem_span hpos hend hrem).2.trans_lt hs
    · cases hp.symm.trans hp'
  have hmem : t.mem = s.mem := by
    rcases hext with ⟨hp, ws, hport⟩ | ⟨hp, hop, -⟩ | ⟨hp, -⟩
    · rw [moveEngine_of_idle hp hport] at ht
      injection ht with ht
      rw [← ht, accept_mem, takeWord_mem]
    · rcases moveEngine_extract_next hp hop ht with ⟨-, rfl⟩ | ⟨-, rfl⟩ <;> rfl
    · rw [moveEngine_of_resp hp] at ht
      injection ht with ht
      rw [ht]
  exact ⟨t, ht, hmem, hext.move hd (fun _ _ _ => rfl) ht⟩

/-! ## The reset -/

/-- Settles O44: the moves before the reset keep the invariant of the command, and the reset changes no memory. -/
theorem resetDuringACommandKeepsAPrefix : Obligations.ResetDuringACommandKeepsAPrefix := by
  unfold Obligations.ResetDuringACommandKeepsAPrefix
  refine ⟨fun s cmd ws o n v l k hwf hp hport hd hs => ?_, fun s cmd ws o n l k hp hport hd hs => ?_⟩
  · have hc : (Instr.inject o n v l).operandCode = .ok := (decode_ok hd).2
    obtain ⟨full, hfull, -, -, hinjected⟩ := exec_inject_injected hwf hp ((wellFormed_iff _).mpr hc) hs
    obtain ⟨x, hsteps, hx, hrecords⟩ := moves_then_reset (P := State.InjectingAlone s.mem cmd o.toNat n.toNat v.toNat)
      (fun _ hy => hy.move hd hs) (fun _ _ hy => hy) k
      { s with inputs := List.replicate k (.move s.self) ++ [.reset s.self] } (.of_idle hwf hp hport) rfl
    obtain ⟨j, hj, hbytes⟩ := hx.injectedPrefix.bytes hinjected
    exact ⟨resetEngine x, full, j, hfull, hsteps, rfl, status_eq_zero rfl rfl rfl, rfl, hrecords.since _, hj, hbytes⟩
  · obtain ⟨x, hsteps, ⟨hmem, -⟩, hrecords⟩ := moves_then_reset
      (P := State.ExtractingAlone s.mem cmd o.toNat n.toNat) (fun _ hy => hy.move hd hs) (fun _ _ hy => hy) k
      { s with inputs := List.replicate k (.move s.self) ++ [.reset s.self] } ⟨rfl, .inl ⟨hp, ws, hport⟩⟩ rfl
    exact ⟨resetEngine x, hsteps, rfl, status_eq_zero rfl rfl rfl, rfl, hrecords.since _, hmem⟩

end Sys2Proof.Machine
end

section
/-! PROOFS. The sample words of the test vectors (O4): the legal ones as encodings of their commands, the faulting ones by
their first failing check. -/

namespace Sys2Proof.Machine

/-- The word of a legal command decodes to it. -/
theorem decode_eq_ok_of_encode {cmd : CmdWord} {i : Instr} (h : encode i = cmd) (hi : i.wellFormed = true) :
    decode cmd = .ok i := by
  obtain ⟨-, hlegal, -⟩ := decodeOfEncodeIsTheCommand i
  exact h ▸ hlegal hi

/-- A word faults with the code of its first failing check. -/
theorem decode_eq_error_of_firstFailing {cmd : CmdWord} {c : Code} (h : firstFailing cmd.toNat = c) (hc : c ≠ .ok) :
    decode cmd = .error c := by
  subst h
  exact decode_of_firstFailing hc

/-- Settles O4: L2 and L6 are the words of their legal commands, and each F word has its vector's first failing check. -/
theorem sampleWordsDecode : Obligations.SampleWordsDecode := by
  unfold Obligations.SampleWordsDecode
  exact ⟨decode_eq_ok_of_encode (by decide) (by decide), decode_eq_ok_of_encode (by decide) (by decide),
    decode_eq_error_of_firstFailing (by decide) (by decide), decode_eq_error_of_firstFailing (by decide) (by decide),
    decode_eq_error_of_firstFailing (by decide) (by decide), decode_eq_error_of_firstFailing (by decide) (by decide),
    decode_eq_error_of_firstFailing (by decide) (by decide)⟩

end Sys2Proof.Machine
end
